-- ==== Sys2Proof/Word.lean ====
section
/-!
DEFINITION. Sys2Proof/Word.lean: the block's number type, its channel names and the waveform names.
NUM is IEEE 754 binary64 (00_scope.md R9, R12). The block's words are plain bit vectors.
-/

namespace Sys2Proof

/-- The number of finite magnitudes of binary64: bits 62:0 of a finite value lie below this
(exponent field at most 2046; 30_encoding.md R75). -/
abbrev infMag : Nat := 9218868437227405312

/-- A binary64 datum (NUM, 00_scope.md R12). `mag` of a finite value is bits 62:0 of its encoding: the
exponent field (62:52) above the fraction field (51:0), R75. There is one NaN datum: the spec names no
payload (log 11). -/
inductive Binary64 where
  | fin (neg : Bool) (mag : Fin infMag)
  | inf (neg : Bool)
  | nan
deriving DecidableEq, Repr, Inhabited

/-- The five fixed channels (10_state.md R20). -/
inductive Chan where
  | c0 | c1 | c2 | c3 | c4
deriving DecidableEq, Repr

/-- The channels in the order SAMPLE and TICK take them (20_memory.md R63). -/
def Chan.all : List Chan := [.c0, .c1, .c2, .c3, .c4]

/-- The oscillator kinds of the family (00_scope.md R1). -/
inductive Waveform where
  | square | saw | sine | triangle | noise
deriving DecidableEq, Repr

end Sys2Proof
end

