-- ==== Sys2Proof/Machine/Num.lean ====
section
/-!
DEFINITION. Sys2Proof/Machine/Num.lean: binary64 arithmetic, round to nearest, ties to even (00_scope.md R12).
Every finite value is a signed whole number of units of 2^-1074, so each operation computes exactly on
integers and rounds once at the end. The special cases (signed zeros, infinities, NaN, gradual underflow) are
IEEE 754's, which R12 adopts (log 12). The operations are irreducible only so that elaboration does not write
out their large numbers by accident: the kernel evaluates them, and `unfold` opens them.
-/

namespace Sys2Proof
namespace Binary64

/-- How many units of 2^-1074 make 1. -/
@[irreducible] def oneUnits : Nat := 2 ^ 1074

/-- A finite magnitude as a whole number of units of 2^-1074 (exponent field above a 52-bit fraction). -/
def units (mag : Nat) : Nat :=
  if mag / 2 ^ 52 = 0 then mag % 2 ^ 52 else (2 ^ 52 + mag % 2 ^ 52) * 2 ^ (mag / 2 ^ 52 - 1)

/-- `num / den` rounded to the nearest whole number, ties to even. -/
def roundQuot (num den : Nat) : Nat :=
  if 2 * (num % den) < den then num / den
  else if den < 2 * (num % den) then num / den + 1
  else num / den + (num / den) % 2

/-- How far the magnitude `q` (in units) lies above the range in which one unit is one place. -/
def scaleOf (q : Nat) : Nat := Nat.log2 q - 52

/-- The magnitude field nearest to `num / den` units, ties to even. A result of `infMag` or more is an
overflow. -/
@[irreducible] def roundMag (num den : Nat) : Nat :=
  scaleOf (num / den) * 2 ^ 52 + roundQuot num (den * 2 ^ scaleOf (num / den))

/-- A sign and a rounded magnitude field as a datum: overflow gives an infinity. -/
def pack (neg : Bool) (mag : Nat) : Binary64 :=
  if h : mag < infMag then .fin neg ⟨mag, h⟩ else .inf neg

/-- The binary64 value a 64-bit operand word encodes (30_encoding.md R75). -/
def ofBits (w : BitVec 64) : Binary64 :=
  if h : w.toNat % 2 ^ 63 < infMag then .fin (w.getLsbD 63) ⟨w.toNat % 2 ^ 63, h⟩
  else if w.toNat % 2 ^ 63 = infMag then .inf (w.getLsbD 63)
  else .nan

/-- The value of a natural number (00_scope.md R12: exact below 2^53, log 13). -/
@[irreducible] def ofNat : Nat → Binary64
  | 0 => .fin false ⟨0, by decide⟩
  | n + 1 => pack false (roundMag (oneUnits * (n + 1)) 1)

def zero : Binary64 := .fin false ⟨0, by decide⟩
def one : Binary64 := .fin false ⟨4607182418800017408, by decide⟩
def half : Binary64 := .fin false ⟨4602678819172646912, by decide⟩
def two : Binary64 := .fin false ⟨4611686018427387904, by decide⟩
def four : Binary64 := .fin false ⟨4616189618054758400, by decide⟩

/-- The sign turned over. -/
def neg : Binary64 → Binary64
  | .fin s m => .fin (!s) m
  | .inf s => .inf (!s)
  | .nan => .nan

/-- `|x|` clears the sign (40_oscillators.md R108). -/
def abs : Binary64 → Binary64
  | .fin _ m => .fin false m
  | .inf _ => .inf false
  | .nan => .nan

/-- A finite datum as a signed number of units. -/
def signedUnits (s : Bool) (m : Nat) : Int := if s then -(units m : Int) else (units m : Int)

/-- An exact sum of `z` units, rounded; `s` is the sign of a zero sum. -/
def roundInt (s : Bool) (z : Int) : Binary64 :=
  if z = 0 then .fin s ⟨0, by decide⟩ else pack (decide (z < 0)) (roundMag z.natAbs 1)

/-- `x ⊕ y` (00_scope.md R12). -/
@[irreducible] def add : Binary64 → Binary64 → Binary64
  | .fin s m, .fin t n => roundInt (s && t) (signedUnits s m + signedUnits t n)
  | .inf s, .inf t => if s = t then .inf s else .nan
  | .inf s, .fin _ _ => .inf s
  | .fin _ _, .inf t => .inf t
  | .nan, _ => .nan
  | _, .nan => .nan

/-- `x ⊖ y` (00_scope.md R12). -/
def sub (x y : Binary64) : Binary64 := add x (neg y)

/-- `x ⊗ y` (00_scope.md R12). -/
@[irreducible] def mul : Binary64 → Binary64 → Binary64
  | .fin s m, .fin t n => pack (xor s t) (roundMag (units m * units n) oneUnits)
  | .inf s, .inf t => .inf (xor s t)
  | .inf s, .fin t n => if n.val = 0 then .nan else .inf (xor s t)
  | .fin s m, .inf t => if m.val = 0 then .nan else .inf (xor s t)
  | .nan, _ => .nan
  | _, .nan => .nan

/-- `x ⊘ y` (00_scope.md R12). -/
@[irreducible] def div : Binary64 → Binary64 → Binary64
  | .fin s m, .fin t n =>
    if n.val = 0 then (if m.val = 0 then .nan else .inf (xor s t))
    else pack (xor s t) (roundMag (oneUnits * units m) (units n))
  | .inf _, .inf _ => .nan
  | .inf s, .fin t _ => .inf (xor s t)
  | .fin s _, .inf t => .fin (xor s t) ⟨0, by decide⟩
  | .nan, _ => .nan
  | _, .nan => .nan

/-- Where a datum stands on the number line, in steps of the magnitude field: both zeros at 0. NaN has no
place. -/
def key : Binary64 → Option Int
  | .fin s m => some (if s then -(m.val : Int) else (m.val : Int))
  | .inf s => some (if s then -(infMag : Int) else (infMag : Int))
  | .nan => none

/-- `x < y` on the represented values (00_scope.md R12); false when either is NaN. -/
def lt (x y : Binary64) : Bool :=
  match key x, key y with
  | some a, some b => decide (a < b)
  | _, _ => false

/-- `x ≤ y` on the represented values; false when either is NaN. -/
def le (x y : Binary64) : Bool :=
  match key x, key y with
  | some a, some b => decide (a ≤ b)
  | _, _ => false

/-- `x = y` on the represented values, so +0 = −0 (00_scope.md R12); false when either is NaN. -/
def eq (x y : Binary64) : Bool :=
  match key x, key y with
  | some a, some b => decide (a = b)
  | _, _ => false

/-- Neither infinite nor NaN. -/
def isFinite : Binary64 → Bool
  | .fin _ _ => true
  | _ => false

/-- Finite and in [0, 1]: the admitted range of a volume and of a duty (42_channel_mixer.md R178, R179;
40_oscillators.md R132). −0 is admitted. -/
def inUnit (x : Binary64) : Bool := x.isFinite && le zero x && le x one

end Binary64
end Sys2Proof
end

