-- ==== Sys2Proof/Config.lean ====
section
/-!
DEFINITION. Sys2Proof/Config.lean: what the spec fixes as a parameter (00_scope.md R9) and what it leaves OPEN (R10).
The fixed parameters are definitions. The open ones are the fields of `Config`; the hardware's own values are
`Config.hw`, an opaque constant: no proof can see them, and only the properties that R10 and R110 assume, and the range
of the free value of log 25, can be used.
-/

namespace Sys2Proof

/-- `WAVEFORM(c)` (00_scope.md R9, 10_state.md R22). -/
def Config.waveform : Chan → Waveform
  | .c0 => .square
  | .c1 => .square
  | .c2 => .saw
  | .c3 => .triangle
  | .c4 => .noise

/-- `SAMPLE_RATE` (R9), as the NUM that 40_oscillators.md R103 divides. -/
def Config.sampleRate : Binary64 := Binary64.ofNat 16000

/-- `MAX_FREQ` (R9): 16000. -/
def Config.maxFreq : Binary64 := Config.sampleRate

/-- The largest phase length a frequency operand may give (40_oscillators.md R103): 2^52. -/
def Config.maxLen : Binary64 := Binary64.ofNat (2 ^ 52)

/-- `CELL_VOLUME_DIV` (R9): 63. -/
def Config.cellVolumeDiv : Binary64 := Binary64.ofNat 63

/-- `SONG_VOLUME_DIV` (R9): 255. -/
def Config.songVolumeDiv : Binary64 := Binary64.ofNat 255

/-- `MAX_NOTE_OSC` (R9). -/
def Config.maxNoteOsc : Nat := 77

/-- `INSTR_SLOTS` (R9). -/
def Config.instrSlots : Nat := 16

/-- `LFSR_SEED` (R9), 15 bits wide. -/
def Config.lfsrSeed : BitVec 15 := 1

/-- `ENV_COUNT_CLOCK` (R9, 41_envelope.md R142). -/
inductive CountClock where
  | tick | sample
deriving DecidableEq, Repr

/-- The values of `WIRE_BYTE_ORDER` (R9, 20_memory.md R56). DESIGN CHOICE: R9 writes "none" and names no values;
that they are exactly these two is the model's choice (log 23). Nothing reads them. -/
inductive ByteOrder where
  | little | big
deriving DecidableEq, Repr

/-- 0 ≤ x < 1. -/
def Binary64.inPhase (x : Binary64) : Bool := Binary64.le .zero x && Binary64.lt x .one

/-- The magnitude fields of 55 · 2^(j/12), j = 0..11, each rounded to nearest (40_oscillators.md R102). -/
def Config.octave : List Nat :=
  [4632937379169042432, 4633397656929290402, 4633885304229427482, 4634302982555613526,
   4634576665349295727, 4634866622168763169, 4635173820717946724, 4635499286243447419,
   4635844104956201660, 4636209427656609257, 4636596473575222783, 4637006534441816206]

/-- 55 · 2^(n/12) rounded to nearest: the value the tests use. `Config.hw` need not agree with it except
where R10 says so. -/
def Config.noteFreqRounded (n : Nat) : Binary64 :=
  .pack false (Config.octave.getD (n % 12) 0 + n / 12 * 2 ^ 52)

theorem Config.noteFreqRounded_range (n : Nat) (h : n ≤ Config.maxNoteOsc) :
    Binary64.lt .zero (Config.noteFreqRounded n) = true ∧
      Binary64.le (Config.noteFreqRounded n) Config.maxFreq = true := by
  have all : ∀ m : Fin 78, Binary64.lt .zero (Config.noteFreqRounded m) = true ∧
      Binary64.le (Config.noteFreqRounded m) Config.maxFreq = true := by decide +kernel
  exact all ⟨n, by unfold Config.maxNoteOsc at h; omega⟩

theorem Config.noteFreqRounded_octave (k : Nat) (h : 12 * k ≤ Config.maxNoteOsc) :
    Config.noteFreqRounded (12 * k) = Binary64.ofNat (55 * 2 ^ k) := by
  have all : ∀ m : Fin 7, Config.noteFreqRounded (12 * m) = Binary64.ofNat (55 * 2 ^ m.val) := by
    decide +kernel
  exact all ⟨k, by unfold Config.maxNoteOsc at h; omega⟩

/-- A duty that a phase in [0, 1) reaches is itself in [0, 1). -/
theorem Binary64.inPhase_of_le {p d : Binary64} (hp : p.inPhase = true) (hd : d.inUnit = true)
    (h : Binary64.le d p = true) : d.inPhase = true := by
  simp only [Binary64.inPhase, Binary64.inUnit, Binary64.le, Binary64.lt, Bool.and_eq_true] at *
  rcases hkp : Binary64.key p with _ | a <;> rcases hkd : Binary64.key d with _ | b <;>
    simp_all [Binary64.key, Binary64.zero, Binary64.one]
  omega

/-- The parameters the spec leaves OPEN, with what it assumes of them (00_scope.md R9, R10; 40_oscillators.md
R110; 20_memory.md R52). The default values of the fields serve the tests and show that the assumptions can be
met. -/
structure Config where
  /-- `NOTE_FREQ` (R10). -/
  noteFreq : Nat → Binary64 := Config.noteFreqRounded
  /-- R10: for every n ≤ MAX_NOTE_OSC, NOTE_FREQ(n) is finite and in (0, MAX_FREQ]. -/
  noteFreq_range : ∀ n, n ≤ Config.maxNoteOsc →
    Binary64.lt .zero (noteFreq n) = true ∧ Binary64.le (noteFreq n) Config.maxFreq = true := by
      exact Config.noteFreqRounded_range
  /-- R10: NOTE_FREQ(12k) = 55 · 2^k exactly. -/
  noteFreq_octave : ∀ k, 12 * k ≤ Config.maxNoteOsc → noteFreq (12 * k) = Binary64.ofNat (55 * 2 ^ k) := by
    exact Config.noteFreqRounded_octave
  /-- The free value of log 25: the phase length after `noteSet(n)` where 16000 ⊘ NOTE_FREQ(n) is infinite, which
  R10 does not exclude. -/
  noteLenFree : Nat → Binary64 := fun _ => .one
  /-- 10_state.md R23: a phase length is finite and at least 1. -/
  noteLenFree_range : ∀ n, (noteLenFree n).isFinite = true ∧ Binary64.le .one (noteLenFree n) = true := by
    intro n; decide
  /-- `SINE_OUT` (R10, R107); no channel is bound to a sine oscillator (R22). -/
  sineOut : Binary64 → Binary64 := fun _ => .zero
  /-- R10: SINE_OUT(0) = 0. -/
  sineOut_zero : Binary64.eq (sineOut .zero) .zero = true := by decide
  /-- R10: |SINE_OUT(p)| ≤ 1. -/
  sineOut_bound : ∀ p, Binary64.le (sineOut p).abs .one = true := by intro p; decide
  /-- `ENV_COUNT_CLOCK` (R142). -/
  envCountClock : CountClock := .tick
  /-- The duty window of `DUTY_PHASE_POLICY` (R109, R110): whether the window of duty d holds the phase q. The
  default is the spec's, the +1 region {q : q ≥ d}. -/
  dutyWindow : Binary64 → Binary64 → Bool := fun d q => Binary64.le d q
  /-- The "new boundary" of `DUTY_PHASE_POLICY` (R110): a function of the new duty. The default is the spec's. -/
  dutyBoundary : Binary64 → Binary64 := fun d => d
  /-- R110: a boundary the policy returns is a NUM in [0, 1), for a phase in [0, 1) and duties in [0, 1]
  (log 15). -/
  dutyBoundary_inPhase : ∀ p dOld dNew, p.inPhase = true → dOld.inUnit = true → dNew.inUnit = true →
    dutyWindow dOld p = true → dutyWindow dNew p = true → (dutyBoundary dNew).inPhase = true := by
      exact fun _ _ _ hp _ hd _ h => Binary64.inPhase_of_le hp hd h
  /-- `MAX_NODES` (R52). -/
  maxNodes : Nat := 16
  /-- R9: MAX_NODES is positive. -/
  maxNodes_pos : 0 < maxNodes := by decide
  /-- `WIRE_BYTE_ORDER` (20_memory.md R56). -/
  wireByteOrder : ByteOrder := .little
deriving Inhabited

/-- The hardware's own parameter values: uninterpreted (log 14). -/
opaque Config.hw : Config

/-- The spec's defaults (R9): the configuration the test vectors of 95_test_vectors.md assume. -/
def Config.spec : Config := {}

end Sys2Proof
end

