-- ==== Sys2Proof/Syntax.lean ====
section
/-!
DEFINITION. Sys2Proof/Syntax.lean: the instructions, one constructor per row of spec/opcode_table.json, and the
packets in which the host delivers them (30_encoding.md R70, R77, R83; 20_memory.md R53).
-/

namespace Sys2Proof

/-- An instrument record (20_memory.md R51): `vol` and `dur` are DOC00's `envelopeVolume[]` and
`envelopeDuration[]`. -/
structure Instrument where
  sustain : Nat
  loopStart : Nat
  loopEnd : Nat
  vol : List Binary64
  dur : List Nat
deriving DecidableEq, Repr

/-- The node count N of a record (20_memory.md R51). -/
def Instrument.nodes (ins : Instrument) : Nat := ins.vol.length

/-- The refusal reasons (60_exceptions.md R242). A refusal is a state transition (R243), not one of the
model's stops. -/
inductive RefuseReason where
  | reservedOp
  | reservedBit
  | badChannel
  | wrongOscillator
  | badOperand
  | instrInvalid
  | instrInUse
deriving DecidableEq, Repr

/-- The four optional fields of a cell word (30_encoding.md R76, R78). -/
structure CellFields where
  note : Option (BitVec 6)
  inst : Option (BitVec 4)
  vol : Option (BitVec 6)
  eff : Option (BitVec 12)
deriving DecidableEq, Repr

/-- One action of a cell (30_encoding.md R82). -/
inductive CellAction where
  | volume (v : BitVec 6)
  | noteStop
  | noteOn (n : BitVec 6) (k : BitVec 4)
  | effect (e : BitVec 12)
deriving DecidableEq, Repr

/-- What an effect code asks for (30_encoding.md R83 to R86). Loop is two entries, as in the opcode table:
arg2 = 0 sets the loop point, arg2 > 0 repeats. Arguments the kind gives no role stay in the term. -/
inductive EffectOp where
  | arpeggio (a b : BitVec 4)
  | loopSet (a : BitVec 4)
  | loopRepeat (a b : BitVec 4)
  | patternJump (p : BitVec 8)
  | rowJump (p : BitVec 8)
  | retrigger (a b : BitVec 4)
  | delay (a b : BitVec 4)
  | songVolume (v : BitVec 8)
  | songBps (v : BitVec 8)
  | songTpb (a b : BitVec 4)
  | reserved (kind : BitVec 4) (a b : BitVec 4)
deriving DecidableEq, Repr

/-- The block's instructions. Operands that are binary64 words stay as their 64 bits; the meaning reads
them as values (30_encoding.md R75). -/
inductive Instr where
  -- commands of the command port (30_encoding.md R71)
  | sample
  | tick (t : BitVec 32)
  | cell (c : Chan) (w : BitVec 32) (r : BitVec 32)
  | notePlay (c : Chan) (n : BitVec 6) (k : BitVec 4)
  | noteEnd (c : Chan)
  | volumeSet (c : Chan) (v : BitVec 64)
  | effect (c : Chan) (e : BitVec 12) (r : BitVec 32)
  | channelReset (c : Chan)
  | songVolumeSet (v : BitVec 64)
  | oscNoteSet (c : Chan) (n : BitVec 7)
  | oscSetFrequency (c : Chan) (f : BitVec 64)
  | oscSetDuty (c : Chan) (d : BitVec 64)
  -- op 0xC..0xF: `op` is the low two bits of the operation code (R74)
  | reservedCmd (op : BitVec 2) (ch : BitVec 3)
  -- the memory port (20_memory.md R53)
  | instrLoad (table : List Instrument)
  -- the actions of a cell word (R82), on the channel that CELL names
  | cellEmpty (c : Chan)
  | cellVolume (c : Chan) (v : BitVec 6)
  | cellNoteStop (c : Chan)
  | cellNoteOn (c : Chan) (n : BitVec 6) (k : BitVec 4)
  | cellEffect (c : Chan) (e : BitVec 12) (r : BitVec 32)
  -- the effect kinds (R85), on the channel (and row) that EFFECT or CELL names
  | fxArpeggio (c : Chan) (a b : BitVec 4)
  | fxLoopSet (c : Chan) (a : BitVec 4) (r : BitVec 32)
  | fxLoopRepeat (c : Chan) (a b : BitVec 4)
  | fxPatternJump (c : Chan) (p : BitVec 8)
  | fxRowJump (c : Chan) (p : BitVec 8)
  | fxRetrigger (c : Chan) (a b : BitVec 4)
  | fxDelay (c : Chan) (a b : BitVec 4)
  | fxSongVolume (c : Chan) (v : BitVec 8)
  | fxSongBps (c : Chan) (v : BitVec 8)
  | fxSongTpb (c : Chan) (a b : BitVec 4)
  | fxReserved9 (c : Chan) (a b : BitVec 4)
  | fxReserved10 (c : Chan) (a b : BitVec 4)
  | fxReserved11 (c : Chan) (a b : BitVec 4)
  | fxReserved12 (c : Chan) (a b : BitVec 4)
  | fxReserved13 (c : Chan) (a b : BitVec 4)
  | fxReserved14 (c : Chan) (a b : BitVec 4)
  | fxReserved15 (c : Chan) (a b : BitVec 4)
deriving DecidableEq, Repr

/-- What the host delivers in one go. `command` is the command port's (header, data) pair
(30_encoding.md R70), `memoryPort` an INSTR_LOAD (20_memory.md R53). `cellWord` and `effectCode` are a bare
cell word and a bare effect code, with the channel and the current row that CELL and EFFECT would give them
(log 4). -/
inductive Packet where
  | command (header : BitVec 8) (data : BitVec 64)
  | memoryPort (table : List Instrument)
  | cellWord (w : BitVec 32) (ch : BitVec 3) (r : BitVec 32)
  | effectCode (e : BitVec 12) (ch : BitVec 3) (r : BitVec 32)
deriving DecidableEq, Repr

end Sys2Proof
end

