-- ==== Sys2Proof/WellFormed.lean ====
section
/-!
DEFINITION. Sys2Proof/WellFormed.lean: which terms of `Instr` stand for an instruction of the spec. The terms left
out are the ones no word decodes to.
-/

namespace Sys2Proof

/-- An instruction some packet encodes: the oscillator commands name a channel that has the operation
(30_encoding.md R72), a cell note-on is not the stop sentinel (R81), a cell effect and its row stand as they
are, a loop repeat has arg2 > 0 (43_cell_effects.md R209). Every instrument table can be issued: its
admission is INSTR_LOAD's own check (20_memory.md R53, 30_encoding.md R89). -/
def Instr.wellFormed : Instr → Bool
  | .oscSetFrequency c _ => decide (Config.waveform c ≠ .noise)
  | .oscSetDuty c _ => decide (Config.waveform c = .square)
  | .cellNoteOn _ n _ => decide (n ≠ 63)
  | .fxLoopRepeat _ _ b => decide (b ≠ 0)
  | .instrLoad _ | .sample | .tick _ | .cell _ _ _ | .notePlay _ _ _ | .noteEnd _ | .volumeSet _ _ | .effect _ _ _
  | .channelReset _ | .songVolumeSet _ | .oscNoteSet _ _ | .reservedCmd _ _ | .cellEmpty _
  | .cellVolume _ _ | .cellNoteStop _ | .cellEffect _ _ _ | .fxArpeggio _ _ _ | .fxLoopSet _ _ _
  | .fxPatternJump _ _ | .fxRowJump _ _ | .fxRetrigger _ _ _ | .fxDelay _ _ _ | .fxSongVolume _ _
  | .fxSongBps _ _ | .fxSongTpb _ _ _ | .fxReserved9 _ _ _ | .fxReserved10 _ _ _ | .fxReserved11 _ _ _
  | .fxReserved12 _ _ _ | .fxReserved13 _ _ _ | .fxReserved14 _ _ _ | .fxReserved15 _ _ _ => true

end Sys2Proof
end

