-- ==== Sys2Proof/Decode.lean ====
section
/-!
DEFINITION. Sys2Proof/Decode.lean: the decoders of 30_encoding.md, total, each refusal by its reason (R89, R244), and
after them the encoders, written from the same tables.
-/

namespace Sys2Proof

/-- The `ch` field as a channel, if there is one of that number (R72). -/
def Chan.ofBits (b : BitVec 3) : Option Chan :=
  if b = 0 then some .c0 else if b = 1 then some .c1 else if b = 2 then some .c2
  else if b = 3 then some .c3 else if b = 4 then some .c4 else none

/-- A channel's number as a `ch` field (R70). -/
def Chan.toBits : Chan → BitVec 3
  | .c0 => 0
  | .c1 => 1
  | .c2 => 2
  | .c3 => 3
  | .c4 => 4

/-- A field that is there only when its presence flag is set (R78, R14). -/
def presentIf {n : Nat} (flag : Bool) (v : BitVec n) : Option (BitVec n) := if flag then some v else none

/-- decode(w) of a cell word (R77, R78). Payload bits under a clear flag are ignored. -/
def decodeCell (w : BitVec 32) : CellFields where
  note := presentIf (w.getLsbD 31) (w.extractLsb' 22 6)
  inst := presentIf (w.getLsbD 30) (w.extractLsb' 18 4)
  vol := presentIf (w.getLsbD 29) (w.extractLsb' 12 6)
  eff := presentIf (w.getLsbD 28) (w.extractLsb' 0 12)

/-- The decode of a 12-bit effect code (R83 to R86). Every code decodes. -/
def decodeEffect (e : BitVec 12) : EffectOp :=
  let kind := e.extractLsb' 8 4
  let a := e.extractLsb' 4 4
  let b := e.extractLsb' 0 4
  -- byteOp = (arg1 << 4) | arg2 (R84)
  let byteOp := (a.setWidth 8 <<< 4) ||| b.setWidth 8
  if kind = 0 then .arpeggio a b
  else if kind = 1 then (if b = 0 then .loopSet a else .loopRepeat a b)
  else if kind = 2 then .patternJump byteOp
  else if kind = 3 then .rowJump byteOp
  else if kind = 4 then .retrigger a b
  else if kind = 5 then .delay a b
  else if kind = 6 then .songVolume byteOp
  else if kind = 7 then .songBps byteOp
  else if kind = 8 then .songTpb a b
  else .reserved kind a b

/-- The command of a header's op field on channel `c` (R71, R75), for the ops that name a channel.
WrongOscillator is refused here (R72). -/
def decodeChannelOp (op : BitVec 4) (c : Chan) (data : BitVec 64) : Except RefuseReason Instr :=
  if op = 0x2 then .ok (.cell c (data.extractLsb' 0 32) (data.extractLsb' 32 32))
  else if op = 0x3 then .ok (.notePlay c (data.extractLsb' 0 6) (data.extractLsb' 8 4))
  else if op = 0x4 then .ok (.noteEnd c)
  else if op = 0x5 then .ok (.volumeSet c data)
  else if op = 0x6 then .ok (.effect c (data.extractLsb' 0 12) (data.extractLsb' 32 32))
  else if op = 0x7 then .ok (.channelReset c)
  else if op = 0x9 then .ok (.oscNoteSet c (data.extractLsb' 0 7))
  else if op = 0xA then
    (if Config.waveform c = .noise then .error .wrongOscillator else .ok (.oscSetFrequency c data))
  else (if Config.waveform c = .square then .ok (.oscSetDuty c data) else .error .wrongOscillator)

/-- A command (R70 to R75), with the refusals of R72 to R74 in the order of R244. The reserved operation
codes decode to their own row, whose meaning is the refusal (R74). Data bits that no operand names are
ignored (R73). -/
def decodeCommand (header : BitVec 8) (data : BitVec 64) : Except RefuseReason Instr :=
  let op := header.extractLsb' 4 4
  let ch := header.extractLsb' 0 3
  if header.getLsbD 3 then .error .reservedBit
  else if 0xC ≤ op.toNat then .ok (.reservedCmd (op.extractLsb' 0 2) ch)
  else if op = 0x0 then (if ch = 0 then .ok .sample else .error .badChannel)
  else if op = 0x1 then (if ch = 0 then .ok (.tick (data.extractLsb' 0 32)) else .error .badChannel)
  else if op = 0x8 then (if ch = 0 then .ok (.songVolumeSet data) else .error .badChannel)
  else match Chan.ofBits ch with
    | none => .error .badChannel
    | some c => decodeChannelOp op c data

/-- The note action a cell's note and instrument fields select (R81, R82): none for a note without an
instrument and for an instrument alone. Whether the instrument resolves is the machine's question. -/
def noteActions : Option (BitVec 6) → Option (BitVec 4) → List CellAction
  | none, _ => []
  | some n, inst =>
    if n = 63 then [.noteStop]
    else match inst with
      | none => []
      | some k => [.noteOn n k]

/-- The actions a cell selects, in the order CELL performs them (R82): volume, note, effect. -/
def cellActions (f : CellFields) : List CellAction :=
  (f.vol.map CellAction.volume).toList ++ noteActions f.note f.inst ++ (f.eff.map CellAction.effect).toList

/-- A bare cell word on channel `c`, the current row being `r` (log 4, 6): the table's row for it where it
selects exactly one action or has no flag set, and otherwise the CELL command, which performs all the actions
it selects. -/
def decodeCellWord (w : BitVec 32) (c : Chan) (r : BitVec 32) : Instr :=
  match cellActions (decodeCell w) with
  | [] => if w.extractLsb' 28 4 = 0 then .cellEmpty c else .cell c w r
  | [.volume v] => .cellVolume c v
  | [.noteStop] => .cellNoteStop c
  | [.noteOn n k] => .cellNoteOn c n k
  | [.effect e] => .cellEffect c e r
  | _ :: _ :: _ => .cell c w r

/-- A bare effect code on channel `c`, the current row being `r` (log 4): the table's row for its kind. -/
def decodeEffectCode (e : BitVec 12) (c : Chan) (r : BitVec 32) : Instr :=
  match decodeEffect e with
  | .arpeggio a b => .fxArpeggio c a b
  | .loopSet a => .fxLoopSet c a r
  | .loopRepeat a b => .fxLoopRepeat c a b
  | .patternJump p => .fxPatternJump c p
  | .rowJump p => .fxRowJump c p
  | .retrigger a b => .fxRetrigger c a b
  | .delay a b => .fxDelay c a b
  | .songVolume v => .fxSongVolume c v
  | .songBps v => .fxSongBps c v
  | .songTpb a b => .fxSongTpb c a b
  | .reserved kind a b =>
    if kind = 9 then .fxReserved9 c a b
    else if kind = 10 then .fxReserved10 c a b
    else if kind = 11 then .fxReserved11 c a b
    else if kind = 12 then .fxReserved12 c a b
    else if kind = 13 then .fxReserved13 c a b
    else if kind = 14 then .fxReserved14 c a b
    else .fxReserved15 c a b

/-- What the block reads from one delivery of the host. -/
def decode : Packet → Except RefuseReason Instr
  | .command header data => decodeCommand header data
  | .memoryPort table => .ok (.instrLoad table)
  | .cellWord w ch r =>
    match Chan.ofBits ch with
    | none => .error .badChannel
    | some c => .ok (decodeCellWord w c r)
  | .effectCode e ch r =>
    match Chan.ofBits ch with
    | none => .error .badChannel
    | some c => .ok (decodeEffectCode e c r)

/-- The packet a table row's bits stand for (log 5). 32 bits are a bare cell word and 12 or 16 bits a bare
effect code, each on channel 0 at row 0. Any other length is a command: the header is the first byte and the
data the bits above it. -/
def Packet.ofTableWord (nbits w : Nat) : Packet :=
  if nbits = 32 then .cellWord (BitVec.ofNat 32 w) 0 0
  else if nbits = 12 ∨ nbits = 16 then .effectCode (BitVec.ofNat 12 w) 0 0
  else .command (BitVec.ofNat 8 w) (BitVec.ofNat 64 (w / 2 ^ 8))

/-- The instruction the decoder reads from a table row's bits. -/
def decodeTableWord (nbits w : Nat) : Option Instr :=
  match decode (Packet.ofTableWord nbits w) with
  | .ok i => some i
  | .error _ => none

/-- The word of a present field with its flag, 0 for an absent one (R79). -/
def cellPart {n : Nat} (flag place : Nat) : Option (BitVec n) → BitVec 32
  | none => 0
  | some v => (1#32 <<< flag) ||| (v.setWidth 32 <<< place)

/-- encode(note?, inst?, vol?, eff?) (R79). -/
def encodeCell (f : CellFields) : BitVec 32 :=
  cellPart 31 22 f.note ||| cellPart 30 18 f.inst ||| cellPart 29 12 f.vol ||| cellPart 28 0 f.eff

/-- A kind and a byte operand as an effect code (R83, R84). -/
def effectWord (kind : BitVec 4) (byteOp : BitVec 8) : BitVec 12 := kind ++ byteOp

/-- The effect code of an effect (R83 to R85). -/
def encodeEffect : EffectOp → BitVec 12
  | .arpeggio a b => effectWord 0 (a ++ b)
  | .loopSet a => effectWord 1 (a ++ 0#4)
  | .loopRepeat a b => effectWord 1 (a ++ b)
  | .patternJump p => effectWord 2 p
  | .rowJump p => effectWord 3 p
  | .retrigger a b => effectWord 4 (a ++ b)
  | .delay a b => effectWord 5 (a ++ b)
  | .songVolume v => effectWord 6 v
  | .songBps v => effectWord 7 v
  | .songTpb a b => effectWord 8 (a ++ b)
  | .reserved kind a b => effectWord kind (a ++ b)

/-- header = (op << 4) | ch (R70, R87). -/
def header (op : BitVec 4) (ch : BitVec 3) : BitVec 8 := op ++ 0#1 ++ ch

/-- A 32-bit row above a 32-bit operand (R75: CELL and EFFECT). -/
def rowAbove (r w : BitVec 32) : BitVec 64 := r ++ w

/-- The packet of a bare effect on channel `c` at row `r`. -/
def effectPacket (c : Chan) (op : EffectOp) (r : BitVec 32) : Packet :=
  .effectCode (encodeEffect op) c.toBits r

/-- The packet of a bare cell word with the given fields. -/
def cellPacket (c : Chan) (f : CellFields) (r : BitVec 32) : Packet := .cellWord (encodeCell f) c.toBits r

/-- The packet of an instruction (R70, R75, R77, R83); bits no field names are 0. -/
def encode : Instr → Packet
  | .sample => .command (header 0x0 0) 0
  | .tick t => .command (header 0x1 0) (t.setWidth 64)
  | .cell c w r => .command (header 0x2 c.toBits) (rowAbove r w)
  | .notePlay c n k => .command (header 0x3 c.toBits) (n.setWidth 64 ||| (k.setWidth 64 <<< 8))
  | .noteEnd c => .command (header 0x4 c.toBits) 0
  | .volumeSet c v => .command (header 0x5 c.toBits) v
  | .effect c e r => .command (header 0x6 c.toBits) (rowAbove r (e.setWidth 32))
  | .channelReset c => .command (header 0x7 c.toBits) 0
  | .songVolumeSet v => .command (header 0x8 0) v
  | .oscNoteSet c n => .command (header 0x9 c.toBits) (n.setWidth 64)
  | .oscSetFrequency c f => .command (header 0xA c.toBits) f
  | .oscSetDuty c d => .command (header 0xB c.toBits) d
  | .reservedCmd op ch => .command (header (3#2 ++ op) ch) 0
  | .instrLoad table => .memoryPort table
  | .cellEmpty c => cellPacket c ⟨none, none, none, none⟩ 0
  | .cellVolume c v => cellPacket c ⟨none, none, some v, none⟩ 0
  | .cellNoteStop c => cellPacket c ⟨some 63, none, none, none⟩ 0
  | .cellNoteOn c n k => cellPacket c ⟨some n, some k, none, none⟩ 0
  | .cellEffect c e r => cellPacket c ⟨none, none, none, some e⟩ r
  | .fxArpeggio c a b => effectPacket c (.arpeggio a b) 0
  | .fxLoopSet c a r => effectPacket c (.loopSet a) r
  | .fxLoopRepeat c a b => effectPacket c (.loopRepeat a b) 0
  | .fxPatternJump c p => effectPacket c (.patternJump p) 0
  | .fxRowJump c p => effectPacket c (.rowJump p) 0
  | .fxRetrigger c a b => effectPacket c (.retrigger a b) 0
  | .fxDelay c a b => effectPacket c (.delay a b) 0
  | .fxSongVolume c v => effectPacket c (.songVolume v) 0
  | .fxSongBps c v => effectPacket c (.songBps v) 0
  | .fxSongTpb c a b => effectPacket c (.songTpb a b) 0
  | .fxReserved9 c a b => effectPacket c (.reserved 9 a b) 0
  | .fxReserved10 c a b => effectPacket c (.reserved 10 a b) 0
  | .fxReserved11 c a b => effectPacket c (.reserved 11 a b) 0
  | .fxReserved12 c a b => effectPacket c (.reserved 12 a b) 0
  | .fxReserved13 c a b => effectPacket c (.reserved 13 a b) 0
  | .fxReserved14 c a b => effectPacket c (.reserved 14 a b) 0
  | .fxReserved15 c a b => effectPacket c (.reserved 15 a b) 0

end Sys2Proof
end

