-- ==== Sys2Proof/Machine/State.lean ====
section
/-!
DEFINITION. Sys2Proof/Machine/State.lean: the block's state (10_state.md, 20_memory.md R50), the model's two fields
for the host's side (ports and inbox), the stops, and the state after power-on (70_reset_and_hazards.md R260 to
R262).
-/

namespace Sys2Proof.Machine

/-- The registers of a phase accumulator (10_state.md R23): `off` is the phase offset and `len` the phase
length, both in samples. -/
structure PhaseAcc where
  off : Binary64
  len : Binary64
deriving DecidableEq, Repr

/-- The waveform a phase accumulator feeds; Square also holds `duty` (10_state.md R22, R24). -/
inductive Shape where
  | square (duty : Binary64)
  | saw
  | sine
  | triangle
deriving DecidableEq, Repr

/-- The registers of the noise oscillator (10_state.md R25). -/
structure NoiseGen where
  lfsr : BitVec 15
  per : Nat
  cnt : Nat
deriving DecidableEq, Repr

/-- An oscillator. Noise shares nothing with the phase accumulators (10_state.md R25). -/
inductive Osc where
  | phase (shape : Shape) (acc : PhaseAcc)
  | noise (gen : NoiseGen)
deriving DecidableEq, Repr

/-- The remaining hold duration: an integer or the value ∞ (10_state.md R27). -/
inductive Dur where
  | count (n : Int)
  | infinite
deriving DecidableEq, Repr

/-- An EnvelopeNote (10_state.md R27). -/
structure EnvelopeNote where
  inst : BitVec 4
  idx : Nat
  dur : Dur
  vol : Binary64
  goal : Binary64
  start : Binary64
  live : Bool
deriving DecidableEq, Repr

/-- The per-tick effect slot (10_state.md R31). -/
inductive FxSlot where
  | none
  | arpeggio (a b : BitVec 4)
  | retrigger (a b : BitVec 4)
  | delay (a b : BitVec 4)
deriving DecidableEq, Repr

/-- A loop bookmark (10_state.md R32). -/
structure Bookmark where
  row : BitVec 32
  count : Nat
deriving DecidableEq, Repr

/-- One channel (10_state.md R20): its oscillator, EnvelopeNote, volume, effect slot, bookmark and base note
(R33, 0..62). -/
structure Channel where
  osc : Osc
  env : Option EnvelopeNote
  cvol : Binary64
  fx : FxSlot
  bookmark : Option Bookmark
  baseNote : Option (Fin 63)
deriving DecidableEq, Repr

/-- The five channels (10_state.md R20). -/
structure Channels where
  ch0 : Channel
  ch1 : Channel
  ch2 : Channel
  ch3 : Channel
  ch4 : Channel
deriving DecidableEq, Repr

/-- The sequencer request of a CELL or EFFECT (10_state.md R37). -/
inductive Request where
  | none
  | loopJump (row : BitVec 32)
  | patternJump (p : BitVec 8)
  | rowJump (r : BitVec 8)
  | setBps (v : BitVec 8)
  | setTpb (v : BitVec 4)
deriving DecidableEq, Repr

/-- What the last executed command drove on the ports (10_state.md R37) and the reason it reported if it was
refused (60_exceptions.md R244). `none` means not driven. (log 2) -/
structure Ports where
  out : Option Binary64
  req : Option Request
  jumped : Option Bool
  reason : Option RefuseReason
deriving DecidableEq, Repr

/-- The instrument memory: the loaded records, slot k holding `mem[k]` when k < ninst and empty otherwise
(20_memory.md R50, log 9). -/
abbrev Memory := List Instrument

/-- The block's state. `inbox` is what the host has issued and the block has not yet taken (log 1). -/
structure State where
  chans : Channels
  songVol : Binary64
  refused : Bool
  mem : Memory
  ports : Ports
  inbox : List Packet
deriving DecidableEq, Repr

/-- Why a run stops. The hardware has no such stop (93_implementation_defined.md); each is a read that
20_memory.md R54 says is never made, and no state that meets `State.Inv` reaches one. (log 10) -/
inductive Fault where
  /-- Raised by the envelope operations for an EnvelopeNote or a note-on whose instrument does not resolve.
  Safe: the model stops where the spec gives no value. -/
  | instrumentAbsent (k : BitVec 4)
  /-- Raised by the envelope operations for a node index that is not below the record's node count. Safe, as
  above. -/
  | nodeAbsent (k : BitVec 4) (i : Nat)
deriving DecidableEq, Repr

/-- Why an instruction has no meaning in the model. The spec's own refusals are not among these: they are
transitions (60_exceptions.md R243, log 3). -/
inductive Refusal where
  /-- Raised by exec for an instruction that has no meaning yet. Safe: the run ends. No arm raises it. -/
  | notModelled (mnemonic : String)
deriving DecidableEq, Repr

/-- A phase accumulator at power-on (R262). -/
def PhaseAcc.reset : PhaseAcc := ⟨.zero, .one⟩

/-- A channel at power-on with its oscillator (R262). -/
def Channel.reset (osc : Osc) : Channel := ⟨osc, none, .one, .none, none, none⟩

/-- The five channels at power-on (R262, `WAVEFORM` of R22). -/
def Channels.reset : Channels where
  ch0 := Channel.reset (.phase (.square .half) PhaseAcc.reset)
  ch1 := Channel.reset (.phase (.square .half) PhaseAcc.reset)
  ch2 := Channel.reset (.phase .saw PhaseAcc.reset)
  ch3 := Channel.reset (.phase .triangle PhaseAcc.reset)
  ch4 := Channel.reset (.noise ⟨Config.lfsrSeed, 1, 0⟩)

/-- No port driven. -/
def Ports.idle : Ports := ⟨none, none, none, none⟩

/-- The power-on state (R260 to R262). No command is in progress and none is waiting. -/
def State.reset : State where
  chans := Channels.reset
  songVol := .one
  refused := false
  mem := []
  ports := Ports.idle
  inbox := []

end Sys2Proof.Machine
end

