-- ==== Sys2Proof/Machine/Operands.lean ====
section
/-!
DEFINITION. Sys2Proof/Machine/Operands.lean: the operand checks of the direct commands and the numbers made from
integer operands.
-/

namespace Sys2Proof.Machine

/-- Whether a frequency operand is admitted (40_oscillators.md R131): finite, 0 < f ≤ MAX_FREQ and
16000 ⊘ f ≤ 2^52. -/
def freqAdmitted (f : Binary64) : Bool :=
  f.isFinite && Binary64.lt .zero f && Binary64.le f Config.maxFreq &&
    Binary64.le (Binary64.div Config.sampleRate f) Config.maxLen

/-- v ⊘ CELL_VOLUME_DIV (43_cell_effects.md R204). -/
def cellVolume (v : BitVec 6) : Binary64 := Binary64.div (Binary64.ofNat v.toNat) Config.cellVolumeDiv

/-- byteOp ⊘ SONG_VOLUME_DIV (43_cell_effects.md R214). -/
def effectSongVolume (v : BitVec 8) : Binary64 := Binary64.div (Binary64.ofNat v.toNat) Config.songVolumeDiv

/-- max(1, dur) as a NUM (00_scope.md R15); the value ∞ is the infinity (log 13). -/
def Dur.divisor : Dur → Binary64
  | .count n => Binary64.ofNat (max 1 n).toNat
  | .infinite => .inf false

/-- The offset an Arpeggio adds on tick t (42_channel_mixer.md R188): [0, a, b][t mod 3]. -/
def arpeggioOffset (a b : BitVec 4) (t : BitVec 32) : Nat :=
  if t.toNat % 3 = 0 then 0 else if t.toNat % 3 = 1 then a.toNat else b.toNat

/-- Whether a record is admitted to the instrument memory (20_memory.md R51, R52): equal-length sequences of
finite volumes and natural durations, loopStart ≤ loopEnd < N, sustain < N, N ≤ MAX_NODES. -/
def instrumentValid (cfg : Config) (ins : Instrument) : Bool :=
  decide (ins.dur.length = ins.vol.length) && ins.vol.all Binary64.isFinite &&
    decide (ins.loopStart ≤ ins.loopEnd) && decide (ins.loopEnd < ins.nodes) &&
    decide (ins.sustain < ins.nodes) && decide (ins.nodes ≤ cfg.maxNodes)

/-- The canonical form of the instrument memory (20_memory.md R50, R52): at most 16 slots in use, each
holding an admitted record. -/
def Memory.wf (cfg : Config) (m : Memory) : Bool :=
  decide (m.length ≤ Config.instrSlots) && m.all (instrumentValid cfg)

end Sys2Proof.Machine
end

