-- ==== Sys2Proof/Machine/Flags.lean ====
section
/-!
DEFINITION. Sys2Proof/Machine/Flags.lean: the flag-like values of 10_state.md R36, each computed here once.
-/

namespace Sys2Proof.Machine

/-- `pastEnd(E)`: node index ≥ node count (10_state.md R28). -/
def pastEnd (ins : Instrument) (e : EnvelopeNote) : Bool := decide (ins.nodes ≤ e.idx)

/-- `holding(E)`: keyed and at the sustain node (10_state.md R28). -/
def holding (ins : Instrument) (e : EnvelopeNote) : Bool := e.live && decide (e.idx = ins.sustain)

/-- `jumped`: the request relocates the row cursor (10_state.md R37, 43_cell_effects.md R218). -/
def Request.isJump : Request → Bool
  | .loopJump _ | .patternJump _ | .rowJump _ => true
  | .none | .setBps _ | .setTpb _ => false

/-- k *resolves* when k < ninst (20_memory.md R50). -/
def resolves (m : Memory) (k : BitVec 4) : Bool := decide (k.toNat < m.length)

end Sys2Proof.Machine
end

