-- ==== Sys2Proof/Machine/Ops.lean ====
section
/-!
DEFINITION. Sys2Proof/Machine/Ops.lean: the named operations over the channels, the instrument memory and the ports,
and the internal operations of 40_oscillators.md, 41_envelope.md, 42_channel_mixer.md and 43_cell_effects.md that the
instructions share. `cfg` is the configuration (the meanings use `Config.hw`). The block has no exception entry and
no return (60_exceptions.md R247, R248); its one abnormal outcome is `State.refuse`.
-/

namespace Sys2Proof.Machine

/-! ## Channels and ports -/

/-- Channel c's record. -/
def Channels.get (cs : Channels) : Chan → Channel
  | .c0 => cs.ch0
  | .c1 => cs.ch1
  | .c2 => cs.ch2
  | .c3 => cs.ch3
  | .c4 => cs.ch4

/-- Channel c's record replaced. -/
def Channels.set (cs : Channels) (c : Chan) (x : Channel) : Channels :=
  match c with
  | .c0 => { cs with ch0 := x }
  | .c1 => { cs with ch1 := x }
  | .c2 => { cs with ch2 := x }
  | .c3 => { cs with ch3 := x }
  | .c4 => { cs with ch4 := x }

/-- `ch[c]` (00_scope.md R13). -/
def State.chan (s : State) (c : Chan) : Channel := s.chans.get c

/-- `ch[c] <- x`. -/
def State.setChan (s : State) (c : Chan) (x : Channel) : State := { s with chans := s.chans.set c x }

/-- All five channels replaced. -/
def State.setChans (s : State) (cs : Channels) : State := { s with chans := cs }

/-- `songVol <- v`. -/
def State.setSongVol (s : State) (v : Binary64) : State := { s with songVol := v }

/-- The end of a command that drives no port. -/
def State.quiet (s : State) : State := { s with ports := Ports.idle }

/-- `out <- v` (00_scope.md R13). -/
def State.driveOut (s : State) (v : Binary64) : State := { s with ports := { Ports.idle with out := some v } }

/-- `req <- q` with its `jumped` (10_state.md R37). -/
def State.driveReq (s : State) (q : Request) : State :=
  { s with ports := { Ports.idle with req := some q, jumped := some q.isJump } }

/-- `refuse(reason)` (60_exceptions.md R243): the sticky mark is set, nothing else of the block changes, and no
`out` or `req` is driven. The reason is reported (R244). -/
def State.refuse (s : State) (reason : RefuseReason) : State :=
  { s with refused := true, ports := { Ports.idle with reason := some reason } }

/-- A computed next state, or the read that could not be made. -/
def finish : Except Fault State → Host.Outcome State Fault Refusal
  | .ok s => .next s
  | .error f => .fault f

/-! ## Instrument memory (20_memory.md R54) -/

/-- `Instr[k]`. -/
def Memory.record (m : Memory) (k : BitVec 4) : Except Fault Instrument :=
  match m[k.toNat]? with
  | some ins => .ok ins
  | none => .error (.instrumentAbsent k)

/-- `Instr[k].vol[i]`. -/
def Memory.nodeVol (ins : Instrument) (k : BitVec 4) (i : Nat) : Except Fault Binary64 :=
  match ins.vol[i]? with
  | some v => .ok v
  | none => .error (.nodeAbsent k i)

/-- `Instr[k].dur[i]`. -/
def Memory.nodeDur (ins : Instrument) (k : BitVec 4) (i : Nat) : Except Fault Dur :=
  match ins.dur[i]? with
  | some d => .ok (.count d)
  | none => .error (.nodeAbsent k i)

/-- INSTR_LOAD's write (20_memory.md R53): the whole memory is replaced. -/
def State.loadInstruments (s : State) (table : List Instrument) : State := { s with mem := table }

/-! ## Oscillators (40_oscillators.md) -/

/-- The normalised phase `off ⊘ len` (10_state.md R23). -/
def PhaseAcc.phase (a : PhaseAcc) : Binary64 := Binary64.div a.off a.len

/-- `x`, or 0 where it does not lie below `len`: the rounding guard of R103 and R109. -/
def wrapOff (x len : Binary64) : Binary64 := if Binary64.le len x then .zero else x

/-- The update of `setFrequency` (R103) to a given phase length: the normalised phase is kept. -/
def PhaseAcc.retune (a : PhaseAcc) (lenNew : Binary64) : PhaseAcc :=
  ⟨wrapOff (Binary64.mul a.phase lenNew) lenNew, lenNew⟩

/-- `setFrequency(f)` (R103): the phase length becomes 16000 ⊘ f and the normalised phase is kept, at f = 16000
too: R131's remark that every later sample is then WAVE(0) holds from off = 0 only (log 27). -/
def PhaseAcc.setFrequency (a : PhaseAcc) (f : Binary64) : PhaseAcc := a.retune (Binary64.div Config.sampleRate f)

/-- The phase length of note n: 16000 ⊘ NOTE_FREQ(n) (R101, R103), and a free value where that is infinite, since
10_state.md R23 makes the length finite (log 25). -/
def noteLength (cfg : Config) (n : Nat) : Binary64 :=
  let len := Binary64.div Config.sampleRate (cfg.noteFreq n)
  if len.isFinite then len else cfg.noteLenFree n

/-- The advance of `oscSample` (R104): by 1 modulo `len`, subtracting once. The guard keeps off < len
(10_state.md R23) at the one operand where the subtraction alone does not, len = 1 and off = 1 − 2^-53
(log 19). -/
def PhaseAcc.advance (a : PhaseAcc) : PhaseAcc :=
  let s := Binary64.add a.off .one
  { a with off := if Binary64.le a.len s then wrapOff (Binary64.sub s a.len) a.len else s }

/-- `WAVE(p)` (R105 to R108). -/
def Shape.wave (cfg : Config) (sh : Shape) (p : Binary64) : Binary64 :=
  match sh with
  | .square duty => if Binary64.le duty p then .one else Binary64.neg .one
  | .saw => Binary64.sub (Binary64.mul p .two) .one
  | .sine => cfg.sineOut p
  | .triangle => Binary64.sub (Binary64.abs (Binary64.sub (Binary64.mul p .four) .two)) .one

/-- `DUTY_PHASE_POLICY(p, dOld, dNew)` (R109, R110): the new boundary where the phase lies in the old and in the
new duty window, and 0 otherwise. -/
def dutyPhasePolicy (cfg : Config) (p dOld dNew : Binary64) : Binary64 :=
  if cfg.dutyWindow dOld p && cfg.dutyWindow dNew p then cfg.dutyBoundary dNew else .zero

/-- `setDuty(d)` (R109): the new phase is `DUTY_PHASE_POLICY`'s (R110). -/
def PhaseAcc.setDuty (cfg : Config) (a : PhaseAcc) (dOld dNew : Binary64) : PhaseAcc :=
  { a with off := wrapOff (Binary64.mul (dutyPhasePolicy cfg a.phase dOld dNew) a.len) a.len }

/-- `lfsrStep(r)` (R121). -/
def lfsrStep (r : BitVec 15) : BitVec 15 :=
  ((((r ^^^ (r >>> 1)) &&& 1#15) <<< 14)) ||| (r >>> 1)

/-- The noise output (R122). -/
def noiseOut (r : BitVec 15) : Binary64 := if r.getLsbD 0 then .one else Binary64.neg .one

/-- The register part of the noise `oscSample` (R120): count, then compare, then step. -/
def NoiseGen.advance (g : NoiseGen) : NoiseGen :=
  if g.per ≤ g.cnt + 1 then { g with lfsr := lfsrStep g.lfsr, cnt := 0 } else { g with cnt := g.cnt + 1 }

/-- `oscSample()` (R104, R120): the value of this sample and the advanced oscillator. A phase accumulator is
read before its advance, the noise register after its step. -/
def Osc.sample (cfg : Config) : Osc → Binary64 × Osc
  | .phase sh a => (sh.wave cfg a.phase, .phase sh a.advance)
  | .noise g => (noiseOut g.advance.lfsr, .noise g.advance)

/-- `noteSet(n)` (R101, R123): a phase accumulator does `setFrequency(NOTE_FREQ(n))` wherever 16000 ⊘ NOTE_FREQ(n)
is finite (log 25). The noise register keeps `cnt`, which may then stand at or above the new `per` (log 28). -/
def Osc.noteSet (cfg : Config) (n : Nat) : Osc → Osc
  | .phase sh a => .phase sh (a.retune (noteLength cfg n))
  | .noise g => .noise { g with per := n + 1 }

/-- The kind of an oscillator (10_state.md R22). -/
def Osc.kind : Osc → Waveform
  | .phase (.square _) _ => .square
  | .phase .saw _ => .saw
  | .phase .sine _ => .sine
  | .phase .triangle _ => .triangle
  | .noise _ => .noise

/-! ## EnvelopeNote (41_envelope.md) -/

/-- `envCreate(k, carried)` (R141). -/
def envCreate (m : Memory) (k : BitVec 4) (carried : Binary64) : Except Fault EnvelopeNote := do
  let ins ← m.record k
  let dur ← Memory.nodeDur ins k 0
  let goal ← Memory.nodeVol ins k 0
  return { inst := k, idx := 0, dur := dur, vol := carried, goal := goal, start := carried, live := true }

/-- `envEnterPastEnd()` (R146). -/
def envEnterPastEnd (ins : Instrument) (e : EnvelopeNote) : EnvelopeNote :=
  { e with idx := ins.nodes, dur := .infinite, vol := .zero }

/-- The node index a transition enters (R144, R145): the next one, wrapped to loopStart when live and past
loopEnd. -/
def nextIdx (ins : Instrument) (e : EnvelopeNote) : Nat :=
  if e.live && decide (ins.loopEnd < e.idx + 1) then ins.loopStart else e.idx + 1

/-- `envTransition()` (R144). -/
def envTransition (ins : Instrument) (e : EnvelopeNote) : Except Fault EnvelopeNote :=
  let i := nextIdx ins e
  if ins.nodes ≤ i then .ok (envEnterPastEnd ins { e with idx := i })
  else do
    let goal ← Memory.nodeVol ins e.inst i
    let dur ← Memory.nodeDur ins e.inst i
    return { e with idx := i, start := e.vol, goal := goal, dur := dur }

/-- One less; ∞ stays (log 21). -/
def Dur.decrement : Dur → Dur
  | .count n => .count (n - 1)
  | .infinite => .infinite

/-- Whether the countdown has reached ≤ 0 (R143). -/
def Dur.expired : Dur → Bool
  | .count n => decide (n ≤ 0)
  | .infinite => false

/-- `envCountdown()` (R143): frozen past the end and in sustain-hold; otherwise decrement, then test, and make
at most one transition (R147). -/
def envCountdown (m : Memory) (e : EnvelopeNote) : Except Fault EnvelopeNote := do
  let ins ← m.record e.inst
  if pastEnd ins e || holding ins e then return e
  else
    let e' := { e with dur := e.dur.decrement }
    if e'.dur.expired then envTransition ins e' else return e'

/-- The volume update of one sample (R151): vol ⊕ ((goal ⊖ vol) ⊘ max(1, dur)). -/
def volumeStep (e : EnvelopeNote) : Binary64 :=
  Binary64.add e.vol (Binary64.div (Binary64.sub e.goal e.vol) e.dur.divisor)

/-- The part of `envSample()` after the countdown (R149, R150): the value and the note after it. -/
def envOutput (m : Memory) (e : EnvelopeNote) : Except Fault (Binary64 × EnvelopeNote) := do
  let ins ← m.record e.inst
  if pastEnd ins e then return (.zero, e)
  else if holding ins e then
    let v ← Memory.nodeVol ins e.inst e.idx
    return (v, { e with vol := v })
  else return (volumeStep e, { e with vol := volumeStep e })

/-- The countdown on the clock that is asked about, nothing on the other (R142). -/
def countdownOn (cfg : Config) (clock : CountClock) (m : Memory) (e : EnvelopeNote) : Except Fault EnvelopeNote :=
  if cfg.envCountClock = clock then envCountdown m e else .ok e

/-- `envSample()` (R149). -/
def envSample (cfg : Config) (m : Memory) (e : EnvelopeNote) : Except Fault (Binary64 × EnvelopeNote) := do
  let e' ← countdownOn cfg .sample m e
  envOutput m e'

/-- `envCut()` (R152). -/
def envCut (e : EnvelopeNote) : EnvelopeNote := { e with live := false }

/-- `envRetrigger()` (R153). -/
def envRetrigger (m : Memory) (e : EnvelopeNote) : Except Fault EnvelopeNote := do
  let ins ← m.record e.inst
  let dur ← Memory.nodeDur ins e.inst 0
  let v ← Memory.nodeVol ins e.inst 0
  return { e with idx := 0, dur := dur, goal := v, vol := v, start := v }

/-- `envSilence()` (R154). -/
def envSilence (m : Memory) (e : EnvelopeNote) : Except Fault EnvelopeNote := do
  let ins ← m.record e.inst
  return { e with idx := ins.nodes, dur := .infinite, vol := .zero, goal := .zero }

/-! ## Channel (42_channel_mixer.md) -/

/-- `carriedVolume(c)` (R176). -/
def carriedVolume (ch : Channel) : Binary64 :=
  match ch.env with
  | some e => e.vol
  | none => .zero

/-- `notePlay(c, n, k)` (R174). -/
def notePlay (cfg : Config) (m : Memory) (n : Fin 63) (k : BitVec 4) (ch : Channel) : Except Fault Channel := do
  let e ← envCreate m k (carriedVolume ch)
  return { ch with fx := .none, baseNote := some n, osc := ch.osc.noteSet cfg n.val, env := some e }

/-- NOTE_PLAY's and CELL's note-on (R173, R203): an unresolved instrument is skipped (R175). -/
def noteOn (cfg : Config) (m : Memory) (n : Fin 63) (k : BitVec 4) (ch : Channel) : Except Fault Channel :=
  if resolves m k then notePlay cfg m n k ch else .ok ch

/-- `noteEnd()` (R177). -/
def noteEnd (ch : Channel) : Channel :=
  match ch.env with
  | some e => { ch with env := some (envCut e) }
  | none => ch

/-- `reset()` (R171, R172): volume 1, no EnvelopeNote, no bookmark; the rest stays. -/
def channelReset (ch : Channel) : Channel := { ch with cvol := .one, env := none, bookmark := none }

/-- `chSample(c)` (R181, R182): the oscillator, then the envelope, then (o ⊗ cvol) ⊗ e. Without a note the oscillator
is not advanced, so a noise `cnt` at or above a lowered `per` stays there: R25's "cnt < per after every SAMPLE" fails
in that case (DEDUCED, log 28). -/
def chSample (cfg : Config) (m : Memory) (ch : Channel) : Except Fault (Binary64 × Channel) :=
  match ch.env with
  | none => .ok (.zero, ch)
  | some e => do
    let o := ch.osc.sample cfg
    let v ← envSample cfg m e
    return (Binary64.mul (Binary64.mul o.1 ch.cvol) v.1, { ch with osc := o.2, env := some v.2 })

/-- The channels in the given order, each sampled and added to the sum (R183). -/
def mixFrom (cfg : Config) (m : Memory) : List Chan → Binary64 → Channels → Except Fault (Binary64 × Channels)
  | [], sum, cs => .ok (sum, cs)
  | c :: rest, sum, cs => do
    let r ← chSample cfg m (cs.get c)
    mixFrom cfg m rest (Binary64.add sum r.1) (cs.set c r.2)

/-- The effect's action on its channel's EnvelopeNote, if there is one. -/
def onEnv (f : EnvelopeNote → Except Fault EnvelopeNote) (ch : Channel) : Except Fault Channel :=
  match ch.env with
  | none => .ok ch
  | some e => do
    let e' ← f e
    return { ch with env := some e' }

/-- The action where the condition holds, nothing otherwise. -/
def onEnvIf (cond : Prop) [Decidable cond] (f : EnvelopeNote → Except Fault EnvelopeNote) (ch : Channel) :
    Except Fault Channel :=
  if cond then onEnv f ch else .ok ch

/-- `fxStep(c, t)` (R188 to R191). -/
def fxStep (cfg : Config) (m : Memory) (t : BitVec 32) (ch : Channel) : Except Fault Channel :=
  match ch.fx with
  | .none => .ok ch
  | .arpeggio a b =>
    match ch.baseNote with
    | some n => .ok { ch with osc := ch.osc.noteSet cfg (n.val + arpeggioOffset a b t) }
    | none => .ok ch
  | .retrigger _ b => onEnvIf (b.toNat ≠ 0 ∧ t.toNat % b.toNat = 0) (envRetrigger m) ch
  | .delay _ b => do
    let ch' ← onEnvIf (t.toNat = 0) (envSilence m) ch
    onEnvIf (t.toNat = b.toNat) (envRetrigger m) ch'

/-- `chTick(c, t)` (R187): the countdown on the Tick clock, then the effect. -/
def chTick (cfg : Config) (m : Memory) (t : BitVec 32) (ch : Channel) : Except Fault Channel := do
  let ch' ← onEnv (countdownOn cfg .tick m) ch
  fxStep cfg m t ch'

/-- The channels in the given order, each advanced by one tick (R186). -/
def tickFrom (cfg : Config) (m : Memory) (t : BitVec 32) : List Chan → Channels → Except Fault Channels
  | [], cs => .ok cs
  | c :: rest, cs => do
    let ch ← chTick cfg m t (cs.get c)
    tickFrom cfg m t rest (cs.set c ch)

/-- `fxTeardown(c)` (R192): Arpeggio returns to the base note, and the slot is cleared. -/
def fxTeardown (cfg : Config) (ch : Channel) : Channel :=
  match ch.fx, ch.baseNote with
  | .none, _ => ch
  | .arpeggio _ _, some n => { ch with osc := ch.osc.noteSet cfg n.val, fx := .none }
  | _, _ => { ch with fx := .none }

/-! ## Effect dispatch (43_cell_effects.md) -/

/-- Loop with arg2 = 0 at row r (R208). -/
def loopSet (r : BitVec 32) (ch : Channel) : Channel :=
  match ch.bookmark with
  | some bm => { ch with bookmark := some ⟨r, bm.count⟩ }
  | none => { ch with bookmark := some ⟨r, 0⟩ }

/-- The bookmark Loop with arg2 > 0 works on: a new one at row 0 if there is none (R209). -/
def bookmarkOrNew (ch : Channel) : Bookmark := ch.bookmark.getD ⟨0, 0⟩

/-- Loop with arg2 = b > 0 (R209). -/
def loopRepeat (b : BitVec 4) (ch : Channel) : Channel × Request :=
  let bm := bookmarkOrNew ch
  if bm.count < b.toNat then ({ ch with bookmark := some ⟨bm.row, bm.count + 1⟩ }, .loopJump bm.row)
  else ({ ch with bookmark := none }, .none)

/-- The kind's own action, after the teardown (R206 to R217). -/
def effectAct (s : State) (c : Chan) (r : BitVec 32) : EffectOp → State × Request
  | .arpeggio a b => (s.setChan c { s.chan c with fx := .arpeggio a b }, .none)
  | .loopSet _ => (s.setChan c (loopSet r (s.chan c)), .none)
  | .loopRepeat _ b => (s.setChan c (loopRepeat b (s.chan c)).1, (loopRepeat b (s.chan c)).2)
  | .patternJump p => (s, .patternJump p)
  | .rowJump p => (s, .rowJump p)
  | .retrigger a b => (s.setChan c { s.chan c with fx := .retrigger a b }, .none)
  | .delay a b => (s.setChan c { s.chan c with fx := .delay a b }, .none)
  | .songVolume v => (s.setSongVol (effectSongVolume v), .none)
  | .songBps v => (s, .setBps v)
  | .songTpb _ b => (s, .setTpb b)
  | .reserved _ _ _ => (s, .none)

/-- `dispatch(c, e, r)` (R206) for a decoded effect: the teardown, then the kind's action. -/
def dispatch (cfg : Config) (s : State) (c : Chan) (r : BitVec 32) (op : EffectOp) : State × Request :=
  effectAct (s.setChan c (fxTeardown cfg (s.chan c))) c r op

/-- The end of CELL or EFFECT: the request is driven. -/
def driveResult (x : State × Request) : State := x.1.driveReq x.2

/-! ## Cells (43_cell_effects.md) -/

/-- One action of a cell on channel c at row r, with the request it returns (R202, R203). A note value that is
the stop sentinel plays nothing. -/
def cellAct (cfg : Config) (c : Chan) (r : BitVec 32) (s : State) : CellAction → Except Fault (State × Request)
  | .volume v => .ok (s.setChan c { s.chan c with cvol := cellVolume v }, .none)
  | .noteStop => .ok (s.setChan c (noteEnd (s.chan c)), .none)
  | .noteOn n k =>
    if h : n.toNat < 63 then do
      let ch ← noteOn cfg s.mem ⟨n.toNat, h⟩ k (s.chan c)
      return (s.setChan c ch, .none)
    else .ok (s, .none)
  | .effect e => .ok (dispatch cfg s c r (decodeEffect e))

/-- The actions of a cell one after the other; the request is the last one's (R202: only the effect, which
comes last, returns one). -/
def cellRun (cfg : Config) (c : Chan) (r : BitVec 32) :
    State × Request → List CellAction → Except Fault (State × Request)
  | x, [] => .ok x
  | x, a :: rest => do
    let y ← cellAct cfg c r x.1 a
    cellRun cfg c r y rest

/-- A cell's actions, then its request driven (R202). -/
def cellApply (cfg : Config) (c : Chan) (r : BitVec 32) (s : State) (actions : List CellAction) :
    Host.Outcome State Fault Refusal :=
  finish ((cellRun cfg c r (s, .none) actions).map driveResult)

end Sys2Proof.Machine
end

