-- ==== Sys2Proof/Machine/Cells.lean ====
section
/-!
DEFINITION. Sys2Proof/Machine/Cells.lean: CELL and the actions of a cell word (43_cell_effects.md R201 to R204).
-/

namespace Sys2Proof.Machine

/-- CELL c, w, r (R201, R202): the actions the word selects, in order. -/
def execCell (c : Chan) (w r : BitVec 32) (s : State) : Host.Outcome State Fault Refusal :=
  cellApply Config.hw c r s (cellActions (decodeCell w))

/-- CELL_EMPTY (R202): an empty cell writes nothing and returns None. -/
def execCellEmpty (_c : Chan) (s : State) : Host.Outcome State Fault Refusal := .next (s.driveReq .none)

/-- CELL_VOLUME (R204). -/
def execCellVolume (c : Chan) (v : BitVec 6) (s : State) : Host.Outcome State Fault Refusal :=
  cellApply Config.hw c 0 s [.volume v]

/-- CELL_NOTE_STOP (R203). -/
def execCellNoteStop (c : Chan) (s : State) : Host.Outcome State Fault Refusal :=
  cellApply Config.hw c 0 s [.noteStop]

/-- CELL_NOTE_ON (R203): plays if the instrument resolves. -/
def execCellNoteOn (c : Chan) (n : BitVec 6) (k : BitVec 4) (s : State) : Host.Outcome State Fault Refusal :=
  cellApply Config.hw c 0 s [.noteOn n k]

/-- CELL_EFFECT (R206). -/
def execCellEffect (c : Chan) (e : BitVec 12) (r : BitVec 32) (s : State) : Host.Outcome State Fault Refusal :=
  cellApply Config.hw c r s [.effect e]

end Sys2Proof.Machine
end

