-- ==== Sys2Proof/Machine/Effects.lean ====
section
/-!
DEFINITION. Sys2Proof/Machine/Effects.lean: EFFECT and the effect kinds (43_cell_effects.md R205 to R218). Each kind
runs the whole of `dispatch`: the teardown of the installed effect, then its own action (R206).
-/

namespace Sys2Proof.Machine

/-- A dispatched effect with its request driven (R205, R206). -/
def runEffect (c : Chan) (r : BitVec 32) (op : EffectOp) (s : State) : Host.Outcome State Fault Refusal :=
  .next (driveResult (dispatch Config.hw s c r op))

/-- EFFECT c, e, r (R205). -/
def execEffect (c : Chan) (e : BitVec 12) (r : BitVec 32) (s : State) : Host.Outcome State Fault Refusal :=
  runEffect c r (decodeEffect e) s

/-- FX_ARPEGGIO (R207): installs Arpeggio{a,b}; the pitch changes at the next TICK. -/
def execFxArpeggio (c : Chan) (a b : BitVec 4) (s : State) : Host.Outcome State Fault Refusal :=
  runEffect c 0 (.arpeggio a b) s

/-- FX_LOOP_SET (R208): the bookmark moves to row r, its count kept. -/
def execFxLoopSet (c : Chan) (a : BitVec 4) (r : BitVec 32) (s : State) : Host.Outcome State Fault Refusal :=
  runEffect c r (.loopSet a) s

/-- FX_LOOP_REPEAT (R209): the current row is not read. -/
def execFxLoopRepeat (c : Chan) (a b : BitVec 4) (s : State) : Host.Outcome State Fault Refusal :=
  runEffect c 0 (.loopRepeat a b) s

/-- FX_PATTERN_JUMP (R210). -/
def execFxPatternJump (c : Chan) (p : BitVec 8) (s : State) : Host.Outcome State Fault Refusal :=
  runEffect c 0 (.patternJump p) s

/-- FX_ROW_JUMP (R211). -/
def execFxRowJump (c : Chan) (p : BitVec 8) (s : State) : Host.Outcome State Fault Refusal :=
  runEffect c 0 (.rowJump p) s

/-- FX_RETRIGGER (R212): installs Retrigger{a,b}. -/
def execFxRetrigger (c : Chan) (a b : BitVec 4) (s : State) : Host.Outcome State Fault Refusal :=
  runEffect c 0 (.retrigger a b) s

/-- FX_DELAY (R213): installs Delay{a,b}. -/
def execFxDelay (c : Chan) (a b : BitVec 4) (s : State) : Host.Outcome State Fault Refusal :=
  runEffect c 0 (.delay a b) s

/-- FX_SONG_VOLUME (R214). -/
def execFxSongVolume (c : Chan) (v : BitVec 8) (s : State) : Host.Outcome State Fault Refusal :=
  runEffect c 0 (.songVolume v) s

/-- FX_SONG_BPS (R215): the clamp is the host's. -/
def execFxSongBps (c : Chan) (v : BitVec 8) (s : State) : Host.Outcome State Fault Refusal :=
  runEffect c 0 (.songBps v) s

/-- FX_SONG_TPB (R216): arg1 is unused. -/
def execFxSongTpb (c : Chan) (a b : BitVec 4) (s : State) : Host.Outcome State Fault Refusal :=
  runEffect c 0 (.songTpb a b) s

/-- FX_RESERVED_9 (R217): nothing after the teardown. -/
def execFxReserved9 (c : Chan) (a b : BitVec 4) (s : State) : Host.Outcome State Fault Refusal :=
  runEffect c 0 (.reserved 9 a b) s

/-- FX_RESERVED_10 (R217): nothing after the teardown. -/
def execFxReserved10 (c : Chan) (a b : BitVec 4) (s : State) : Host.Outcome State Fault Refusal :=
  runEffect c 0 (.reserved 10 a b) s

/-- FX_RESERVED_11 (R217): nothing after the teardown. -/
def execFxReserved11 (c : Chan) (a b : BitVec 4) (s : State) : Host.Outcome State Fault Refusal :=
  runEffect c 0 (.reserved 11 a b) s

/-- FX_RESERVED_12 (R217): nothing after the teardown. -/
def execFxReserved12 (c : Chan) (a b : BitVec 4) (s : State) : Host.Outcome State Fault Refusal :=
  runEffect c 0 (.reserved 12 a b) s

/-- FX_RESERVED_13 (R217): nothing after the teardown. -/
def execFxReserved13 (c : Chan) (a b : BitVec 4) (s : State) : Host.Outcome State Fault Refusal :=
  runEffect c 0 (.reserved 13 a b) s

/-- FX_RESERVED_14 (R217): nothing after the teardown. -/
def execFxReserved14 (c : Chan) (a b : BitVec 4) (s : State) : Host.Outcome State Fault Refusal :=
  runEffect c 0 (.reserved 14 a b) s

/-- FX_RESERVED_15 (R217): nothing after the teardown. -/
def execFxReserved15 (c : Chan) (a b : BitVec 4) (s : State) : Host.Outcome State Fault Refusal :=
  runEffect c 0 (.reserved 15 a b) s

end Sys2Proof.Machine
end

