-- ==== Sys2Proof/Machine/Mixer.lean ====
section
/-!
DEFINITION. Sys2Proof/Machine/Mixer.lean: SAMPLE and TICK (42_channel_mixer.md R183, R186).
-/

namespace Sys2Proof.Machine

/-- SAMPLE at a configuration (R183): the channels 0..4 summed from +0, the sum scaled by the song volume. -/
def sampleWith (cfg : Config) (s : State) : Except Fault State := do
  let r ← mixFrom cfg s.mem Chan.all .zero s.chans
  return (s.setChans r.2).driveOut (Binary64.mul r.1 s.songVol)

/-- SAMPLE (R183). -/
def execSample (s : State) : Host.Outcome State Fault Refusal := finish (sampleWith Config.hw s)

/-- TICK at a configuration (R186): the channels 0..4 in order. -/
def tickWith (cfg : Config) (t : BitVec 32) (s : State) : Except Fault State := do
  let cs ← tickFrom cfg s.mem t Chan.all s.chans
  return (s.setChans cs).quiet

/-- TICK (R186). -/
def execTick (t : BitVec 32) (s : State) : Host.Outcome State Fault Refusal := finish (tickWith Config.hw t s)

end Sys2Proof.Machine
end

