-- ==== Sys2Proof/Machine/Notes.lean ====
section
/-!
DEFINITION. Sys2Proof/Machine/Notes.lean: the direct channel commands and the song volume (42_channel_mixer.md R171 to
R179).
-/

namespace Sys2Proof.Machine

/-- NOTE_PLAY at a configuration (R173). -/
def notePlayWith (cfg : Config) (c : Chan) (n : BitVec 6) (k : BitVec 4) (s : State) : Except Fault State :=
  if h : n.toNat < 63 then do
    let ch ← noteOn cfg s.mem ⟨n.toNat, h⟩ k (s.chan c)
    return (s.setChan c ch).quiet
  else .ok (s.refuse .badOperand)

/-- NOTE_PLAY c, n, k (R173): n = 63 is refused, an unresolved instrument is skipped. -/
def execNotePlay (c : Chan) (n : BitVec 6) (k : BitVec 4) (s : State) : Host.Outcome State Fault Refusal :=
  finish (notePlayWith Config.hw c n k s)

/-- NOTE_END c (R177). -/
def execNoteEnd (c : Chan) (s : State) : Host.Outcome State Fault Refusal :=
  .next (s.setChan c (noteEnd (s.chan c))).quiet

/-- VOLUME_SET c, v (R178). -/
def execVolumeSet (c : Chan) (v : BitVec 64) (s : State) : Host.Outcome State Fault Refusal :=
  if (Binary64.ofBits v).inUnit then
    .next (s.setChan c { s.chan c with cvol := Binary64.ofBits v }).quiet
  else .next (s.refuse .badOperand)

/-- CHANNEL_RESET c (R171, R172). -/
def execChannelReset (c : Chan) (s : State) : Host.Outcome State Fault Refusal :=
  .next (s.setChan c (channelReset (s.chan c))).quiet

/-- SONG_VOLUME_SET v (R179). -/
def execSongVolumeSet (v : BitVec 64) (s : State) : Host.Outcome State Fault Refusal :=
  if (Binary64.ofBits v).inUnit then .next (s.setSongVol (Binary64.ofBits v)).quiet
  else .next (s.refuse .badOperand)

end Sys2Proof.Machine
end

