-- ==== Sys2Proof/Machine/Oscillators.lean ====
section
/-!
DEFINITION. Sys2Proof/Machine/Oscillators.lean: the direct oscillator commands (40_oscillators.md R130 to R132).
-/

namespace Sys2Proof.Machine

/-- OSC_NOTE_SET at a configuration (R130): baseNote, fx and env stay. -/
def oscNoteSetWith (cfg : Config) (c : Chan) (n : BitVec 7) (s : State) : State :=
  if n.toNat ≤ Config.maxNoteOsc then
    (s.setChan c { s.chan c with osc := (s.chan c).osc.noteSet cfg n.toNat }).quiet
  else s.refuse .badOperand

/-- OSC_NOTE_SET c, n (R130). -/
def execOscNoteSet (c : Chan) (n : BitVec 7) (s : State) : Host.Outcome State Fault Refusal :=
  .next (oscNoteSetWith Config.hw c n s)

/-- OSC_SET_FREQUENCY c, f (R131): refused on a noise oscillator and outside the admitted range. -/
def execOscSetFrequency (c : Chan) (f : BitVec 64) (s : State) : Host.Outcome State Fault Refusal :=
  match (s.chan c).osc with
  | .noise _ => .next (s.refuse .wrongOscillator)
  | .phase sh a =>
    if freqAdmitted (Binary64.ofBits f) then
      .next (s.setChan c { s.chan c with osc := .phase sh (a.setFrequency (Binary64.ofBits f)) }).quiet
    else .next (s.refuse .badOperand)

/-- OSC_SET_DUTY at a configuration (R132): refused on an oscillator that is not Square and outside [0, 1]. -/
def oscSetDutyWith (cfg : Config) (c : Chan) (d : BitVec 64) (s : State) : State :=
  match (s.chan c).osc with
  | .phase (.square duty) a =>
    if (Binary64.ofBits d).inUnit then
      (s.setChan c { s.chan c with
        osc := .phase (.square (Binary64.ofBits d)) (a.setDuty cfg duty (Binary64.ofBits d)) }).quiet
    else s.refuse .badOperand
  | _ => s.refuse .wrongOscillator

/-- OSC_SET_DUTY c, d (R132). -/
def execOscSetDuty (c : Chan) (d : BitVec 64) (s : State) : Host.Outcome State Fault Refusal :=
  .next (oscSetDutyWith Config.hw c d s)

end Sys2Proof.Machine
end

