-- ==== Sys2Proof/Machine/Ports.lean ====
section
/-!
DEFINITION. Sys2Proof/Machine/Ports.lean: the reserved commands (30_encoding.md R74) and the instrument memory port
(20_memory.md R53).
-/

namespace Sys2Proof.Machine

/-- RESERVED_CMD (R74): op 0xC..0xF is refused. -/
def execReservedCmd (_op : BitVec 2) (_ch : BitVec 3) (s : State) : Host.Outcome State Fault Refusal :=
  .next (s.refuse .reservedOp)

/-- Whether some channel has an EnvelopeNote (R53 (b)). -/
def State.anyNote (s : State) : Bool := Chan.all.any fun c => (s.chan c).env.isSome

/-- INSTR_LOAD at a configuration (R53): InstrInUse is checked before InstrInvalid (60_exceptions.md R244). -/
def instrLoadWith (cfg : Config) (table : List Instrument) (s : State) : State :=
  if s.anyNote then s.refuse .instrInUse
  else if Memory.wf cfg table then (s.loadInstruments table).quiet
  else s.refuse .instrInvalid

/-- INSTR_LOAD table (R53). -/
def execInstrLoad (table : List Instrument) (s : State) : Host.Outcome State Fault Refusal :=
  .next (instrLoadWith Config.hw table s)

end Sys2Proof.Machine
end

