-- ==== Sys2Proof/Machine/Dispatch.lean ====
section
/-!
DEFINITION. Sys2Proof/Machine/Dispatch.lean: the meaning of each instruction, one arm a constructor.
-/

namespace Sys2Proof.Machine

open Sys2Proof

def exec (i : Instr) (s : State) : Host.Outcome State Fault Refusal :=
  match i with
  | .sample => Sys2Proof.Machine.execSample s
  | .tick t => Sys2Proof.Machine.execTick t s
  | .cell c w r => Sys2Proof.Machine.execCell c w r s
  | .notePlay c n k => Sys2Proof.Machine.execNotePlay c n k s
  | .noteEnd c => Sys2Proof.Machine.execNoteEnd c s
  | .volumeSet c v => Sys2Proof.Machine.execVolumeSet c v s
  | .effect c e r => Sys2Proof.Machine.execEffect c e r s
  | .channelReset c => Sys2Proof.Machine.execChannelReset c s
  | .songVolumeSet v => Sys2Proof.Machine.execSongVolumeSet v s
  | .oscNoteSet c n => Sys2Proof.Machine.execOscNoteSet c n s
  | .oscSetFrequency c f => Sys2Proof.Machine.execOscSetFrequency c f s
  | .oscSetDuty c d => Sys2Proof.Machine.execOscSetDuty c d s
  | .reservedCmd op ch => Sys2Proof.Machine.execReservedCmd op ch s
  | .instrLoad table => Sys2Proof.Machine.execInstrLoad table s
  | .cellEmpty c => Sys2Proof.Machine.execCellEmpty c s
  | .cellVolume c v => Sys2Proof.Machine.execCellVolume c v s
  | .cellNoteStop c => Sys2Proof.Machine.execCellNoteStop c s
  | .cellNoteOn c n k => Sys2Proof.Machine.execCellNoteOn c n k s
  | .cellEffect c e r => Sys2Proof.Machine.execCellEffect c e r s
  | .fxArpeggio c a b => Sys2Proof.Machine.execFxArpeggio c a b s
  | .fxLoopSet c a r => Sys2Proof.Machine.execFxLoopSet c a r s
  | .fxLoopRepeat c a b => Sys2Proof.Machine.execFxLoopRepeat c a b s
  | .fxPatternJump c p => Sys2Proof.Machine.execFxPatternJump c p s
  | .fxRowJump c p => Sys2Proof.Machine.execFxRowJump c p s
  | .fxRetrigger c a b => Sys2Proof.Machine.execFxRetrigger c a b s
  | .fxDelay c a b => Sys2Proof.Machine.execFxDelay c a b s
  | .fxSongVolume c v => Sys2Proof.Machine.execFxSongVolume c v s
  | .fxSongBps c v => Sys2Proof.Machine.execFxSongBps c v s
  | .fxSongTpb c a b => Sys2Proof.Machine.execFxSongTpb c a b s
  | .fxReserved9 c a b => Sys2Proof.Machine.execFxReserved9 c a b s
  | .fxReserved10 c a b => Sys2Proof.Machine.execFxReserved10 c a b s
  | .fxReserved11 c a b => Sys2Proof.Machine.execFxReserved11 c a b s
  | .fxReserved12 c a b => Sys2Proof.Machine.execFxReserved12 c a b s
  | .fxReserved13 c a b => Sys2Proof.Machine.execFxReserved13 c a b s
  | .fxReserved14 c a b => Sys2Proof.Machine.execFxReserved14 c a b s
  | .fxReserved15 c a b => Sys2Proof.Machine.execFxReserved15 c a b s

end Sys2Proof.Machine
end

