-- ==== Sys2Proof/Machine/Step.lean ====
section
/-!
DEFINITION. Sys2Proof/Machine/Step.lean: one step: the block takes the next delivery of the host, decodes it and runs it
(00_scope.md R18, 20_memory.md R62).
-/

namespace Sys2Proof.Machine

/-- A decoded delivery run on a state: a refusal of the decoder is a refused command (30_encoding.md R89,
60_exceptions.md R243). -/
def runDecoded (x : Except RefuseReason Instr) (s : State) : Host.Outcome State Fault Refusal :=
  match x with
  | .ok i => exec i s
  | .error reason => .next (s.refuse reason)

/-- One step. With nothing issued the block holds its state (60_exceptions.md R254). -/
def step (s : State) : Host.Outcome State Fault Refusal :=
  match s.inbox with
  | [] => .next s
  | p :: rest => runDecoded (decode p) { s with inbox := rest }

/-- The delivery of a table row's bits put in front of the host's stream (log 1, 5): the very next step takes
it. -/
def State.withFetchWord (s : State) (nbits w : Nat) : State :=
  { s with inbox := Packet.ofTableWord nbits w :: s.inbox }

end Sys2Proof.Machine
end

