-- ==== Sys2Proof/Machine/Pseudo.lean ====
section
/-!
DEFINITION. Sys2Proof/Machine/Pseudo.lean: the pseudo-commands of 30_encoding.md R88, each as the commands it expands
to, and the run of such a list.
-/

namespace Sys2Proof.Machine

/-- Instructions run one after the other, stopping at the first stop (20_memory.md R62). -/
def execAll : List Instr → State → Host.Outcome State Fault Refusal
  | [], s => .next s
  | i :: rest, s =>
    match exec i s with
    | .next t => execAll rest t
    | .fault f => .fault f
    | .refused r => .refused r

/-- PAUSE (R88, 70_reset_and_hazards.md R267). -/
def pause : List Instr := Chan.all.map .noteEnd

/-- HARD_RESET (R88, 70_reset_and_hazards.md R266). -/
def hardReset : List Instr := Chan.all.map .channelReset

/-- The volume of LOAD_SONG where the payload has none (R88): 1, as a binary64 word. -/
def defaultVolume : BitVec 64 := 0x3FF0000000000000

/-- LOAD_SONG(T, v) (R88, 70_reset_and_hazards.md R265); `v` is the payload's `volume?`. -/
def loadSong (table : List Instrument) (v : Option (BitVec 64)) : List Instr :=
  hardReset ++ [.instrLoad table, .songVolumeSet (v.getD defaultVolume)]

/-- ROW(w0..w4, r) (R88, 43_cell_effects.md R200). -/
def row (w0 w1 w2 w3 w4 r : BitVec 32) : List Instr :=
  [.cell .c0 w0 r, .cell .c1 w1 r, .cell .c2 w2 r, .cell .c3 w3 r, .cell .c4 w4 r]

end Sys2Proof.Machine
end

