-- ==== Sys2Proof/Safety.lean ====
section
/-!
DEFINITION. Sys2Proof/Safety.lean: the invariant of the block's states, and the words the claims use.
-/

namespace Sys2Proof.Machine

/-- A phase accumulator's registers in their ranges (10_state.md R23): 0 ≤ off < len, and `len` at least 1 and
finite. -/
structure PhaseAcc.ok (a : PhaseAcc) : Prop where
  off_nonneg : Binary64.le .zero a.off = true
  off_lt : Binary64.lt a.off a.len = true
  one_le : Binary64.le .one a.len = true
  finite : a.len.isFinite = true

/-- An oscillator's registers in their ranges: those of its phase accumulator (10_state.md R23), `duty` in [0, 1]
(R24), `per` at least 1 (R25), and the LFSR not stuck at 0 (40_oscillators.md R126). R25's `cnt < per` is not among
them: a retune and a SAMPLE without a note break it (log 28). -/
def Osc.ok : Osc → Prop
  | .phase (.square duty) a => a.ok ∧ duty.inUnit = true
  | .phase _ a => a.ok
  | .noise g => 1 ≤ g.per ∧ g.lfsr ≠ 0

/-- An EnvelopeNote against the instrument memory (41_envelope.md R148, R151): its instrument resolves, its index
is at most N, its duration is ∞ exactly past the end and not negative otherwise. -/
def EnvelopeNote.ok (m : Memory) (e : EnvelopeNote) : Prop :=
  ∃ ins, m[e.inst.toNat]? = some ins ∧ e.idx ≤ ins.nodes ∧
    match e.dur with
    | .infinite => ins.nodes ≤ e.idx
    | .count n => e.idx < ins.nodes ∧ 0 ≤ n

/-- A loop bookmark's count stays within a 4-bit argument (43_cell_effects.md R209). -/
def Bookmark.ok (b : Bookmark) : Prop := b.count ≤ 15

/-- A channel's registers in their ranges. -/
structure Channel.ok (m : Memory) (c : Chan) (ch : Channel) : Prop where
  kind : ch.osc.kind = Config.waveform c
  osc : ch.osc.ok
  env : ∀ e, ch.env = some e → e.ok m
  cvol : ch.cvol.inUnit = true
  bookmark : ∀ b, ch.bookmark = some b → b.ok

/-- The invariant of the block: the instrument memory is canonical (20_memory.md R50, R52), each channel keeps its
oscillator kind (10_state.md R22) and its registers' ranges, and the song volume lies in [0, 1]
(42_channel_mixer.md R179). -/
structure State.Inv (s : State) : Prop where
  mem : Memory.wf Config.hw s.mem = true
  chan : ∀ c, Channel.ok s.mem c (s.chan c)
  songVol : s.songVol.inUnit = true

/-- `k` countdown events on one EnvelopeNote (41_envelope.md R143). -/
def countdowns (m : Memory) : Nat → EnvelopeNote → Except Fault EnvelopeNote
  | 0, e => .ok e
  | k + 1, e =>
    match envCountdown m e with
    | .ok e' => countdowns m k e'
    | .error f => .error f

/-- The countdown events a released note still has when it is at its index with `d` left: max(1, d) for its
node and max(1, dur[j]) for each node after it (41_envelope.md R143, R157). -/
def remainingEvents (ins : Instrument) (e : EnvelopeNote) (d : Nat) : Nat :=
  max 1 d + ((ins.dur.drop (e.idx + 1)).map (max 1)).sum

/-- `lfsrStep` applied k times. -/
def lfsrAfter : Nat → BitVec 15 → BitVec 15
  | 0, r => r
  | k + 1, r => lfsrStep (lfsrAfter k r)

/-- How many of the first k registers from r on have bit 0 set. -/
def lfsrOnes : Nat → BitVec 15 → Nat
  | 0, _ => 0
  | k + 1, r => lfsrOnes k r + (if (lfsrAfter k r).getLsbD 0 then 1 else 0)

/-- A channel with its EnvelopeNote's `start` wiped (10_state.md R29). -/
def Channel.forgetStart (ch : Channel) : Channel :=
  { ch with env := ch.env.map fun e => { e with start := .zero } }

/-- A state with every `start` wiped (10_state.md R29). -/
def State.forgetStart (s : State) : State :=
  { s with chans := ⟨s.chans.ch0.forgetStart, s.chans.ch1.forgetStart, s.chans.ch2.forgetStart,
      s.chans.ch3.forgetStart, s.chans.ch4.forgetStart⟩ }

/-- The noise register of an oscillator, if it is the noise oscillator. -/
def Osc.lfsr? : Osc → Option (BitVec 15)
  | .phase _ _ => none
  | .noise g => some g.lfsr

end Sys2Proof.Machine

namespace Sys2Proof

/-- The command formats of spec/opcode_table.json. -/
inductive Format where
  | cmd | memPort | cell32 | efx12
deriving DecidableEq, Repr

/-- The format the opcode table gives an instruction's row. -/
def Instr.format : Instr → Format
  | .sample | .tick _ | .cell _ _ _ | .notePlay _ _ _ | .noteEnd _ | .volumeSet _ _ | .effect _ _ _
  | .channelReset _ | .songVolumeSet _ | .oscNoteSet _ _ | .oscSetFrequency _ _ | .oscSetDuty _ _
  | .reservedCmd _ _ => .cmd
  | .instrLoad _ => .memPort
  | .cellEmpty _ | .cellVolume _ _ | .cellNoteStop _ | .cellNoteOn _ _ _ | .cellEffect _ _ _ => .cell32
  | .fxArpeggio _ _ _ | .fxLoopSet _ _ _ | .fxLoopRepeat _ _ _ | .fxPatternJump _ _ | .fxRowJump _ _
  | .fxRetrigger _ _ _ | .fxDelay _ _ _ | .fxSongVolume _ _ | .fxSongBps _ _ | .fxSongTpb _ _ _
  | .fxReserved9 _ _ _ | .fxReserved10 _ _ _ | .fxReserved11 _ _ _ | .fxReserved12 _ _ _
  | .fxReserved13 _ _ _ | .fxReserved14 _ _ _ | .fxReserved15 _ _ _ => .efx12

/-- The format of a packet. -/
def Packet.format : Packet → Format
  | .command _ _ => .cmd
  | .memoryPort _ => .memPort
  | .cellWord _ _ _ => .cell32
  | .effectCode _ _ _ => .efx12

/-- The data bits an operation code's operands name (30_encoding.md R75). -/
def dataMask (op : BitVec 4) : BitVec 64 :=
  if op = 0x1 then 0xFFFFFFFF
  else if op = 0x2 then 0xFFFFFFFFFFFFFFFF
  else if op = 0x3 then 0xF3F
  else if op = 0x5 then 0xFFFFFFFFFFFFFFFF
  else if op = 0x6 then 0xFFFFFFFF00000FFF
  else if op = 0x8 then 0xFFFFFFFFFFFFFFFF
  else if op = 0x9 then 0x7F
  else if op = 0xA then 0xFFFFFFFFFFFFFFFF
  else if op = 0xB then 0xFFFFFFFFFFFFFFFF
  else 0

/-- The instructions that run `dispatch` on channel c with a given decoded effect, and that effect
(43_cell_effects.md R205, R206): EFFECT, CELL with the effect flag, CELL_EFFECT and the effect kinds. -/
def Instr.effectOn (c : Chan) : Instr → Option EffectOp
  | .effect d e _ => if d = c then some (decodeEffect e) else none
  | .cellEffect d e _ => if d = c then some (decodeEffect e) else none
  | .cell d w _ => if d = c then (decodeCell w).eff.map decodeEffect else none
  | .fxArpeggio d a b => if d = c then some (.arpeggio a b) else none
  | .fxLoopSet d a _ => if d = c then some (.loopSet a) else none
  | .fxLoopRepeat d a b => if d = c then some (.loopRepeat a b) else none
  | .fxPatternJump d p => if d = c then some (.patternJump p) else none
  | .fxRowJump d p => if d = c then some (.rowJump p) else none
  | .fxRetrigger d a b => if d = c then some (.retrigger a b) else none
  | .fxDelay d a b => if d = c then some (.delay a b) else none
  | .fxSongVolume d v => if d = c then some (.songVolume v) else none
  | .fxSongBps d v => if d = c then some (.songBps v) else none
  | .fxSongTpb d a b => if d = c then some (.songTpb a b) else none
  | .fxReserved9 d a b => if d = c then some (.reserved 9 a b) else none
  | .fxReserved10 d a b => if d = c then some (.reserved 10 a b) else none
  | .fxReserved11 d a b => if d = c then some (.reserved 11 a b) else none
  | .fxReserved12 d a b => if d = c then some (.reserved 12 a b) else none
  | .fxReserved13 d a b => if d = c then some (.reserved 13 a b) else none
  | .fxReserved14 d a b => if d = c then some (.reserved 14 a b) else none
  | .fxReserved15 d a b => if d = c then some (.reserved 15 a b) else none
  | .sample | .tick _ | .notePlay _ _ _ | .noteEnd _ | .volumeSet _ _ | .channelReset _ | .songVolumeSet _
  | .oscNoteSet _ _ | .oscSetFrequency _ _ | .oscSetDuty _ _ | .reservedCmd _ _ | .instrLoad _
  | .cellEmpty _ | .cellVolume _ _ | .cellNoteStop _ | .cellNoteOn _ _ _ => none

/-- The channel an instruction names, if it names one. -/
def Instr.channel : Instr → Option Chan
  | .sample | .tick _ | .songVolumeSet _ | .reservedCmd _ _ | .instrLoad _ => none
  | .cell c _ _ | .notePlay c _ _ | .noteEnd c | .volumeSet c _ | .effect c _ _ | .channelReset c
  | .oscNoteSet c _ | .oscSetFrequency c _ | .oscSetDuty c _ | .cellEmpty c | .cellVolume c _
  | .cellNoteStop c | .cellNoteOn c _ _ | .cellEffect c _ _ | .fxArpeggio c _ _ | .fxLoopSet c _ _
  | .fxLoopRepeat c _ _ | .fxPatternJump c _ | .fxRowJump c _ | .fxRetrigger c _ _ | .fxDelay c _ _
  | .fxSongVolume c _ | .fxSongBps c _ | .fxSongTpb c _ _ | .fxReserved9 c _ _ | .fxReserved10 c _ _
  | .fxReserved11 c _ _ | .fxReserved12 c _ _ | .fxReserved13 c _ _ | .fxReserved14 c _ _
  | .fxReserved15 c _ _ => some c

/-- The command of operation code `op` with data `d` on each channel, and its refusal where there is no such channel
(30_encoding.md R71, R72). -/
def Commands.onChannels (op : BitVec 4) (d : BitVec 64) (i : Chan → Instr) : Prop :=
  (∀ c : Chan, decode (.command (header op c.toBits) d) = .ok (i c)) ∧
    ∀ ch : BitVec 3, 4 < ch.toNat → decode (.command (header op ch) d) = .error .badChannel

/-- The command of operation code `op` with data `d` that names no channel, and its refusal where `ch` is not 0
(30_encoding.md R71, R72). -/
def Commands.onZero (op : BitVec 4) (d : BitVec 64) (i : Instr) : Prop :=
  decode (.command (header op 0) d) = .ok i ∧
    ∀ ch : BitVec 3, ch ≠ 0 → decode (.command (header op ch) d) = .error .badChannel

end Sys2Proof
end

