-- ==== Sys2Proof/Certificates/Slice0/Obligations.lean ====
section
/-!
DEFINITION. Sys2Proof/Certificates/Slice0/Obligations.lean: the statements for the provers. Each docstring names the
rules of spec/ it comes from. `hw` is `Config.hw`, the hardware's own parameter values, of which only the assumptions
of 00_scope.md R10 and 40_oscillators.md R110 and the range of log 25's free value are known.
-/

open Sys2Proof Sys2Proof.Machine

/-! ## Reset, stepping and decoding -/

/-- R261, R262: every field of the power-on state. The ports and the host's stream are the model's own fields
(log 1, 2) and are not in the statement. -/
def Obligations.ResetHoldsPowerOnValues : Prop :=
  State.reset.songVol = .ofNat 1 ∧ State.reset.refused = false ∧ State.reset.mem = [] ∧
    ∀ c, (State.reset.chan c).env = none ∧ (State.reset.chan c).cvol = .ofNat 1 ∧
      (State.reset.chan c).fx = .none ∧ (State.reset.chan c).baseNote = none ∧
      (State.reset.chan c).bookmark = none ∧
      (State.reset.chan c).osc =
        match Config.waveform c with
        | .square => .phase (.square (Binary64.div (.ofNat 1) (.ofNat 2))) ⟨.ofNat 0, .ofNat 1⟩
        | .saw => .phase .saw ⟨.ofNat 0, .ofNat 1⟩
        | .sine => .phase .sine ⟨.ofNat 0, .ofNat 1⟩
        | .triangle => .phase .triangle ⟨.ofNat 0, .ofNat 1⟩
        | .noise => .noise ⟨1, 1, 0⟩

/-- The power-on state meets the invariant (R22 to R25, R50, R52, R148). -/
def Obligations.ResetMeetsTheInvariant : Prop := State.reset.Inv

/-- R18, R62, R89, R243, R254: a step takes the next delivery; a decoded one is `exec` of its instruction, a
refused one sets the mark; with nothing issued the state holds. That the stream stands in the state is the
model's choice (log 1). -/
def Obligations.StepRunsTheDecodedInstruction : Prop :=
  (∀ (s : State) (p : Packet) (rest : List Packet) (i : Instr), s.inbox = p :: rest → decode p = .ok i →
      step s = exec i { s with inbox := rest }) ∧
    (∀ (s : State) (p : Packet) (rest : List Packet) (r : RefuseReason), s.inbox = p :: rest →
      decode p = .error r → step s = .next (({ s with inbox := rest } : State).refuse r)) ∧
    (∀ s : State, s.inbox = [] → step s = .next s)

/-- Words written out from the encodings (R70, R71, R75, R77, R83; 95_test_vectors.md V-ENC) decode to their
instructions. -/
def Obligations.SpecWordsDecode : Prop :=
  decode (.command 0x00 0) = .ok .sample ∧ decode (.command 0x10 5) = .ok (.tick 5) ∧
    decode (.command 0x23 0x00000007C6040000) = .ok (.cell .c3 0xC6040000 7) ∧
    decode (.command 0x32 0x118) = .ok (.notePlay .c2 24 1) ∧
    decode (.command 0x60 0x0000000900000305) = .ok (.effect .c0 0x305 9) ∧
    decode (.command 0xA2 0x409F400000000000) = .ok (.oscSetFrequency .c2 0x409F400000000000) ∧
    decode (.cellWord 0x2003F000 1 0) = .ok (.cellVolume .c1 63) ∧
    decode (.effectCode 0x23A 1 0) = .ok (.fxPatternJump .c1 58)

/-- R72, R73, R74 in the order of R244: which headers are refused, and with which reason; the reserved operation
codes decode to RESERVED_CMD, whose run is the refusal. Data bits that no operand names are ignored. -/
def Obligations.BadHeadersAreRefused : Prop :=
  (∀ (h : BitVec 8) (d : BitVec 64) (s : State),
    (h.getLsbD 3 = true → decode (.command h d) = .error .reservedBit) ∧
    (h.getLsbD 3 = false → 12 ≤ h.toNat / 16 →
      ∃ op ch, decode (.command h d) = .ok (.reservedCmd op ch) ∧
        exec (.reservedCmd op ch) s = .next (s.refuse .reservedOp)) ∧
    (h.getLsbD 3 = false → (h.toNat / 16 = 0 ∨ h.toNat / 16 = 1 ∨ h.toNat / 16 = 8) → h.toNat % 8 ≠ 0 →
      decode (.command h d) = .error .badChannel) ∧
    (h.getLsbD 3 = false → h.toNat / 16 < 12 → h.toNat / 16 ≠ 0 → h.toNat / 16 ≠ 1 → h.toNat / 16 ≠ 8 →
      4 < h.toNat % 8 → decode (.command h d) = .error .badChannel) ∧
    (h = 0xA4 → decode (.command h d) = .error .wrongOscillator) ∧
    (h = 0xB2 ∨ h = 0xB3 ∨ h = 0xB4 → decode (.command h d) = .error .wrongOscillator)) ∧
  ∀ (h : BitVec 8) (d d' : BitVec 64),
    d &&& dataMask (h.extractLsb' 4 4) = d' &&& dataMask (h.extractLsb' 4 4) →
      decode (.command h d) = decode (.command h d')

/-- R70, R75, R77, R79, R83: no bit of an encoding is dropped. -/
def Obligations.DecodeOfEncodeIsTheInstruction : Prop :=
  ∀ i : Instr, i.wellFormed = true → decode (encode i) = .ok i

/-- R72, R81, R53, R209: whatever decodes is well formed. -/
def Obligations.DecodedInstructionsAreWellFormed : Prop :=
  ∀ (p : Packet) (i : Instr), decode p = .ok i → i.wellFormed = true

/-- R80: the fields of a cell come back from its word, each present or absent as it was, for every value. -/
def Obligations.CellFieldsComeBackFromTheWord : Prop :=
  ∀ f : CellFields, decodeCell (encodeCell f) = f

/-- R83, R84, R85, R86: the kind and the arguments of every effect code, byteOp being (arg1 << 4) | arg2. -/
def Obligations.EffectCodesDecode : Prop :=
  ∀ k a b : BitVec 4,
    decodeEffect (k ++ a ++ b) =
      if k.toNat = 0 then .arpeggio a b
      else if k.toNat = 1 then (if b.toNat = 0 then .loopSet a else .loopRepeat a b)
      else if k.toNat = 2 then .patternJump (BitVec.ofNat 8 (16 * a.toNat + b.toNat))
      else if k.toNat = 3 then .rowJump (BitVec.ofNat 8 (16 * a.toNat + b.toNat))
      else if k.toNat = 4 then .retrigger a b
      else if k.toNat = 5 then .delay a b
      else if k.toNat = 6 then .songVolume (BitVec.ofNat 8 (16 * a.toNat + b.toNat))
      else if k.toNat = 7 then .songBps (BitVec.ofNat 8 (16 * a.toNat + b.toNat))
      else if k.toNat = 8 then .songTpb a b
      else .reserved k a b

/-! ## The direct commands -/

/-- R178, R179: VOLUME_SET and SONG_VOLUME_SET store an admitted value and refuse any other. -/
def Obligations.VolumeCommandsStoreOrRefuse : Prop :=
  ∀ (v : BitVec 64),
    ((Commands.onChannels 0x5 v fun c => .volumeSet c v) ∧ Commands.onZero 0x8 v (.songVolumeSet v)) ∧
    ∀ (c : Chan) (s : State),
      ((Binary64.ofBits v).isFinite = true → Binary64.le .zero (.ofBits v) = true →
        Binary64.le (.ofBits v) .one = true →
        exec (.volumeSet c v) s = .next (s.setChan c { s.chan c with cvol := .ofBits v }).quiet ∧
        exec (.songVolumeSet v) s = .next (s.setSongVol (.ofBits v)).quiet) ∧
      (¬((Binary64.ofBits v).isFinite = true ∧ Binary64.le .zero (.ofBits v) = true ∧
        Binary64.le (.ofBits v) .one = true) →
        exec (.volumeSet c v) s = .next (s.refuse .badOperand) ∧
        exec (.songVolumeSet v) s = .next (s.refuse .badOperand))

/-- R171, R172: CHANNEL_RESET sets the volume to 1, drops the note and the bookmark, and writes nothing else. -/
def Obligations.ChannelResetDropsTheNote : Prop :=
  (∀ d, Commands.onChannels 0x7 d .channelReset) ∧
    ∀ (c : Chan) (s : State),
      exec (.channelReset c) s =
        .next (s.setChan c { s.chan c with cvol := .ofNat 1, env := none, bookmark := none }).quiet

/-- R177, R152: NOTE_END clears `live` of the note there is, and changes nothing where there is none. -/
def Obligations.NoteEndReleasesTheNote : Prop :=
  (∀ d, Commands.onChannels 0x4 d .noteEnd) ∧
    ∀ (c : Chan) (s : State),
      (∀ e, (s.chan c).env = some e →
        exec (.noteEnd c) s =
          .next (s.setChan c { s.chan c with env := some { e with live := false } }).quiet) ∧
      ((s.chan c).env = none → exec (.noteEnd c) s = .next s.quiet)

/-- R173, R174, R175: NOTE_PLAY refuses the stop sentinel, skips an unresolved instrument, and otherwise starts the
note at the volume of the note it replaces, or at 0 (R176, R141). -/
def Obligations.NotePlayStartsTheNote : Prop :=
  (∀ d, Commands.onChannels 0x3 d fun c => .notePlay c (d.extractLsb' 0 6) (d.extractLsb' 8 4)) ∧
  ∀ (c : Chan) (n : BitVec 6) (k : BitVec 4) (s : State),
    (n = 63 → exec (.notePlay c n k) s = .next (s.refuse .badOperand)) ∧
    (n ≠ 63 → s.mem.length ≤ k.toNat → exec (.notePlay c n k) s = .next s.quiet) ∧
    (∀ (hn : n.toNat < 63) (ins : Instrument) (d : Nat) (g carried : Binary64), s.mem[k.toNat]? = some ins →
      ins.dur[0]? = some d → ins.vol[0]? = some g →
      (∀ e, (s.chan c).env = some e → carried = e.vol) → ((s.chan c).env = none → carried = .zero) →
      exec (.notePlay c n k) s =
        .next (s.setChan c
          { s.chan c with
            fx := .none
            baseNote := some ⟨n.toNat, hn⟩
            osc := (s.chan c).osc.noteSet Config.hw n.toNat
            env := some
              { inst := k, idx := 0, dur := .count d, vol := carried, goal := g, start := carried,
                live := true } }).quiet)

/-- R130, R101, R123: OSC_NOTE_SET refuses n > 77, retunes a phase accumulator keeping its normalised phase, and
sets the noise period to n + 1. The phase length is 16000 ⊘ NOTE_FREQ(n); where that is infinite it is a free value,
which is the model's reading of R23 (DEDUCED, log 25). -/
def Obligations.OscNoteSetRetunes : Prop :=
  (∀ d, Commands.onChannels 0x9 d fun c => .oscNoteSet c (d.extractLsb' 0 7)) ∧
  ∀ (c : Chan) (n : BitVec 7) (s : State),
    (77 < n.toNat → exec (.oscNoteSet c n) s = .next (s.refuse .badOperand)) ∧
    (n.toNat ≤ 77 → ∀ g, (s.chan c).osc = .noise g →
      exec (.oscNoteSet c n) s =
        .next (s.setChan c { s.chan c with osc := .noise { g with per := n.toNat + 1 } }).quiet) ∧
    (n.toNat ≤ 77 → ∀ sh a, (s.chan c).osc = .phase sh a → ∀ len off,
      len = (if (Binary64.div (.ofNat 16000) (Config.hw.noteFreq n.toNat)).isFinite = true
        then Binary64.div (.ofNat 16000) (Config.hw.noteFreq n.toNat) else Config.hw.noteLenFree n.toNat) →
      off = Binary64.mul (Binary64.div a.off a.len) len →
      exec (.oscNoteSet c n) s =
        .next (s.setChan c
          { s.chan c with
            osc := .phase sh ⟨if Binary64.le len off = true then .zero else off, len⟩ }).quiet)

/-- R131, R103: OSC_SET_FREQUENCY refuses the noise channel (in the decoder) and a frequency outside the admitted
range, and otherwise sets the phase length keeping the normalised phase. At f = 16000 too the phase is kept, as R103
says, against R131's remark that every later sample is WAVE(0): the model's reading (DEDUCED, log 27). -/
def Obligations.OscSetFrequencyRetunes : Prop :=
  ∀ (f : BitVec 64),
    ((∀ c, Config.waveform c ≠ .noise →
        decode (.command (header 0xA c.toBits) f) = .ok (.oscSetFrequency c f)) ∧
      (∀ c, Config.waveform c = .noise →
        decode (.command (header 0xA c.toBits) f) = .error .wrongOscillator) ∧
      ∀ ch : BitVec 3, 4 < ch.toNat → decode (.command (header 0xA ch) f) = .error .badChannel) ∧
    ∀ (c : Chan) (s : State) (sh : Shape) (a : PhaseAcc), (s.chan c).osc = .phase sh a →
      (¬((Binary64.ofBits f).isFinite = true ∧ Binary64.lt .zero (.ofBits f) = true ∧
          Binary64.le (.ofBits f) (.ofNat 16000) = true ∧
          Binary64.le (Binary64.div (.ofNat 16000) (.ofBits f)) (.ofNat (2 ^ 52)) = true) →
        exec (.oscSetFrequency c f) s = .next (s.refuse .badOperand)) ∧
      ((Binary64.ofBits f).isFinite = true → Binary64.lt .zero (.ofBits f) = true →
        Binary64.le (.ofBits f) (.ofNat 16000) = true →
        Binary64.le (Binary64.div (.ofNat 16000) (.ofBits f)) (.ofNat (2 ^ 52)) = true → ∀ len off,
        len = Binary64.div (.ofNat 16000) (.ofBits f) →
        off = Binary64.mul (Binary64.div a.off a.len) len →
        exec (.oscSetFrequency c f) s =
          .next (s.setChan c
            { s.chan c with
              osc := .phase sh ⟨if Binary64.le len off = true then .zero else off, len⟩ }).quiet)

/-- R132, R109: OSC_SET_DUTY refuses a channel that is not Square and a duty outside [0, 1], and otherwise stores
the duty and moves the phase as DUTY_PHASE_POLICY says: to the new boundary where the phase lies in the old and in
the new duty window, and to 0 otherwise (R110). That shape of the policy, one window predicate for both duties and a
boundary of the new duty alone, is the model's reading of R109 and R110 (DEDUCED, log 15). -/
def Obligations.OscSetDutyMovesThePhase : Prop :=
  ∀ (d : BitVec 64),
    ((∀ c, Config.waveform c = .square →
        decode (.command (header 0xB c.toBits) d) = .ok (.oscSetDuty c d)) ∧
      (∀ c, Config.waveform c ≠ .square →
        decode (.command (header 0xB c.toBits) d) = .error .wrongOscillator) ∧
      ∀ ch : BitVec 3, 4 < ch.toNat → decode (.command (header 0xB ch) d) = .error .badChannel) ∧
    ∀ (c : Chan) (s : State) (duty : Binary64) (a : PhaseAcc), (s.chan c).osc = .phase (.square duty) a →
      (¬((Binary64.ofBits d).isFinite = true ∧ Binary64.le .zero (.ofBits d) = true ∧
          Binary64.le (.ofBits d) .one = true) →
        exec (.oscSetDuty c d) s = .next (s.refuse .badOperand)) ∧
      ((Binary64.ofBits d).isFinite = true → Binary64.le .zero (.ofBits d) = true →
        Binary64.le (.ofBits d) .one = true → ∀ p off, p = Binary64.div a.off a.len →
        off = Binary64.mul
          (if Config.hw.dutyWindow duty p = true ∧ Config.hw.dutyWindow (.ofBits d) p = true
            then Config.hw.dutyBoundary (.ofBits d) else .zero) a.len →
        exec (.oscSetDuty c d) s =
          .next (s.setChan c
            { s.chan c with
              osc := .phase (.square (.ofBits d))
                ⟨if Binary64.le a.len off = true then .zero else off, a.len⟩ }).quiet)

/-- R74: a reserved operation code is refused: the mark is set, the reason is reported, no port is driven and nothing
else changes (R243). -/
def Obligations.ReservedCommandIsRefused : Prop :=
  ∀ (op : BitVec 2) (ch : BitVec 3) (d : BitVec 64) (s : State),
    decode (.command (header (3#2 ++ op) ch) d) = .ok (.reservedCmd op ch) ∧
      exec (.reservedCmd op ch) s =
        .next { s with refused := true, ports := ⟨none, none, none, some .reservedOp⟩ }

/-- R53: INSTR_LOAD of 0 to 16 records replaces the memory when no channel has a note and every record is admitted
(R51, R52), and is refused otherwise; InstrInUse is reported before InstrInvalid (R244), whatever the table holds.
The model's own: that a record whose lists differ in length is not admitted is log 8 (DEDUCED); that a table of more
than 16 records decodes, and that it too is refused with InstrInUse where a channel has a note, is log 7 (DESIGN
CHOICE), as is what it does where no channel has one, which is in OnlyInstrLoadWritesTheMemory. -/
def Obligations.InstrLoadReplacesTheMemory : Prop :=
  ∀ (table : List Instrument) (s : State),
    decode (.memoryPort table) = .ok (.instrLoad table) ∧
    ((∃ c, (s.chan c).env ≠ none) → exec (.instrLoad table) s = .next (s.refuse .instrInUse)) ∧
    (table.length ≤ 16 → (∀ c, (s.chan c).env = none) →
      ¬(∀ ins ∈ table, ins.dur.length = ins.vol.length ∧ (∀ v ∈ ins.vol, v.isFinite = true) ∧
        ins.loopStart ≤ ins.loopEnd ∧ ins.loopEnd < ins.vol.length ∧ ins.sustain < ins.vol.length ∧
        ins.vol.length ≤ Config.hw.maxNodes) →
      exec (.instrLoad table) s = .next (s.refuse .instrInvalid)) ∧
    (table.length ≤ 16 → (∀ c, (s.chan c).env = none) →
      (∀ ins ∈ table, ins.dur.length = ins.vol.length ∧ (∀ v ∈ ins.vol, v.isFinite = true) ∧
        ins.loopStart ≤ ins.loopEnd ∧ ins.loopEnd < ins.vol.length ∧ ins.sustain < ins.vol.length ∧
        ins.vol.length ≤ Config.hw.maxNodes) →
      exec (.instrLoad table) s = .next { s with mem := table, ports := Ports.idle })

/-! ## Cells and effects -/

/-- R201, R202: CELL does the volume, then the note, then the effect; it completes in every state that
meets the invariant. -/
def Obligations.CellDoesVolumeThenNoteThenEffect : Prop :=
  (∀ d, Commands.onChannels 0x2 d fun c => .cell c (d.extractLsb' 0 32) (d.extractLsb' 32 32)) ∧
  ∀ (c : Chan) (w r : BitVec 32) (s : State), s.Inv → ∀ (f : CellFields) (ch₁ : Channel), f = decodeCell w →
    ch₁ = (match f.vol with
      | some v => { s.chan c with cvol := Binary64.div (.ofNat v.toNat) (.ofNat 63) }
      | none => s.chan c) →
    ∃ ch₂ : Channel,
      (match f.note, f.inst with
        | some n, some k =>
          if h : n.toNat < 63 then
            (if k.toNat < s.mem.length then notePlay Config.hw s.mem ⟨n.toNat, h⟩ k ch₁ = .ok ch₂ else ch₂ = ch₁)
          else ch₂ = noteEnd ch₁
        | some n, none => if n.toNat < 63 then ch₂ = ch₁ else ch₂ = noteEnd ch₁
        | none, _ => ch₂ = ch₁) ∧
      exec (.cell c w r) s =
        .next (match f.eff with
          | none => (s.setChan c ch₂).driveReq .none
          | some e =>
            (dispatch Config.hw (s.setChan c ch₂) c r (decodeEffect e)).1.driveReq
              (dispatch Config.hw (s.setChan c ch₂) c r (decodeEffect e)).2)

/-- R202, R203, R204, R206: each cell action alone. CELL_NOTE_ON completes in every state that meets the
invariant, the others in every state. That an action can be issued alone is the model's choice (log 4). -/
def Obligations.CellActionsComplete : Prop :=
  (∀ (c : Chan) (s : State), exec (.cellEmpty c) s = .next (s.driveReq .none)) ∧
    (∀ (c : Chan) (v : BitVec 6) (s : State),
      exec (.cellVolume c v) s =
        .next ((s.setChan c { s.chan c with cvol := Binary64.div (.ofNat v.toNat) (.ofNat 63) }).driveReq .none)) ∧
    (∀ (c : Chan) (s : State),
      (∀ e, (s.chan c).env = some e → exec (.cellNoteStop c) s =
        .next ((s.setChan c { s.chan c with env := some { e with live := false } }).driveReq .none)) ∧
      ((s.chan c).env = none → exec (.cellNoteStop c) s = .next (s.driveReq .none))) ∧
    (∀ (c : Chan) (n : BitVec 6) (k : BitVec 4) (s : State), s.Inv → ∀ hn : n.toNat < 63,
      (s.mem.length ≤ k.toNat → exec (.cellNoteOn c n k) s = .next (s.driveReq .none)) ∧
      (k.toNat < s.mem.length → ∃ ch, notePlay Config.hw s.mem ⟨n.toNat, hn⟩ k (s.chan c) = .ok ch ∧
        exec (.cellNoteOn c n k) s = .next ((s.setChan c ch).driveReq .none))) ∧
    (∀ (c : Chan) (e : BitVec 12) (r : BitVec 32) (s : State),
      exec (.cellEffect c e r) s =
        .next ((dispatch Config.hw s c r (decodeEffect e)).1.driveReq
          (dispatch Config.hw s c r (decodeEffect e)).2))

/-- R82, R202, R205, R206: an action of a cell issued alone does what CELL does with a word that selects only that
action, and an effect kind issued alone does what EFFECT does with its code. That they can be issued alone is
the model's choice (log 4). -/
def Obligations.BareActionsAgreeWithTheirCommand : Prop :=
  ∀ (c : Chan) (r : BitVec 32) (s : State),
    exec (.cellEmpty c) s = exec (.cell c (encodeCell ⟨none, none, none, none⟩) r) s ∧
    (∀ v, exec (.cellVolume c v) s = exec (.cell c (encodeCell ⟨none, none, some v, none⟩) r) s) ∧
    (∀ inst, exec (.cellNoteStop c) s = exec (.cell c (encodeCell ⟨some 63, inst, none, none⟩) r) s) ∧
    (∀ n k, n ≠ 63 → exec (.cellNoteOn c n k) s = exec (.cell c (encodeCell ⟨some n, some k, none, none⟩) r) s) ∧
    (∀ e, exec (.cellEffect c e r) s = exec (.cell c (encodeCell ⟨none, none, none, some e⟩) r) s) ∧
    (∀ e, exec (decodeEffectCode e c r) s = exec (.effect c e r) s)

/-- R205: EFFECT runs `dispatch` with its code and drives the request it returns; every code is admitted. -/
def Obligations.EffectRunsDispatch : Prop :=
  (∀ d, Commands.onChannels 0x6 d fun c => .effect c (d.extractLsb' 0 12) (d.extractLsb' 32 32)) ∧
  ∀ (c : Chan) (e : BitVec 12) (r : BitVec 32) (s : State),
    exec (.effect c e r) s =
        .next ((dispatch Config.hw s c r (decodeEffect e)).1.driveReq
          (dispatch Config.hw s c r (decodeEffect e)).2)

/-- R207, R212, R213, R180, R192: the persistent kinds tear down the installed effect and install their own; the
pitch is not changed by the installation. -/
def Obligations.PersistentKindsInstall : Prop :=
  ∀ (c : Chan) (a b : BitVec 4) (s : State),
    exec (.fxArpeggio c a b) s =
      .next ((s.setChan c { fxTeardown Config.hw (s.chan c) with fx := .arpeggio a b }).driveReq .none) ∧
    exec (.fxRetrigger c a b) s =
      .next ((s.setChan c { fxTeardown Config.hw (s.chan c) with fx := .retrigger a b }).driveReq .none) ∧
    exec (.fxDelay c a b) s =
      .next ((s.setChan c { fxTeardown Config.hw (s.chan c) with fx := .delay a b }).driveReq .none)

/-- R208: Loop with arg2 = 0 puts the bookmark at the current row, keeps its count, and asks for no jump. -/
def Obligations.LoopSetMovesTheBookmark : Prop :=
  ∀ (c : Chan) (a : BitVec 4) (r : BitVec 32) (s : State),
    ((s.chan c).bookmark = none →
      exec (.fxLoopSet c a r) s =
        .next ((s.setChan c { fxTeardown Config.hw (s.chan c) with bookmark := some ⟨r, 0⟩ }).driveReq .none)) ∧
    (∀ bm, (s.chan c).bookmark = some bm →
      exec (.fxLoopSet c a r) s =
        .next ((s.setChan c
          { fxTeardown Config.hw (s.chan c) with bookmark := some ⟨r, bm.count⟩ }).driveReq .none))

/-- R209: Loop with arg2 > 0 counts up and jumps to the bookmarked row (row 0 where there was no bookmark) while
the count is below arg2, and then clears the bookmark. -/
def Obligations.LoopRepeatCountsAndJumps : Prop :=
  ∀ (c : Chan) (a b : BitVec 4) (s : State) (bm : Bookmark), b ≠ 0 →
    (s.chan c).bookmark = some bm ∨ ((s.chan c).bookmark = none ∧ bm = ⟨0, 0⟩) →
    (bm.count < b.toNat →
      exec (.fxLoopRepeat c a b) s =
        .next ((s.setChan c
          { fxTeardown Config.hw (s.chan c) with bookmark := some ⟨bm.row, bm.count + 1⟩ }).driveReq
            (.loopJump bm.row))) ∧
    (b.toNat ≤ bm.count →
      exec (.fxLoopRepeat c a b) s =
        .next ((s.setChan c { fxTeardown Config.hw (s.chan c) with bookmark := none }).driveReq .none))

/-- R209: "A loop end with b repeats therefore returns LoopJump b times and None the (b+1)-th time." -/
def Obligations.LoopEndRepeatsExactly : Prop :=
  ∀ (c : Chan) (a b : BitVec 4) (s : State) (row : BitVec 32), b ≠ 0 →
    (s.chan c).bookmark = some ⟨row, 0⟩ →
    (∀ j, 1 ≤ j → j ≤ b.toNat → ∃ t, execAll (List.replicate j (.fxLoopRepeat c a b)) s = .next t ∧
      t.ports.req = some (.loopJump row)) ∧
    ∃ t, execAll (List.replicate (b.toNat + 1) (.fxLoopRepeat c a b)) s = .next t ∧
      t.ports.req = some .none ∧ (t.chan c).bookmark = none

/-- R210, R211, R215, R216: the kinds that only ask the host: after the teardown nothing changes, and the request
carries the operand, unclamped. -/
def Obligations.RequestKindsAskTheHost : Prop :=
  ∀ (c : Chan) (p : BitVec 8) (a b : BitVec 4) (s s' : State),
    s' = s.setChan c (fxTeardown Config.hw (s.chan c)) →
    exec (.fxPatternJump c p) s = .next (s'.driveReq (.patternJump p)) ∧
    exec (.fxRowJump c p) s = .next (s'.driveReq (.rowJump p)) ∧
    exec (.fxSongBps c p) s = .next (s'.driveReq (.setBps p)) ∧
    exec (.fxSongTpb c a b) s = .next (s'.driveReq (.setTpb b))

/-- R214: SongVolume writes byteOp ⊘ 255 to the song volume; 0xFF gives exactly 1 and 0x00 gives 0. -/
def Obligations.SongVolumeEffectScales : Prop :=
  (∀ (c : Chan) (v : BitVec 8) (s : State),
    exec (.fxSongVolume c v) s =
      .next (((s.setChan c (fxTeardown Config.hw (s.chan c))).setSongVol
        (Binary64.div (.ofNat v.toNat) (.ofNat 255))).driveReq .none)) ∧
    Binary64.div (.ofNat 255) (.ofNat 255) = .ofNat 1 ∧ Binary64.div (.ofNat 0) (.ofNat 255) = .ofNat 0

/-- R217, R192: a reserved kind runs only the teardown: an installed Arpeggio returns the oscillator to the base
note, any installed effect is cleared, and None is returned. -/
def Obligations.ReservedKindsOnlyTearDown : Prop :=
  ∀ (c : Chan) (a b : BitVec 4) (s t : State) (ch : Channel),
    ch = (match (s.chan c).fx, (s.chan c).baseNote with
      | .arpeggio _ _, some n =>
        { s.chan c with fx := .none, osc := (s.chan c).osc.noteSet Config.hw n.val }
      | _, _ => { s.chan c with fx := .none }) →
    t = (s.setChan c ch).driveReq .none →
    exec (.fxReserved9 c a b) s = .next t ∧ exec (.fxReserved10 c a b) s = .next t ∧
      exec (.fxReserved11 c a b) s = .next t ∧ exec (.fxReserved12 c a b) s = .next t ∧
      exec (.fxReserved13 c a b) s = .next t ∧ exec (.fxReserved14 c a b) s = .next t ∧
      exec (.fxReserved15 c a b) s = .next t

/-- R218, R37: `jumped` is driven with the request, and it is true exactly for the three jumps. -/
def Obligations.JumpedMarksTheJumps : Prop :=
  ∀ (i : Instr) (s t : State), exec i s = .next t →
    (t.ports.jumped = none ↔ t.ports.req = none) ∧
      (t.ports.jumped = some true ↔
        (∃ r, t.ports.req = some (.loopJump r)) ∨ (∃ p, t.ports.req = some (.patternJump p)) ∨
          (∃ r, t.ports.req = some (.rowJump r)))

/-! ## Samples, ticks and envelopes -/

/-- R183: SAMPLE completes in every state that meets the invariant; each channel is sampled, and `out` is
the sum in channel order from +0, times the song volume. -/
def Obligations.SampleMixesTheChannels : Prop :=
  (∀ d, Commands.onZero 0x0 d .sample) ∧
  ∀ s : State, s.Inv → ∃ (o : Chan → Binary64) (ch : Chan → Channel),
    (∀ c, chSample Config.hw s.mem (s.chan c) = .ok (o c, ch c)) ∧
      exec .sample s =
        .next ((s.setChans ⟨ch .c0, ch .c1, ch .c2, ch .c3, ch .c4⟩).driveOut
          (Binary64.mul
            (Binary64.add (Binary64.add (Binary64.add (Binary64.add (Binary64.add .zero (o .c0)) (o .c1)) (o .c2))
              (o .c3)) (o .c4))
            s.songVol))

/-- R181, R182: a channel with no note gives +0 and does not move; one with a note gives
(oscillator ⊗ cvol) ⊗ envelope and advances both. -/
def Obligations.ChannelSampleIsTheProduct : Prop :=
  ∀ (cfg : Config) (m : Memory) (ch : Channel),
    (ch.env = none → chSample cfg m ch = .ok (.zero, ch)) ∧
    (∀ e v e', ch.env = some e → envSample cfg m e = .ok (v, e') →
      chSample cfg m ch =
        .ok (Binary64.mul (Binary64.mul (ch.osc.sample cfg).1 ch.cvol) v,
          { ch with osc := (ch.osc.sample cfg).2, env := some e' }))

/-- R149, R150, R151: on the Sample clock the countdown runs first, on the Tick clock it does not (R142); then past
the end the value is 0, in sustain-hold the node's volume, otherwise one step of
vol ⊕ ((goal ⊖ vol) ⊘ max(1, dur)), and only `vol` is written. -/
def Obligations.EnvelopeSampleValue : Prop :=
  ∀ (cfg : Config) (m : Memory) (e e' : EnvelopeNote) (ins : Instrument),
    (cfg.envCountClock = .tick → e' = e) → (cfg.envCountClock = .sample → envCountdown m e = .ok e') →
    m[e'.inst.toNat]? = some ins →
    (ins.nodes ≤ e'.idx → envSample cfg m e = .ok (.zero, e')) ∧
    (∀ v, e'.live = true → e'.idx = ins.sustain → e'.idx < ins.nodes → ins.vol[e'.idx]? = some v →
      envSample cfg m e = .ok (v, { e' with vol := v })) ∧
    (∀ n v, e'.idx < ins.nodes → ¬(e'.live = true ∧ e'.idx = ins.sustain) → e'.dur = .count n →
      v = Binary64.add e'.vol (Binary64.div (Binary64.sub e'.goal e'.vol) (.ofNat (max 1 n.toNat))) →
      envSample cfg m e = .ok (v, { e' with vol := v }))

/-- R186: TICK completes in every state that meets the invariant and advances each channel, drives no port
and changes nothing else. -/
def Obligations.TickAdvancesEveryChannel : Prop :=
  (∀ d, Commands.onZero 0x1 d (.tick (d.extractLsb' 0 32))) ∧
  ∀ (t : BitVec 32) (s : State), s.Inv → ∃ ch : Chan → Channel,
    (∀ c, chTick Config.hw s.mem t (s.chan c) = .ok (ch c)) ∧
      exec (.tick t) s = .next (s.setChans ⟨ch .c0, ch .c1, ch .c2, ch .c3, ch .c4⟩).quiet

/-- R187, R191: a channel's tick is the envelope countdown on the Tick clock, nothing on the Sample clock, and then
the effect step, which does nothing when no effect is installed. -/
def Obligations.ChannelTickCountsDownThenSteps : Prop :=
  ∀ (cfg : Config) (m : Memory) (t : BitVec 32) (ch : Channel),
    (ch.env = none ∨ cfg.envCountClock = .sample → chTick cfg m t ch = fxStep cfg m t ch) ∧
    (∀ e e', cfg.envCountClock = .tick → ch.env = some e → envCountdown m e = .ok e' →
      chTick cfg m t ch = fxStep cfg m t { ch with env := some e' }) ∧
    (ch.fx = .none → fxStep cfg m t ch = .ok ch)

/-- R188: the Arpeggio step retunes to the base note plus [0, a, b][t mod 3], and does nothing without a base
note. -/
def Obligations.ArpeggioStepRetunes : Prop :=
  ∀ (cfg : Config) (m : Memory) (t : BitVec 32) (ch : Channel) (a b : BitVec 4), ch.fx = .arpeggio a b →
    (ch.baseNote = none → fxStep cfg m t ch = .ok ch) ∧
    (∀ n, ch.baseNote = some n →
      (t.toNat % 3 = 0 → fxStep cfg m t ch = .ok { ch with osc := ch.osc.noteSet cfg n.val }) ∧
      (t.toNat % 3 = 1 → fxStep cfg m t ch = .ok { ch with osc := ch.osc.noteSet cfg (n.val + a.toNat) }) ∧
      (t.toNat % 3 = 2 → fxStep cfg m t ch = .ok { ch with osc := ch.osc.noteSet cfg (n.val + b.toNat) }))

/-- R189, R153: the Retrigger step puts the note back at node 0 on the ticks that are multiples of arg2, keeping
`live` and the instrument; with arg2 = 0 or no note it does nothing. -/
def Obligations.RetriggerStepRestarts : Prop :=
  ∀ (cfg : Config) (m : Memory) (t : BitVec 32) (ch : Channel) (a b : BitVec 4), ch.fx = .retrigger a b →
    (b = 0 ∨ t.toNat % b.toNat ≠ 0 ∨ ch.env = none → fxStep cfg m t ch = .ok ch) ∧
    (∀ (e : EnvelopeNote) (ins : Instrument) (d : Nat) (g : Binary64), b ≠ 0 → t.toNat % b.toNat = 0 →
      ch.env = some e → m[e.inst.toNat]? = some ins →
      ins.dur[0]? = some d → ins.vol[0]? = some g →
      fxStep cfg m t ch =
        .ok { ch with env := some { e with idx := 0, dur := .count d, goal := g, vol := g, start := g } })

/-- R190, R154, R153: the Delay step silences the note on tick 0 and restarts it on tick arg2; with arg2 = 0
tick 0 does both. -/
def Obligations.DelayStepSilencesThenRestarts : Prop :=
  ∀ (cfg : Config) (m : Memory) (t : BitVec 32) (ch : Channel) (a b : BitVec 4), ch.fx = .delay a b →
    (ch.env = none → fxStep cfg m t ch = .ok ch) ∧
    (∀ (e : EnvelopeNote) (ins : Instrument) (d : Nat) (g : Binary64), ch.env = some e →
      m[e.inst.toNat]? = some ins → ins.dur[0]? = some d →
      ins.vol[0]? = some g →
      (t.toNat = 0 → b ≠ 0 → fxStep cfg m t ch =
        .ok { ch with env := some { e with idx := ins.nodes, dur := .infinite, vol := .zero, goal := .zero } }) ∧
      (t.toNat = b.toNat → fxStep cfg m t ch =
        .ok { ch with env := some { e with idx := 0, dur := .count d, goal := g, vol := g, start := g } }) ∧
      (t.toNat ≠ 0 → t.toNat ≠ b.toNat → fxStep cfg m t ch = .ok ch))

/-- R144, R145: the transition enters the next node, or loopStart from past loopEnd while the note is live; from the
last node it enters past-end (R146). -/
def Obligations.TransitionEntersTheNextNode : Prop :=
  ∀ (ins : Instrument) (e : EnvelopeNote) (i : Nat),
    i = (if e.live = true ∧ ins.loopEnd < e.idx + 1 then ins.loopStart else e.idx + 1) →
    (ins.nodes ≤ i →
      envTransition ins e = .ok { e with idx := ins.nodes, dur := .infinite, vol := .zero }) ∧
    ∀ g d, i < ins.nodes → ins.vol[i]? = some g → ins.dur[i]? = some d →
      envTransition ins e = .ok { e with idx := i, start := e.vol, goal := g, dur := .count d }

/-- R143: the countdown is frozen past the end and in sustain-hold; otherwise "a node entered with dur = d is left at
the max(1, d)-th countdown event after its entry", and until then only the remaining duration changes. -/
def Obligations.NodeLeftAtItsLastCountdown : Prop :=
  ∀ (m : Memory) (e : EnvelopeNote) (ins : Instrument), m[e.inst.toNat]? = some ins →
    (ins.nodes ≤ e.idx ∨ (e.live = true ∧ e.idx = ins.sustain) → envCountdown m e = .ok e) ∧
    ∀ d : Nat, e.idx < ins.nodes → ¬(e.live = true ∧ e.idx = ins.sustain) → e.dur = .count d →
      (∀ k, k < max 1 d → countdowns m k e = .ok { e with dur := .count ((d : Int) - k) }) ∧
        countdowns m (max 1 d) e =
          envTransition ins { e with dur := .count ((d : Int) - (max 1 d : Nat)) }

/-- R145, R152, R157, as the spec infers them: a live note never enters past-end by a transition; a released note
reaches past-end after the events its remaining nodes hold, and not before. -/
def Obligations.OnlyReleasedNotesReachPastEnd : Prop :=
  (∀ (cfg : Config) (ins : Instrument) (e : EnvelopeNote), instrumentValid cfg ins = true → e.live = true →
    ∃ e', envTransition ins e = .ok e' ∧ e'.idx ≤ ins.loopEnd ∧ pastEnd ins e' = false) ∧
  ∀ (cfg : Config) (m : Memory) (e : EnvelopeNote) (ins : Instrument) (d : Nat),
    m[e.inst.toNat]? = some ins → instrumentValid cfg ins = true → e.live = false → e.idx < ins.nodes →
    e.dur = .count d →
    (∃ e', countdowns m (remainingEvents ins e d) e = .ok e' ∧ pastEnd ins e' = true ∧ e'.vol = .zero) ∧
      ∀ k, k < remainingEvents ins e d → ∃ e', countdowns m k e = .ok e' ∧ pastEnd ins e' = false

/-! ## Oscillators -/

/-- R104: one sample of a phase accumulator: the waveform of the phase before the advance, and the advance by 1
modulo `len`, subtracting once, with the guard of log 19; R105, R106, R107 and R108 give the waveform. -/
def Obligations.PhaseSampleReadsThenAdvances : Prop :=
  ∀ (cfg : Config) (a : PhaseAcc) (p s : Binary64) (b : PhaseAcc), p = Binary64.div a.off a.len →
    s = Binary64.add a.off .one →
    b = { a with off := if Binary64.le a.len s = true
      then (if Binary64.le a.len (Binary64.sub s a.len) = true then .zero else Binary64.sub s a.len) else s } →
    (∀ duty, (Osc.phase (.square duty) a).sample cfg =
      (if Binary64.le duty p = true then .one else Binary64.neg .one, .phase (.square duty) b)) ∧
    (Osc.phase .saw a).sample cfg = (Binary64.sub (Binary64.mul p (.ofNat 2)) .one, .phase .saw b) ∧
    (Osc.phase .sine a).sample cfg = (cfg.sineOut p, .phase .sine b) ∧
    (Osc.phase .triangle a).sample cfg =
      (Binary64.sub (Binary64.abs (Binary64.sub (Binary64.mul p (.ofNat 4)) (.ofNat 2))) .one,
        .phase .triangle b)

/-- R120, R121, R122: the noise oscillator counts, steps its register when the period is full, and gives +1 for bit 0
set and −1 otherwise; the step moves every bit down and puts bit 0 xor bit 1 at bit 14; the worked examples. -/
def Obligations.NoiseSampleCountsThenSteps : Prop :=
  (∀ (cfg : Config) (g : NoiseGen),
    (g.cnt + 1 < g.per →
      (Osc.noise g).sample cfg =
        (if g.lfsr.getLsbD 0 = true then .one else Binary64.neg .one, .noise { g with cnt := g.cnt + 1 })) ∧
    (g.per ≤ g.cnt + 1 →
      (Osc.noise g).sample cfg =
        (if (lfsrStep g.lfsr).getLsbD 0 = true then .one else Binary64.neg .one,
          .noise { g with cnt := 0, lfsr := lfsrStep g.lfsr }))) ∧
    (∀ r : BitVec 15, (lfsrStep r).getLsbD 14 = xor (r.getLsbD 0) (r.getLsbD 1) ∧
      ∀ j, j < 14 → (lfsrStep r).getLsbD j = r.getLsbD (j + 1)) ∧
    lfsrStep 0x0001 = 0x4000 ∧ lfsrStep 0x0002 = 0x4001 ∧ lfsrStep 0x4001 = 0x6000 ∧ lfsrStep 0x0003 = 0x0001

/-- R126: from seed 1 the register has period exactly 32767, never reaches 0, and has bit 0 set in 16384 of the
32767 states. -/
def Obligations.LfsrHasFullPeriod : Prop :=
  lfsrAfter 32767 1 = 1 ∧ (∀ k, 0 < k → k < 32767 → lfsrAfter k 1 ≠ 1) ∧ (∀ k, lfsrAfter k 1 ≠ 0) ∧
    lfsrOnes 32767 1 = 16384

/-- R111, for the waveforms a channel is bound to: the output ranges on a normalised phase. -/
def Obligations.WaveformsStayInRange : Prop :=
  ∀ (cfg : Config) (p : Binary64), p.inPhase = true →
    (∀ duty, (Shape.square duty).wave cfg p = .one ∨ (Shape.square duty).wave cfg p = Binary64.neg .one) ∧
    (Binary64.le (Binary64.neg .one) (Shape.saw.wave cfg p) = true ∧ Binary64.lt (Shape.saw.wave cfg p) .one = true) ∧
    (Binary64.le (Binary64.neg .one) (Shape.triangle.wave cfg p) = true ∧
      Binary64.le (Shape.triangle.wave cfg p) .one = true)

/-- R23, R104: the advance keeps 0 ≤ off < len. Its guard (log 19) changes what R104's pseudocode computes at one
operand only, len = 1 and off = 1 − 2^-53. -/
def Obligations.PhaseOffsetStaysBelowLength : Prop :=
  ∀ a : PhaseAcc, Binary64.le .zero a.off = true → Binary64.lt a.off a.len = true →
    Binary64.le .one a.len = true →
    (Binary64.le .zero a.advance.off = true ∧ Binary64.lt a.advance.off a.advance.len = true) ∧
    (a.len.isFinite = true → ¬(a.len = .one ∧ a.off = .ofBits 0x3FEFFFFFFFFFFFFF) → ∀ s,
      s = Binary64.add a.off .one →
      a.advance = { a with off := if Binary64.le a.len s = true then Binary64.sub s a.len else s })

/-- R104: a phase accumulator that stands at off = len, which R23 excludes, is brought back below it, so the
advance gives 0 ≤ off < len from every 0 ≤ off ≤ len. -/
def Obligations.PhaseOffsetStaysWithinLength : Prop :=
  ∀ a : PhaseAcc, Binary64.le .zero a.off = true → Binary64.le a.off a.len = true → a.len.isFinite = true →
    Binary64.le .one a.len = true →
    Binary64.le .zero a.advance.off = true ∧ Binary64.lt a.advance.off a.advance.len = true

/-! ## Frames -/

/-- R21, R63: an instruction that names a channel leaves every other channel alone. -/
def Obligations.OtherChannelsAreUntouched : Prop :=
  ∀ (i : Instr) (c d : Chan) (s t : State), i.channel = some c → exec i s = .next t → d ≠ c →
    t.chan d = s.chan d

/-- R53, R54: INSTR_LOAD is the only instruction that changes the instrument memory, and a table of more than 16
records does not change it either (log 7); no instruction touches the host's stream. -/
def Obligations.OnlyInstrLoadWritesTheMemory : Prop :=
  ∀ (i : Instr) (s t : State), exec i s = .next t →
    t.inbox = s.inbox ∧ ((∀ table, i ≠ .instrLoad table) → t.mem = s.mem) ∧
      (∀ table, i = .instrLoad table → 16 < table.length → t.mem = s.mem ∧ t.refused = true) ∧
      (i.channel = none → i ≠ .sample → (∀ u, i ≠ .tick u) → t.chans = s.chans)

/-- R34, R30, R21: the song volume is written only by SONG_VOLUME_SET and by effect kind 6; a channel's volume only by
VOLUME_SET, CHANNEL_RESET, CELL_VOLUME or a CELL whose word has the volume flag, on that channel. -/
def Obligations.VolumeWriters : Prop :=
  ∀ (i : Instr) (s t : State), exec i s = .next t →
    (t.songVol ≠ s.songVol → (∃ v, i = .songVolumeSet v) ∨ ∃ c v, i.effectOn c = some (.songVolume v)) ∧
    ∀ c : Chan, (t.chan c).cvol ≠ (s.chan c).cvol →
      (∃ v, i = .volumeSet c v) ∨ i = .channelReset c ∨ (∃ v, i = .cellVolume c v) ∨
        ∃ w r, i = .cell c w r ∧ (decodeCell w).vol ≠ none

/-- R31, R32, R33, R21: the effect slot changes only by a note-on or a dispatched effect, the base note only by a
note-on, and the loop bookmark only by CHANNEL_RESET and effect kind 1, each on its own channel. -/
def Obligations.EffectSlotBaseNoteAndBookmarkWriters : Prop :=
  ∀ (i : Instr) (c : Chan) (s t : State), exec i s = .next t →
    ((t.chan c).fx ≠ (s.chan c).fx →
      (∃ n k, i = .notePlay c n k) ∨ (∃ n k, i = .cellNoteOn c n k) ∨
        (∃ w r, i = .cell c w r ∧ (decodeCell w).note ≠ none ∧ (decodeCell w).inst ≠ none) ∨
        ∃ op, i.effectOn c = some op) ∧
    ((t.chan c).baseNote ≠ (s.chan c).baseNote →
      (∃ n k, i = .notePlay c n k) ∨ (∃ n k, i = .cellNoteOn c n k) ∨
        ∃ w r, i = .cell c w r ∧ (decodeCell w).note ≠ none ∧ (decodeCell w).inst ≠ none) ∧
    ((t.chan c).bookmark ≠ (s.chan c).bookmark →
      i = .channelReset c ∨ (∃ a, i.effectOn c = some (.loopSet a)) ∨
        ∃ a b, i.effectOn c = some (.loopRepeat a b))

/-- R26, R27, R141, R152, R171: a channel's EnvelopeNote changes only by SAMPLE, TICK, a note-on, a release or
CHANNEL_RESET, on that channel; no effect dispatch touches it. -/
def Obligations.EnvelopeWriters : Prop :=
  ∀ (i : Instr) (c : Chan) (s t : State), exec i s = .next t → (t.chan c).env ≠ (s.chan c).env →
    i = .sample ∨ (∃ u, i = .tick u) ∨ (∃ n k, i = .notePlay c n k) ∨ i = .noteEnd c ∨ i = .channelReset c ∨
      i = .cellNoteStop c ∨ (∃ n k, i = .cellNoteOn c n k) ∨
      ∃ w r, i = .cell c w r ∧ (decodeCell w).note ≠ none

/-- R172, R101, R103, R109, R104, R192: a channel's oscillator changes only by SAMPLE, TICK, a note-on, an effect
dispatch (its teardown) and the three oscillator commands, on that channel. -/
def Obligations.OscillatorWriters : Prop :=
  ∀ (i : Instr) (c : Chan) (s t : State), exec i s = .next t → (t.chan c).osc ≠ (s.chan c).osc →
    i = .sample ∨ (∃ u, i = .tick u) ∨ (∃ n k, i = .notePlay c n k) ∨ (∃ n k, i = .cellNoteOn c n k) ∨
      (∃ w r, i = .cell c w r ∧ (decodeCell w).note ≠ none ∧ (decodeCell w).inst ≠ none) ∨
      (∃ op, i.effectOn c = some op) ∨ (∃ n, i = .oscNoteSet c n) ∨ (∃ f, i = .oscSetFrequency c f) ∨
      ∃ d, i = .oscSetDuty c d

/-- R124: no instruction but SAMPLE writes the noise register. -/
def Obligations.OnlySampleWritesTheLfsr : Prop :=
  ∀ (i : Instr) (c : Chan) (s t : State), exec i s = .next t → i ≠ .sample →
    (t.chan c).osc.lfsr? = (s.chan c).osc.lfsr?

/-! ## Rules of the whole block -/

/-- R243: a refused command sets the mark and reports its reason, changes nothing else, and drives neither `out` nor
`req`; a command that is not refused leaves the mark as it was; no step clears it. -/
def Obligations.RefusalChangesOnlyTheMark : Prop :=
  (∀ (i : Instr) (s t : State), exec i s = .next t →
    (∀ r, t.ports.reason = some r →
      t = { s with refused := true, ports := ⟨none, none, none, some r⟩ }) ∧
    (t.ports.reason = none → t.refused = s.refused)) ∧
  (∀ (r : RefuseReason) (s : State),
    runDecoded (.error r) s = .next { s with refused := true, ports := ⟨none, none, none, some r⟩ }) ∧
  ∀ s t : State, s.refused = true → step s = .next t → t.refused = true

/-- R22 to R25, R30, R32, R50, R52, R148, R178, R179: a step from a state that meets the invariant leaves one
that meets it. -/
def Obligations.StepKeepsTheInvariant : Prop :=
  ∀ s t : State, s.Inv → step s = .next t → t.Inv

/-- R54, R148, R240: no state that meets the invariant reaches a fault or a stop: every instruction and every
step answers a next state. -/
def Obligations.NothingStopsTheBlock : Prop :=
  ∀ s : State, s.Inv → (∃ t, step s = .next t) ∧ ∀ i : Instr, ∃ t, exec i s = .next t

/-- R29, R40: `start` is read by no rule: two states that differ only in it run alike, ports included. -/
def Obligations.StartIsNeverObserved : Prop :=
  ∀ (i : Instr) (s s' : State), s.forgetStart = s'.forgetStart →
    match exec i s, exec i s' with
    | .next t, .next t' => t.forgetStart = t'.forgetStart ∧ t.ports = t'.ports
    | .fault f, .fault f' => f = f'
    | .refused r, .refused r' => r = r'
    | _, _ => False

/-- R181, R264, R185: with no note on any channel SAMPLE moves nothing and drives +0 times the song volume, which
is +0 for a song volume of positive sign. -/
def Obligations.SilentBlockDrivesZero : Prop :=
  ∀ s : State, (∀ c, (s.chan c).env = none) →
    exec .sample s = .next (s.driveOut (Binary64.mul .zero s.songVol)) ∧
      ∀ m, s.songVol = .fin false m → exec .sample s = .next (s.driveOut .zero)

/-- R265, R88: LOAD_SONG with an admitted table and volume completes from every state, and leaves the table loaded,
the volume set (to 1 where the payload has none), the mark as it was and every channel without a note. -/
def Obligations.LoadSongCompletes : Prop :=
  ∀ (s : State) (table : List Instrument) (v : Option (BitVec 64)), Memory.wf Config.hw table = true →
    (∀ x, v = some x → (Binary64.ofBits x).inUnit = true) →
    ∃ t, execAll (loadSong table v) s = .next t ∧ t.mem = table ∧
      (∀ x, v = some x → t.songVol = .ofBits x) ∧ (v = none → t.songVol = .one) ∧ t.refused = s.refused ∧
      ∀ c, (t.chan c).env = none ∧ (t.chan c).cvol = .one ∧ (t.chan c).bookmark = none
end

