-- ==== Sys2Proof/Laws/State.lean ====
section
/-!
SUPPORT. Sys2Proof/Laws/State.lean: one lemma per field per update of the state, so that no proof unfolds a record
update.
-/

namespace Sys2Proof.Machine

@[simp] theorem Channels.get_set (cs : Channels) (c d : Chan) (x : Channel) :
    (cs.set c x).get d = if d = c then x else cs.get d := by
  cases c <;> cases d <;> rfl

@[simp] theorem Channels.set_get (cs : Channels) (c : Chan) : cs.set c (cs.get c) = cs := by
  cases c <;> rfl

@[simp] theorem Channels.set_set (cs : Channels) (c : Chan) (x y : Channel) :
    (cs.set c x).set c y = cs.set c y := by
  cases c <;> rfl

theorem Channels.ext_get {cs ds : Channels} (h : ∀ c, cs.get c = ds.get c) : cs = ds := by
  cases cs; cases ds
  have h0 := h .c0; have h1 := h .c1; have h2 := h .c2; have h3 := h .c3; have h4 := h .c4
  simp only [Channels.get] at h0 h1 h2 h3 h4
  subst h0; subst h1; subst h2; subst h3; subst h4
  rfl

@[simp] theorem State.chans_get (s : State) (c : Chan) : s.chans.get c = s.chan c := rfl

@[simp] theorem State.chan_setChan (s : State) (c d : Chan) (x : Channel) :
    (s.setChan c x).chan d = if d = c then x else s.chan d := Channels.get_set _ _ _ _

@[simp] theorem State.setChan_chan (s : State) (c : Chan) : s.setChan c (s.chan c) = s := by
  cases s; simp [State.setChan, State.chan]

@[simp] theorem State.setChan_setChan (s : State) (c : Chan) (x y : Channel) :
    (s.setChan c x).setChan c y = s.setChan c y := by
  simp [State.setChan]

@[simp] theorem State.setChan_chans (s : State) (c : Chan) (x : Channel) : (s.setChan c x).chans = s.chans.set c x := rfl
@[simp] theorem State.setChan_songVol (s : State) (c : Chan) (x : Channel) : (s.setChan c x).songVol = s.songVol := rfl
@[simp] theorem State.setChan_refused (s : State) (c : Chan) (x : Channel) : (s.setChan c x).refused = s.refused := rfl
@[simp] theorem State.setChan_mem (s : State) (c : Chan) (x : Channel) : (s.setChan c x).mem = s.mem := rfl
@[simp] theorem State.setChan_ports (s : State) (c : Chan) (x : Channel) : (s.setChan c x).ports = s.ports := rfl
@[simp] theorem State.setChan_inbox (s : State) (c : Chan) (x : Channel) : (s.setChan c x).inbox = s.inbox := rfl

@[simp] theorem State.quiet_chans (s : State) : s.quiet.chans = s.chans := rfl
@[simp] theorem State.quiet_songVol (s : State) : s.quiet.songVol = s.songVol := rfl
@[simp] theorem State.quiet_refused (s : State) : s.quiet.refused = s.refused := rfl
@[simp] theorem State.quiet_mem (s : State) : s.quiet.mem = s.mem := rfl
@[simp] theorem State.quiet_ports (s : State) : s.quiet.ports = Ports.idle := rfl
@[simp] theorem State.quiet_inbox (s : State) : s.quiet.inbox = s.inbox := rfl
@[simp] theorem State.chan_quiet (s : State) (d : Chan) : s.quiet.chan d = s.chan d := rfl

@[simp] theorem State.driveOut_chans (s : State) (v : Binary64) : (s.driveOut v).chans = s.chans := rfl
@[simp] theorem State.driveOut_songVol (s : State) (v : Binary64) : (s.driveOut v).songVol = s.songVol := rfl
@[simp] theorem State.driveOut_refused (s : State) (v : Binary64) : (s.driveOut v).refused = s.refused := rfl
@[simp] theorem State.driveOut_mem (s : State) (v : Binary64) : (s.driveOut v).mem = s.mem := rfl
@[simp] theorem State.driveOut_ports (s : State) (v : Binary64) : (s.driveOut v).ports = { Ports.idle with out := some v } := rfl
@[simp] theorem State.driveOut_inbox (s : State) (v : Binary64) : (s.driveOut v).inbox = s.inbox := rfl
@[simp] theorem State.chan_driveOut (s : State) (v : Binary64) (d : Chan) : (s.driveOut v).chan d = s.chan d := rfl

@[simp] theorem State.driveReq_chans (s : State) (q : Request) : (s.driveReq q).chans = s.chans := rfl
@[simp] theorem State.driveReq_songVol (s : State) (q : Request) : (s.driveReq q).songVol = s.songVol := rfl
@[simp] theorem State.driveReq_refused (s : State) (q : Request) : (s.driveReq q).refused = s.refused := rfl
@[simp] theorem State.driveReq_mem (s : State) (q : Request) : (s.driveReq q).mem = s.mem := rfl
@[simp] theorem State.driveReq_ports (s : State) (q : Request) : (s.driveReq q).ports = { Ports.idle with req := some q, jumped := some q.isJump } := rfl
@[simp] theorem State.driveReq_inbox (s : State) (q : Request) : (s.driveReq q).inbox = s.inbox := rfl
@[simp] theorem State.chan_driveReq (s : State) (q : Request) (d : Chan) : (s.driveReq q).chan d = s.chan d := rfl

@[simp] theorem State.refuse_chans (s : State) (r : RefuseReason) : (s.refuse r).chans = s.chans := rfl
@[simp] theorem State.refuse_songVol (s : State) (r : RefuseReason) : (s.refuse r).songVol = s.songVol := rfl
@[simp] theorem State.refuse_refused (s : State) (r : RefuseReason) : (s.refuse r).refused = true := rfl
@[simp] theorem State.refuse_mem (s : State) (r : RefuseReason) : (s.refuse r).mem = s.mem := rfl
@[simp] theorem State.refuse_ports (s : State) (r : RefuseReason) : (s.refuse r).ports = { Ports.idle with reason := some r } := rfl
@[simp] theorem State.refuse_inbox (s : State) (r : RefuseReason) : (s.refuse r).inbox = s.inbox := rfl
@[simp] theorem State.chan_refuse (s : State) (r : RefuseReason) (d : Chan) : (s.refuse r).chan d = s.chan d := rfl

@[simp] theorem State.loadInstruments_chans (s : State) (t : List Instrument) : (s.loadInstruments t).chans = s.chans := rfl
@[simp] theorem State.loadInstruments_songVol (s : State) (t : List Instrument) : (s.loadInstruments t).songVol = s.songVol := rfl
@[simp] theorem State.loadInstruments_refused (s : State) (t : List Instrument) : (s.loadInstruments t).refused = s.refused := rfl
@[simp] theorem State.loadInstruments_mem (s : State) (t : List Instrument) : (s.loadInstruments t).mem = t := rfl
@[simp] theorem State.loadInstruments_ports (s : State) (t : List Instrument) : (s.loadInstruments t).ports = s.ports := rfl
@[simp] theorem State.loadInstruments_inbox (s : State) (t : List Instrument) : (s.loadInstruments t).inbox = s.inbox := rfl
@[simp] theorem State.chan_loadInstruments (s : State) (t : List Instrument) (d : Chan) : (s.loadInstruments t).chan d = s.chan d := rfl

@[simp] theorem State.setChans_chans (s : State) (cs : Channels) : (s.setChans cs).chans = cs := rfl
@[simp] theorem State.setChans_songVol (s : State) (cs : Channels) : (s.setChans cs).songVol = s.songVol := rfl
@[simp] theorem State.setChans_refused (s : State) (cs : Channels) : (s.setChans cs).refused = s.refused := rfl
@[simp] theorem State.setChans_mem (s : State) (cs : Channels) : (s.setChans cs).mem = s.mem := rfl
@[simp] theorem State.setChans_ports (s : State) (cs : Channels) : (s.setChans cs).ports = s.ports := rfl
@[simp] theorem State.setChans_inbox (s : State) (cs : Channels) : (s.setChans cs).inbox = s.inbox := rfl
@[simp] theorem State.chan_setChans (s : State) (cs : Channels) (d : Chan) : (s.setChans cs).chan d = cs.get d := rfl

@[simp] theorem State.setSongVol_chans (s : State) (v : Binary64) : (s.setSongVol v).chans = s.chans := rfl
@[simp] theorem State.setSongVol_songVol (s : State) (v : Binary64) : (s.setSongVol v).songVol = v := rfl
@[simp] theorem State.setSongVol_refused (s : State) (v : Binary64) : (s.setSongVol v).refused = s.refused := rfl
@[simp] theorem State.setSongVol_mem (s : State) (v : Binary64) : (s.setSongVol v).mem = s.mem := rfl
@[simp] theorem State.setSongVol_ports (s : State) (v : Binary64) : (s.setSongVol v).ports = s.ports := rfl
@[simp] theorem State.setSongVol_inbox (s : State) (v : Binary64) : (s.setSongVol v).inbox = s.inbox := rfl
@[simp] theorem State.chan_setSongVol (s : State) (v : Binary64) (d : Chan) : (s.setSongVol v).chan d = s.chan d := rfl

@[simp] theorem finish_ok (s : State) : finish (.ok s) = .next s := rfl
@[simp] theorem finish_error (f : Fault) : finish (.error f) = .fault f := rfl

/-- A computation that finishes in a next state computed it. -/
theorem finish_eq_next {x : Except Fault State} {t : State} : finish x = .next t ↔ x = .ok t := by
  cases x <;> simp

/-- A computation never ends in a refusal. -/
theorem finish_ne_refused (x : Except Fault State) (r : Refusal) : finish x ≠ .refused r := by
  cases x <;> simp [finish]

/-- An Except bind answers ok exactly when both parts do. -/
theorem except_bind_ok {ε α β : Type} {x : Except ε α} {f : α → Except ε β} {b : β} :
    (x >>= f) = .ok b ↔ ∃ a, x = .ok a ∧ f a = .ok b := by
  cases x <;> simp [bind, Except.bind]

@[simp] theorem except_ok_bind {ε α β : Type} (a : α) (f : α → Except ε β) :
    ((Except.ok a : Except ε α) >>= f) = f a := rfl

@[simp] theorem except_error_bind {ε α β : Type} (e : ε) (f : α → Except ε β) :
    ((Except.error e : Except ε α) >>= f) = .error e := rfl

@[simp] theorem except_pure {ε α : Type} (a : α) : (pure a : Except ε α) = .ok a := rfl

end Sys2Proof.Machine
end

