-- ==== Sys2Proof/Laws/Memory.lean ====
section
/-!
SUPPORT. Sys2Proof/Laws/Memory.lean: the instrument memory: what a canonical memory gives its readers, and that every
operation on it keeps the canonical form.
-/

namespace Sys2Proof.Machine

/-- What the admission of a record says (20_memory.md R51, R52). -/
theorem instrumentValid_iff {cfg : Config} {ins : Instrument} :
    instrumentValid cfg ins = true ↔
      ins.dur.length = ins.vol.length ∧ (∀ v ∈ ins.vol, v.isFinite = true) ∧ ins.loopStart ≤ ins.loopEnd ∧
        ins.loopEnd < ins.nodes ∧ ins.sustain < ins.nodes ∧ ins.nodes ≤ cfg.maxNodes := by
  simp [instrumentValid, and_assoc]

theorem Memory.wf_iff {cfg : Config} {m : Memory} :
    Memory.wf cfg m = true ↔ m.length ≤ Config.instrSlots ∧ ∀ ins ∈ m, instrumentValid cfg ins = true := by
  simp [Memory.wf]

/-- Each record of a canonical memory is admitted. -/
theorem Memory.wf_valid {cfg : Config} {m : Memory} (h : Memory.wf cfg m = true) {i : Nat} {ins : Instrument}
    (hi : m[i]? = some ins) : instrumentValid cfg ins = true :=
  (Memory.wf_iff.1 h).2 ins (List.mem_of_getElem? hi)

/-- The empty memory of power-on is canonical. -/
theorem Memory.wf_reset (cfg : Config) : Memory.wf cfg State.reset.mem = true := rfl

/-- INSTR_LOAD's write of an admitted table leaves a canonical memory. -/
theorem Memory.wf_loadInstruments {cfg : Config} {s : State} {table : List Instrument}
    (h : Memory.wf cfg table = true) : Memory.wf cfg (s.loadInstruments table).mem = true := h

/-- INSTR_LOAD as a whole keeps the canonical form. -/
theorem Memory.wf_instrLoad {cfg : Config} {s : State} (table : List Instrument)
    (h : Memory.wf cfg s.mem = true) : Memory.wf cfg (instrLoadWith cfg table s).mem = true := by
  unfold instrLoadWith
  split
  · exact h
  · split
    · assumption
    · exact h

/-- An index below ninst resolves to a record, and no other does (20_memory.md R50). -/
theorem resolves_iff {m : Memory} {k : BitVec 4} : resolves m k = true ↔ ∃ ins, m[k.toNat]? = some ins := by
  rw [resolves, decide_eq_true_iff]
  exact ⟨fun h => ⟨_, List.getElem?_eq_getElem h⟩, fun ⟨_, h⟩ => (List.getElem?_eq_some_iff.1 h).1⟩

@[simp] theorem Memory.record_eq {m : Memory} {k : BitVec 4} {ins : Instrument} (h : m[k.toNat]? = some ins) :
    m.record k = .ok ins := by
  simp [Memory.record, h]

theorem Memory.record_eq_ok {m : Memory} {k : BitVec 4} {ins : Instrument} :
    m.record k = .ok ins ↔ m[k.toNat]? = some ins := by
  unfold Memory.record
  cases m[k.toNat]? <;> simp

/-- A node below N has a volume. -/
theorem Memory.nodeVol_eq {ins : Instrument} {k : BitVec 4} {i : Nat} (h : i < ins.nodes) :
    Memory.nodeVol ins k i = .ok (ins.vol[i]'h) := by
  have : ins.vol[i]? = some (ins.vol[i]'h) := List.getElem?_eq_getElem h
  simp [Memory.nodeVol, this]

/-- A node below N of an admitted record has a duration. -/
theorem Memory.nodeDur_eq {cfg : Config} {ins : Instrument} {k : BitVec 4} {i : Nat}
    (hv : instrumentValid cfg ins = true) (h : i < ins.nodes) :
    ∃ d, ins.dur[i]? = some d ∧ Memory.nodeDur ins k i = .ok (.count d) := by
  have hl : i < ins.dur.length := by rw [(instrumentValid_iff.1 hv).1]; exact h
  exact ⟨ins.dur[i], List.getElem?_eq_getElem hl, by simp [Memory.nodeDur, List.getElem?_eq_getElem hl]⟩

theorem Memory.nodeVol_eq_ok {ins : Instrument} {k : BitVec 4} {i : Nat} {v : Binary64} :
    Memory.nodeVol ins k i = .ok v ↔ ins.vol[i]? = some v := by
  unfold Memory.nodeVol
  cases ins.vol[i]? <;> simp

theorem Memory.nodeDur_eq_ok {ins : Instrument} {k : BitVec 4} {i : Nat} {d : Dur} :
    Memory.nodeDur ins k i = .ok d ↔ ∃ n, ins.dur[i]? = some n ∧ d = .count n := by
  unfold Memory.nodeDur
  cases ins.dur[i]? <;> simp [eq_comm]

end Sys2Proof.Machine
end

