-- ==== Sys2Proof/Laws/Envelope.lean ====
section
/-!
SUPPORT. Sys2Proof/Laws/Envelope.lean: each operation of the EnvelopeNote state machine, once: when it answers, what it
answers, and that it keeps `EnvelopeNote.ok`.
-/

namespace Sys2Proof.Machine

variable {cfg : Config} {m : Memory} {e : EnvelopeNote} {ins : Instrument}

theorem pastEnd_iff : pastEnd ins e = true ↔ ins.nodes ≤ e.idx := by simp [pastEnd]

theorem holding_iff : holding ins e = true ↔ e.live = true ∧ e.idx = ins.sustain := by simp [holding]

/-- A held note is not past the end (10_state.md R28). -/
theorem not_pastEnd_of_holding (hv : instrumentValid cfg ins = true) (h : holding ins e = true) :
    pastEnd ins e = false := by
  have hs := (instrumentValid_iff.1 hv).2.2.2.2.1
  have hi := (holding_iff.1 h).2
  simp [pastEnd]; omega

/-- A new note (41_envelope.md R141) of an instrument that resolves. -/
theorem envCreate_eq (hv : instrumentValid cfg ins = true) {k : BitVec 4} (hk : m[k.toNat]? = some ins)
    (carried : Binary64) :
    ∃ (d : Nat) (g : Binary64), ins.dur[0]? = some d ∧ ins.vol[0]? = some g ∧
      envCreate m k carried = .ok ⟨k, 0, .count d, carried, g, carried, true⟩ := by
  have hn : 0 < ins.nodes := by have := (instrumentValid_iff.1 hv).2.2.2.2.1; omega
  obtain ⟨d, hd, hde⟩ := Memory.nodeDur_eq (k := k) hv hn
  refine ⟨d, ins.vol[0]'hn, hd, List.getElem?_eq_getElem hn, ?_⟩
  simp [envCreate, Memory.record_eq hk, hde, Memory.nodeVol_eq hn]

theorem envCreate_ok (hw : Memory.wf cfg m = true) {k : BitVec 4} (hk : resolves m k = true)
    (carried : Binary64) : ∃ e, envCreate m k carried = .ok e ∧ e.ok m := by
  obtain ⟨ins, hi⟩ := resolves_iff.1 hk
  have hv := Memory.wf_valid hw hi
  obtain ⟨d, g, _, _, he⟩ := envCreate_eq hv hi carried
  have hn : 0 < ins.nodes := by have := (instrumentValid_iff.1 hv).2.2.2.2.1; omega
  exact ⟨_, he, ins, hi, Nat.zero_le _, hn, by simp⟩

/-- The node a transition enters, or the end it passes (41_envelope.md R144, R146). -/
theorem envTransition_past (h : ins.nodes ≤ nextIdx ins e) :
    envTransition ins e = .ok (envEnterPastEnd ins e) := by
  simp [envTransition, h, envEnterPastEnd]

theorem envTransition_enter (hv : instrumentValid cfg ins = true) (h : nextIdx ins e < ins.nodes) :
    ∃ (d : Nat) (g : Binary64), ins.dur[nextIdx ins e]? = some d ∧ ins.vol[nextIdx ins e]? = some g ∧
      envTransition ins e =
        .ok { e with idx := nextIdx ins e, start := e.vol, goal := g, dur := .count d } := by
  obtain ⟨d, hd, hde⟩ := Memory.nodeDur_eq (k := e.inst) hv h
  refine ⟨d, ins.vol[nextIdx ins e]'h, hd, List.getElem?_eq_getElem h, ?_⟩
  simp [envTransition, not_le.2 h, Memory.nodeVol_eq h, hde]

/-- A transition always answers, keeps the instrument and `live`, and leaves a note in range. -/
theorem envTransition_ok (hv : instrumentValid cfg ins = true) (hi : m[e.inst.toNat]? = some ins) :
    ∃ e', envTransition ins e = .ok e' ∧ e'.ok m ∧ e'.inst = e.inst ∧ e'.live = e.live := by
  by_cases h : ins.nodes ≤ nextIdx ins e
  · exact ⟨_, envTransition_past h, ⟨ins, hi, le_rfl, le_rfl⟩, rfl, rfl⟩
  · obtain ⟨d, g, _, _, he⟩ := envTransition_enter hv (not_le.1 h)
    exact ⟨_, he, ⟨ins, hi, (not_le.1 h).le, not_le.1 h, by simp⟩, rfl, rfl⟩

/-- The countdown is frozen past the end and in sustain-hold (41_envelope.md R143). -/
theorem envCountdown_frozen (hi : m[e.inst.toNat]? = some ins)
    (h : pastEnd ins e = true ∨ holding ins e = true) : envCountdown m e = .ok e := by
  rcases h with h | h <;> simp [envCountdown, Memory.record_eq hi, h]

/-- Otherwise it is decremented and then tested (41_envelope.md R143). -/
theorem envCountdown_run (hi : m[e.inst.toNat]? = some ins) (hp : pastEnd ins e = false)
    (hh : holding ins e = false) :
    envCountdown m e =
      if e.dur.decrement.expired then envTransition ins { e with dur := e.dur.decrement }
      else .ok { e with dur := e.dur.decrement } := by
  simp [envCountdown, Memory.record_eq hi, hp, hh]

/-- A countdown answers on a note in range and keeps it in range. -/
theorem envCountdown_ok (hw : Memory.wf cfg m = true) (he : e.ok m) :
    ∃ e', envCountdown m e = .ok e' ∧ e'.ok m ∧ e'.inst = e.inst ∧ e'.live = e.live := by
  obtain ⟨ins, hi, hidx, hd⟩ := id he
  have hv := Memory.wf_valid hw hi
  by_cases hf : pastEnd ins e = true ∨ holding ins e = true
  · exact ⟨e, envCountdown_frozen hi hf, he, rfl, rfl⟩
  · simp only [not_or, Bool.not_eq_true] at hf
    rw [envCountdown_run hi hf.1 hf.2]
    have hlt : e.idx < ins.nodes := by have := hf.1; simp [pastEnd] at this; omega
    split
    · obtain ⟨e', h', hk, hin, hl⟩ := envTransition_ok (m := m) (e := { e with dur := e.dur.decrement }) hv hi
      exact ⟨e', h', hk, hin, hl⟩
    · rename_i hx
      refine ⟨_, rfl, ⟨ins, hi, hidx, ?_⟩, rfl, rfl⟩
      cases hdur : e.dur with
      | infinite => rw [hdur] at hd; dsimp only at hd; omega
      | count n =>
        simp only [hdur, Dur.decrement, Dur.expired, decide_eq_true_eq] at hx ⊢
        exact ⟨hlt, by omega⟩

/-- The output part of `envSample` in its three cases (41_envelope.md R149 to R151). -/
theorem envOutput_pastEnd (hi : m[e.inst.toNat]? = some ins) (h : pastEnd ins e = true) :
    envOutput m e = .ok (.zero, e) := by
  simp [envOutput, Memory.record_eq hi, h]

theorem envOutput_holding (hi : m[e.inst.toNat]? = some ins) (hp : pastEnd ins e = false)
    (h : holding ins e = true) {v : Binary64} (hv : ins.vol[e.idx]? = some v) :
    envOutput m e = .ok (v, { e with vol := v }) := by
  simp [envOutput, Memory.record_eq hi, hp, h, Memory.nodeVol, hv]

theorem envOutput_traversing (hi : m[e.inst.toNat]? = some ins) (hp : pastEnd ins e = false)
    (h : holding ins e = false) : envOutput m e = .ok (volumeStep e, { e with vol := volumeStep e }) := by
  simp [envOutput, Memory.record_eq hi, hp, h]

/-- The output part changes no field of the note but `vol`, and answers on a note in range. -/
theorem envOutput_ok (hw : Memory.wf cfg m = true) (he : e.ok m) :
    ∃ v w, envOutput m e = .ok (v, { e with vol := w }) := by
  obtain ⟨ins, hi, hidx, hd⟩ := id he
  have hv := Memory.wf_valid hw hi
  by_cases hp : pastEnd ins e = true
  · exact ⟨_, _, envOutput_pastEnd hi hp⟩
  · by_cases hh : holding ins e = true
    · have hs : e.idx < ins.nodes := by simpa [pastEnd] using hp
      exact ⟨_, _, envOutput_holding hi (by simpa using hp) hh (List.getElem?_eq_getElem hs)⟩
    · exact ⟨_, _, envOutput_traversing hi (by simpa using hp) (by simpa using hh)⟩

theorem EnvelopeNote.ok_vol (he : e.ok m) (w : Binary64) : ({ e with vol := w } : EnvelopeNote).ok m := he

theorem countdownOn_ok (clock : CountClock) (hw : Memory.wf cfg m = true) (he : e.ok m) :
    ∃ e', countdownOn cfg clock m e = .ok e' ∧ e'.ok m ∧ e'.inst = e.inst ∧ e'.live = e.live := by
  unfold countdownOn
  split
  · exact envCountdown_ok hw he
  · exact ⟨e, rfl, he, rfl, rfl⟩

/-- `envSample` answers on a note in range and keeps it in range. -/
theorem envSample_ok (hw : Memory.wf cfg m = true) (he : e.ok m) :
    ∃ v e', envSample cfg m e = .ok (v, e') ∧ e'.ok m := by
  obtain ⟨e₁, h₁, ho, _, _⟩ := countdownOn_ok .sample hw he
  obtain ⟨v, w, h₂⟩ := envOutput_ok hw ho
  exact ⟨v, _, by simp [envSample, h₁, h₂], EnvelopeNote.ok_vol ho w⟩

/-- A retrigger (41_envelope.md R153) of a note whose instrument resolves. -/
theorem envRetrigger_eq (hv : instrumentValid cfg ins = true) (hi : m[e.inst.toNat]? = some ins) :
    ∃ (d : Nat) (g : Binary64), ins.dur[0]? = some d ∧ ins.vol[0]? = some g ∧
      envRetrigger m e = .ok { e with idx := 0, dur := .count d, goal := g, vol := g, start := g } := by
  have hn : 0 < ins.nodes := by have := (instrumentValid_iff.1 hv).2.2.2.2.1; omega
  obtain ⟨d, hd, hde⟩ := Memory.nodeDur_eq (k := e.inst) hv hn
  refine ⟨d, ins.vol[0]'hn, hd, List.getElem?_eq_getElem hn, ?_⟩
  simp [envRetrigger, Memory.record_eq hi, hde, Memory.nodeVol_eq hn]

theorem envRetrigger_ok (hw : Memory.wf cfg m = true) (he : e.ok m) :
    ∃ e', envRetrigger m e = .ok e' ∧ e'.ok m := by
  obtain ⟨ins, hi, _, _⟩ := he
  have hv := Memory.wf_valid hw hi
  obtain ⟨d, g, _, _, h⟩ := envRetrigger_eq hv hi
  have hn : 0 < ins.nodes := by have := (instrumentValid_iff.1 hv).2.2.2.2.1; omega
  exact ⟨_, h, ins, hi, Nat.zero_le _, hn, by simp⟩

/-- Silencing (41_envelope.md R154). -/
theorem envSilence_eq (hi : m[e.inst.toNat]? = some ins) :
    envSilence m e = .ok { e with idx := ins.nodes, dur := .infinite, vol := .zero, goal := .zero } := by
  simp [envSilence, Memory.record_eq hi]

theorem envSilence_ok (he : e.ok m) : ∃ e', envSilence m e = .ok e' ∧ e'.ok m := by
  obtain ⟨ins, hi, _, _⟩ := he
  exact ⟨_, envSilence_eq hi, ins, hi, le_rfl, le_rfl⟩

/-- A release keeps a note in range (41_envelope.md R152). -/
theorem envCut_ok (he : e.ok m) : (envCut e).ok m := he

end Sys2Proof.Machine
end

