-- ==== Sys2Proof/Laws/Num.lean ====
section
/-!
SUPPORT. Sys2Proof/Laws/Num.lean: rounding is monotone and keeps what is representable, so order facts about the
binary64 operations follow from order facts about whole numbers of units.
-/

namespace Sys2Proof
namespace Binary64

theorem oneUnits_pos : 0 < oneUnits := by unfold oneUnits; positivity

theorem roundQuot_ge (num den : Nat) : num / den ≤ roundQuot num den := by
  unfold roundQuot; split
  · exact le_rfl
  · split <;> omega

theorem roundQuot_le (num den : Nat) : roundQuot num den ≤ num / den + 1 := by
  unfold roundQuot; split
  · omega
  · split <;> omega

/-- A smaller quotient has a whole part that is not larger. -/
theorem div_le_div_of_cross {n₁ d₁ n₂ d₂ : Nat} (h₁ : 0 < d₁) (h₂ : 0 < d₂) (h : n₁ * d₂ ≤ n₂ * d₁) :
    n₁ / d₁ ≤ n₂ / d₂ := by
  rw [Nat.le_div_iff_mul_le h₂]
  have hq : n₁ / d₁ * d₁ ≤ n₁ := Nat.div_mul_le_self n₁ d₁
  have : n₁ / d₁ * d₂ * d₁ ≤ n₂ * d₁ := by
    calc n₁ / d₁ * d₂ * d₁ = n₁ / d₁ * d₁ * d₂ := by ring
      _ ≤ n₁ * d₂ := Nat.mul_le_mul_right _ hq
      _ ≤ n₂ * d₁ := h
  exact Nat.le_of_mul_le_mul_right this h₁

theorem roundQuot_mono {n₁ d₁ n₂ d₂ : Nat} (h₁ : 0 < d₁) (h₂ : 0 < d₂) (h : n₁ * d₂ ≤ n₂ * d₁) :
    roundQuot n₁ d₁ ≤ roundQuot n₂ d₂ := by
  rcases Nat.lt_or_eq_of_le (div_le_div_of_cross h₁ h₂ h) with hq | hq
  · exact (roundQuot_le n₁ d₁).trans ((Nat.succ_le_of_lt hq).trans (roundQuot_ge n₂ d₂))
  · have e₁ := Nat.div_add_mod n₁ d₁
    have e₂ := Nat.div_add_mod n₂ d₂
    -- the remainders keep the order of the quotients
    have hr : n₁ % d₁ * d₂ ≤ n₂ % d₂ * d₁ := by
      have hq' : d₁ * (n₁ / d₁) * d₂ = d₂ * (n₂ / d₂) * d₁ := by rw [hq]; ring
      nlinarith [h, e₁, e₂, hq']
    have low : 2 * (n₂ % d₂) < d₂ → 2 * (n₁ % d₁) < d₁ := fun hl => by
      have : 2 * (n₁ % d₁) * d₂ < d₁ * d₂ := by nlinarith
      exact Nat.lt_of_mul_lt_mul_right this
    have tie : 2 * (n₂ % d₂) ≤ d₂ → 2 * (n₁ % d₁) ≤ d₁ := fun hl => by
      have : 2 * (n₁ % d₁) * d₂ ≤ d₁ * d₂ := by nlinarith
      exact Nat.le_of_mul_le_mul_right this h₂
    unfold roundQuot
    rw [hq]
    by_cases a₂ : 2 * (n₂ % d₂) < d₂
    · simp [a₂, low a₂]
    · by_cases b₂ : d₂ < 2 * (n₂ % d₂)
      · simp only [a₂, b₂, if_true, if_false]
        split
        · omega
        · split <;> omega
      · have b₁ : ¬ d₁ < 2 * (n₁ % d₁) := by have := tie (by omega); omega
        simp only [a₂, b₂, b₁, if_false]
        split <;> omega

theorem scaleOf_mono {p q : Nat} (h : p ≤ q) : scaleOf p ≤ scaleOf q := by
  unfold scaleOf
  have : Nat.log2 p ≤ Nat.log2 q := by
    rw [Nat.log2_eq_log_two, Nat.log2_eq_log_two]; exact Nat.log_mono_right h
  omega

/-- At its scale a magnitude stays below 2^53 places. -/
theorem div_scale_lt (q : Nat) : q / 2 ^ scaleOf q < 2 ^ 53 := by
  rw [Nat.div_lt_iff_lt_mul (by positivity), ← pow_add]
  rcases Nat.eq_zero_or_pos q with rfl | hq
  · positivity
  · refine lt_of_lt_of_le (Nat.lt_log2_self (n := q)) (Nat.pow_le_pow_right (by norm_num) ?_)
    unfold scaleOf; omega

/-- A scaled magnitude has at least 2^52 places. -/
theorem le_div_scale {q : Nat} (h : 0 < scaleOf q) : 2 ^ 52 ≤ q / 2 ^ scaleOf q := by
  have hq : q ≠ 0 := by rintro rfl; simp [scaleOf] at h
  rw [Nat.le_div_iff_mul_le (by positivity), ← pow_add]
  have : 52 + scaleOf q = Nat.log2 q := by unfold scaleOf at h ⊢; omega
  rw [this]
  exact Nat.log2_self_le hq

theorem roundMag_mono {n₁ d₁ n₂ d₂ : Nat} (h₁ : 0 < d₁) (h₂ : 0 < d₂) (h : n₁ * d₂ ≤ n₂ * d₁) :
    roundMag n₁ d₁ ≤ roundMag n₂ d₂ := by
  have hq := div_le_div_of_cross h₁ h₂ h
  have hs := scaleOf_mono hq
  unfold roundMag
  rcases Nat.lt_or_eq_of_le hs with hlt | heq
  · have up := roundQuot_le n₁ (d₁ * 2 ^ scaleOf (n₁ / d₁))
    have lo := roundQuot_ge n₂ (d₂ * 2 ^ scaleOf (n₂ / d₂))
    rw [← Nat.div_div_eq_div_mul] at up lo
    have a := div_scale_lt (n₁ / d₁)
    have b := le_div_scale (q := n₂ / d₂) (by omega)
    omega
  · rw [heq]
    have : roundQuot n₁ (d₁ * 2 ^ scaleOf (n₂ / d₂)) ≤ roundQuot n₂ (d₂ * 2 ^ scaleOf (n₂ / d₂)) := by
      apply roundQuot_mono (by positivity) (by positivity)
      calc n₁ * (d₂ * 2 ^ scaleOf (n₂ / d₂)) = n₁ * d₂ * 2 ^ scaleOf (n₂ / d₂) := by ring
        _ ≤ n₂ * d₁ * 2 ^ scaleOf (n₂ / d₂) := Nat.mul_le_mul_right _ h
        _ = n₂ * (d₁ * 2 ^ scaleOf (n₂ / d₂)) := by ring
    omega

theorem roundQuot_exact {d : Nat} (hd : 0 < d) (q : Nat) : roundQuot (q * d) d = q := by
  unfold roundQuot
  rw [Nat.mul_mod_left, Nat.mul_div_cancel _ hd, if_pos (by omega)]

/-- A representable magnitude rounds to itself. -/
theorem roundMag_units (m : Nat) : roundMag (units m) 1 = m := by
  have hm := Nat.div_add_mod m (2 ^ 52)
  have hlt := Nat.mod_lt m (show 0 < 2 ^ 52 by norm_num)
  unfold roundMag
  rw [Nat.div_one, one_mul]
  unfold units
  split
  · rename_i h0
    have h : scaleOf (m % 2 ^ 52) = 0 := by
      unfold scaleOf
      rcases Nat.eq_zero_or_pos (m % 2 ^ 52) with h | h
      · rw [h]; decide
      · have : Nat.log2 (m % 2 ^ 52) < 52 := (Nat.log2_lt (by omega)).2 hlt
        omega
    have e := roundQuot_exact (d := 1) one_pos (m % 2 ^ 52)
    rw [mul_one] at e
    rw [h0, mul_zero, zero_add] at hm
    rw [h, pow_zero, e, zero_mul, zero_add, hm]
  · rename_i h0
    have hs : scaleOf ((2 ^ 52 + m % 2 ^ 52) * 2 ^ (m / 2 ^ 52 - 1)) = m / 2 ^ 52 - 1 := by
      unfold scaleOf
      have : Nat.log2 ((2 ^ 52 + m % 2 ^ 52) * 2 ^ (m / 2 ^ 52 - 1)) = 52 + (m / 2 ^ 52 - 1) := by
        rw [Nat.log2_eq_iff (by positivity)]
        constructor
        · rw [pow_add]; exact Nat.mul_le_mul_right _ (by omega)
        · rw [show 52 + (m / 2 ^ 52 - 1) + 1 = 53 + (m / 2 ^ 52 - 1) by omega, pow_add]
          exact Nat.mul_lt_mul_of_pos_right (by omega) (by positivity)
      omega
    rw [hs, roundQuot_exact (by positivity)]
    have : 1 ≤ m / 2 ^ 52 := by omega
    omega

theorem units_le_iff {m n : Nat} : units m ≤ units n ↔ m ≤ n := by
  have fwd : ∀ {a b : Nat}, units a ≤ units b → a ≤ b := fun {a b} h => by
    have := roundMag_mono (n₁ := units a) (d₁ := 1) (n₂ := units b) (d₂ := 1) one_pos one_pos (by omega)
    rwa [roundMag_units, roundMag_units] at this
  refine ⟨fwd, fun h => ?_⟩
  by_contra hc
  have := fwd (le_of_lt (not_le.1 hc))
  have : m = n := le_antisymm h this
  subst this
  exact hc le_rfl

theorem units_zero : units 0 = 0 := by decide

theorem units_pos {m : Nat} (h : 0 < m) : 0 < units m := by
  have : ¬ units m ≤ units 0 := by rw [units_le_iff]; omega
  rw [units_zero] at this; omega

/-- `one`'s magnitude is the one that stands for `oneUnits`. -/
theorem roundMag_one : roundMag oneUnits 1 = 4607182418800017408 := by decide +kernel

@[simp] theorem key_fin_false (m : Fin infMag) : key (.fin false m) = some (m.val : Int) := by simp [key]
@[simp] theorem key_fin_true (m : Fin infMag) : key (.fin true m) = some (-(m.val : Int)) := by simp [key]
@[simp] theorem key_inf_false : key (.inf false) = some 9218868437227405312 := rfl
@[simp] theorem key_inf_true : key (.inf true) = some (-9218868437227405312) := rfl
@[simp] theorem key_nan : key .nan = none := rfl

/-- Where a rounded nonnegative magnitude stands: at the field, or at the infinity above it. -/
theorem key_pack_false (m : Nat) : key (pack false m) = some ((min m infMag : Nat) : Int) := by
  unfold pack
  split
  · rename_i h; simp [min_eq_left (le_of_lt h)]
  · rename_i h; rw [min_eq_right (not_lt.1 h)]; rfl

theorem le_iff_key {x y : Binary64} :
    le x y = true ↔ ∃ a b, key x = some a ∧ key y = some b ∧ a ≤ b := by
  unfold le
  cases key x <;> cases key y <;> simp

theorem lt_iff_key {x y : Binary64} :
    lt x y = true ↔ ∃ a b, key x = some a ∧ key y = some b ∧ a < b := by
  unfold lt
  cases key x <;> cases key y <;> simp

/-- A positive value that is at most a finite one is a positive finite magnitude. -/
theorem pos_le_fin {x : Binary64} {m : Fin infMag} (h0 : lt zero x = true) (h1 : le x (.fin false m) = true) :
    ∃ n : Fin infMag, x = .fin false n ∧ 0 < n.val ∧ n.val ≤ m.val := by
  obtain ⟨a, b, ha, hb, hab⟩ := lt_iff_key.1 h0
  obtain ⟨c, d, hc, hd, hcd⟩ := le_iff_key.1 h1
  simp only [zero, key_fin_false, Option.some.injEq] at ha hd
  rw [hc] at hb
  obtain rfl := Option.some.inj hb
  have hm : m.val < 9218868437227405312 := m.isLt
  match x, hc with
  | .fin false n, hc => simp at hc; exact ⟨n, rfl, by omega, by omega⟩
  | .fin true n, hc => simp at hc; simp at ha; omega
  | .inf false, hc => simp at hc; omega
  | .inf true, hc => simp at hc; simp at ha; omega

/-- A positive numerator over a positive denominator that is not larger is at least 1. -/
theorem one_le_div {m n : Fin infMag} (hn : 0 < n.val) (h : n.val ≤ m.val) :
    le one (div (.fin false m) (.fin false n)) = true := by
  rw [le_iff_key]
  refine ⟨4607182418800017408, ((min (roundMag (oneUnits * units m) (units n)) infMag : Nat) : Int), by
    simp [one], ?_, ?_⟩
  · simp only [div, if_neg (Nat.pos_iff_ne_zero.1 hn), Bool.xor_self, key_pack_false]
  · have mono : roundMag oneUnits 1 ≤ roundMag (oneUnits * units m) (units n) := by
      apply roundMag_mono one_pos (units_pos hn)
      rw [mul_one]
      exact Nat.mul_le_mul_left _ (units_le_iff.2 h)
    rw [roundMag_one] at mono
    have : (4607182418800017408 : Nat) ≤ infMag := by norm_num
    have := le_min mono this
    omega

/-- A magnitude's distance to the next one is at least 2^-53 of that one. -/
theorem units_succ_gap (k : Nat) : units (k + 1) + 2 ^ 53 * units k ≤ 2 ^ 53 * units (k + 1) := by
  have hd := Nat.div_add_mod k (2 ^ 52)
  have hr := Nat.mod_lt k (show 0 < 2 ^ 52 by norm_num)
  by_cases hc : k % 2 ^ 52 + 1 = 2 ^ 52
  · have e₁ : (k + 1) / 2 ^ 52 = k / 2 ^ 52 + 1 := by omega
    have e₂ : (k + 1) % 2 ^ 52 = 0 := by omega
    have e₃ : k % 2 ^ 52 = 2 ^ 52 - 1 := by omega
    unfold units
    rw [e₁, e₂, e₃, if_neg (by omega)]
    split
    · rename_i h; rw [h]; norm_num
    · rename_i h
      obtain ⟨q, hq⟩ : ∃ q, k / 2 ^ 52 = q + 1 := ⟨k / 2 ^ 52 - 1, by omega⟩
      rw [hq, show q + 1 + 1 - 1 = q + 1 by omega, show q + 1 - 1 = q by omega, pow_succ]
      generalize hP : 2 ^ q = P
      have : 0 < P := by rw [← hP]; positivity
      omega
  · have e₁ : (k + 1) / 2 ^ 52 = k / 2 ^ 52 := by omega
    have e₂ : (k + 1) % 2 ^ 52 = k % 2 ^ 52 + 1 := by omega
    unfold units
    rw [e₁, e₂]
    split
    · omega
    · have : 0 < 2 ^ (k / 2 ^ 52 - 1) := by positivity
      generalize 2 ^ (k / 2 ^ 52 - 1) = P at *
      have h1 : (2 ^ 52 + (k % 2 ^ 52 + 1)) * P ≤ 2 ^ 53 * P := Nat.mul_le_mul_right _ (by omega)
      nlinarith

/-- A magnitude that is below another is at most (1 − 2^-53) of it. -/
theorem units_lt_gap {m n : Nat} (h : m < n) : units n + 2 ^ 53 * units m ≤ 2 ^ 53 * units n := by
  obtain ⟨k, rfl⟩ : ∃ k, n = k + 1 := ⟨n - 1, by omega⟩
  have hm : units m ≤ units k := units_le_iff.2 (by omega)
  have := units_succ_gap k
  omega

theorem roundMag_zero (den : Nat) : roundMag 0 den = 0 := by
  unfold roundMag roundQuot scaleOf
  simp

/-- A nonnegative datum is a zero of negative sign or has positive sign. -/
theorem nonneg_cases {x : Binary64} (h : le zero x = true) :
    (∃ m : Fin infMag, x = .fin false m) ∨ x = .inf false ∨ ∃ m : Fin infMag, x = .fin true m ∧ m.val = 0 := by
  obtain ⟨a, b, ha, hb, hab⟩ := le_iff_key.1 h
  simp only [zero, key_fin_false, Option.some.injEq] at ha
  match x, hb with
  | .fin false m, _ => exact .inl ⟨m, rfl⟩
  | .inf false, _ => exact .inr (.inl rfl)
  | .fin true m, hb => simp at hb; exact .inr (.inr ⟨m, rfl, by omega⟩)
  | .inf true, hb => simp at hb; omega

/-- A nonnegative datum and its place on the number line. -/
theorem nonneg_iff {x : Binary64} : le zero x = true ↔ ∃ k, key x = some k ∧ 0 ≤ k := by
  rw [le_iff_key]
  constructor
  · rintro ⟨a, b, ha, hb, h⟩
    simp only [zero, key_fin_false, Option.some.injEq] at ha
    exact ⟨b, hb, by omega⟩
  · rintro ⟨k, hk, h⟩
    exact ⟨0, k, by simp [zero], hk, h⟩

/-- Of two data that have a place, one is not above the other or is. -/
theorem lt_of_not_le {x y : Binary64} {a b : Int} (hx : key x = some a) (hy : key y = some b)
    (h : ¬ le y x = true) : lt x y = true := by
  rw [lt_iff_key]
  refine ⟨a, b, hx, hy, ?_⟩
  by_contra hc
  exact h (le_iff_key.2 ⟨b, a, hy, hx, by omega⟩)

/-- The rounding of a sum that is not negative is not negative. -/
theorem roundInt_nonneg (s : Bool) {z : Int} (h : 0 ≤ z) : le zero (roundInt s z) = true := by
  rw [nonneg_iff]
  unfold roundInt
  split
  · exact ⟨0, by cases s <;> simp, le_rfl⟩
  · rw [decide_eq_false (by omega), key_pack_false]
    exact ⟨_, rfl, by omega⟩

theorem signedUnits_nonneg {s : Bool} {m : Fin infMag} (h : le zero (.fin s m) = true) :
    signedUnits s m = (units m : Int) := by
  rcases nonneg_cases h with ⟨n, hn⟩ | hn | ⟨n, hn, h0⟩
  · cases hn; rfl
  · cases hn
  · cases hn; simp [signedUnits, h0, units_zero]

/-- The sum of two finite data that are not negative is not negative. -/
theorem add_nonneg {s t : Bool} {m n : Fin infMag} (hx : le zero (.fin s m) = true)
    (hy : le zero (.fin t n) = true) : le zero (add (.fin s m) (.fin t n)) = true := by
  unfold add
  apply roundInt_nonneg
  rw [signedUnits_nonneg hx, signedUnits_nonneg hy]
  positivity

/-- The difference of a datum and a finite one that is not above it is not negative. -/
theorem sub_nonneg {x : Binary64} {n : Fin infMag} (h : le (.fin false n) x = true) :
    le zero (sub x (.fin false n)) = true := by
  have h0 : le zero x = true := by
    obtain ⟨a, b, ha, hb, hab⟩ := le_iff_key.1 h
    rw [key_fin_false, Option.some.injEq] at ha
    exact nonneg_iff.2 ⟨b, hb, by omega⟩
  obtain ⟨a, b, ha, hb, hab⟩ := le_iff_key.1 h
  rw [key_fin_false, Option.some.injEq] at ha
  rcases nonneg_cases h0 with ⟨m, rfl⟩ | rfl | ⟨m, rfl, hm⟩
  · rw [key_fin_false, Option.some.injEq] at hb
    have : units n ≤ units m := units_le_iff.2 (by omega)
    unfold sub neg add
    apply roundInt_nonneg
    simp only [signedUnits, Bool.not_false, if_true, Bool.false_eq_true, if_false]
    omega
  · unfold sub neg add; rfl
  · rw [key_fin_true, Option.some.injEq] at hb
    have hn : n.val = 0 := by omega
    unfold sub neg add
    apply roundInt_nonneg
    simp [signedUnits, hm, hn, units_zero]

/-- A quotient of a finite datum that is not negative by a larger finite one lies in [0, 1). -/
theorem div_inPhase {x : Binary64} {n : Fin infMag} (h0 : le zero x = true) (h : lt x (.fin false n) = true) :
    le zero (div x (.fin false n)) = true ∧ lt (div x (.fin false n)) one = true := by
  obtain ⟨a, b, ha, hb, hab⟩ := lt_iff_key.1 h
  rw [key_fin_false, Option.some.injEq] at hb
  have hn : n.val < 9218868437227405312 := n.isLt
  rcases nonneg_cases h0 with ⟨m, rfl⟩ | rfl | ⟨m, rfl, hm⟩
  · rw [key_fin_false, Option.some.injEq] at ha
    have hmn : m.val < n.val := by omega
    have hn0 : n.val ≠ 0 := by omega
    have low : roundMag (oneUnits * units m) (units n) ≤ 4607182418800017407 := by
      have gap := units_lt_gap hmn
      have hu : units 4607182418800017407 * 2 ^ 53 = (2 ^ 53 - 1) * oneUnits := by decide +kernel
      have key := roundMag_mono (n₁ := oneUnits * units m) (d₁ := units n) (n₂ := units 4607182418800017407)
        (d₂ := 1) (units_pos (by omega)) one_pos (by
          have : 2 ^ 53 * units m ≤ (2 ^ 53 - 1) * units n := by omega
          have := Nat.mul_le_mul_left oneUnits this
          have e : units 4607182418800017407 * units n * 2 ^ 53 = oneUnits * ((2 ^ 53 - 1) * units n) := by
            calc units 4607182418800017407 * units n * 2 ^ 53
                = units 4607182418800017407 * 2 ^ 53 * units n := by ring
              _ = (2 ^ 53 - 1) * oneUnits * units n := by rw [hu]
              _ = oneUnits * ((2 ^ 53 - 1) * units n) := by ring
          refine Nat.le_of_mul_le_mul_right (c := 2 ^ 53) ?_ (by positivity)
          rw [e]
          calc oneUnits * units m * 1 * 2 ^ 53 = oneUnits * (2 ^ 53 * units m) := by ring
            _ ≤ oneUnits * ((2 ^ 53 - 1) * units n) := this)
      rwa [roundMag_units] at key
    unfold div
    dsimp only
    rw [if_neg hn0, Bool.xor_self, nonneg_iff, lt_iff_key, key_pack_false]
    refine ⟨⟨_, rfl, by omega⟩, _, 4607182418800017408, rfl, by simp [one], ?_⟩
    have := min_le_left (roundMag (oneUnits * units m) (units n)) infMag
    omega
  · rw [key_inf_false, Option.some.injEq] at ha; omega
  · rw [key_fin_true, Option.some.injEq] at ha
    unfold div
    dsimp only
    rw [if_neg (by omega), hm, units_zero, mul_zero, roundMag_zero]
    decide

/-- The product of a datum in [0, 1) or above and a finite one, neither negative, is not negative. -/
theorem mul_nonneg {x : Binary64} {n : Fin infMag} (h0 : le zero x = true) (hn : 0 < n.val) :
    le zero (mul x (.fin false n)) = true := by
  rcases nonneg_cases h0 with ⟨m, rfl⟩ | rfl | ⟨m, rfl, hm⟩
  · unfold mul
    rw [nonneg_iff]; dsimp only
    rw [Bool.xor_self, key_pack_false]
    exact ⟨_, rfl, by omega⟩
  · unfold mul; dsimp only
    rw [if_neg (by omega)]; decide
  · unfold mul; dsimp only
    rw [hm, units_zero, zero_mul, roundMag_zero]; decide

end Binary64
end Sys2Proof
end

