-- ==== Sys2Proof/Laws/Osc.lean ====
section
/-!
SUPPORT. Sys2Proof/Laws/Osc.lean: what the oscillator operations do to an oscillator's kind and to the ranges of its
registers.
-/

namespace Sys2Proof.Machine

/-- 16000 ⊘ f is at least 1 for a frequency in (0, MAX_FREQ]. -/
theorem one_le_len {f : Binary64} (h0 : Binary64.lt .zero f = true) (h1 : Binary64.le f Config.maxFreq = true) :
    Binary64.le .one (Binary64.div Config.sampleRate f) = true := by
  have e : Config.sampleRate = .fin false ⟨4670021707350671360, by decide⟩ := by decide +kernel
  unfold Config.maxFreq at h1
  rw [e] at h1 ⊢
  obtain ⟨n, rfl, hn, hle⟩ := Binary64.pos_le_fin h0 h1
  exact Binary64.one_le_div hn hle

theorem freqAdmitted_iff {f : Binary64} :
    freqAdmitted f = true ↔ f.isFinite = true ∧ Binary64.lt .zero f = true ∧ Binary64.le f Config.maxFreq = true ∧
      Binary64.le (Binary64.div Config.sampleRate f) Config.maxLen = true := by
  simp [freqAdmitted, and_assoc]

@[simp] theorem PhaseAcc.retune_len (a : PhaseAcc) (len : Binary64) : (a.retune len).len = len := rfl

@[simp] theorem PhaseAcc.setFrequency_len (a : PhaseAcc) (f : Binary64) :
    (a.setFrequency f).len = Binary64.div Config.sampleRate f := rfl

@[simp] theorem PhaseAcc.advance_len (a : PhaseAcc) : a.advance.len = a.len := rfl

@[simp] theorem PhaseAcc.setDuty_len (cfg : Config) (a : PhaseAcc) (d d' : Binary64) :
    (a.setDuty cfg d d').len = a.len := rfl

@[simp] theorem Osc.kind_sample (cfg : Config) (o : Osc) : (o.sample cfg).2.kind = o.kind := by
  cases o with
  | phase sh a => cases sh <;> rfl
  | noise g => rfl

@[simp] theorem Osc.kind_noteSet (cfg : Config) (n : Nat) (o : Osc) : (o.noteSet cfg n).kind = o.kind := by
  cases o with
  | phase sh a => cases sh <;> rfl
  | noise g => rfl

/-- The step bit by bit (40_oscillators.md R121): the feedback enters at bit 14, the others move down. -/
theorem lfsrStep_getLsbD (r : BitVec 15) (j : Nat) :
    (lfsrStep r).getLsbD j = ((decide (j = 14) && xor (r.getLsbD 0) (r.getLsbD 1)) || r.getLsbD (j + 1)) := by
  unfold lfsrStep
  rcases Nat.lt_trichotomy j 14 with h | rfl | h
  · have : ¬ j = 14 := by omega
    simp [BitVec.getLsbD_or, BitVec.getLsbD_shiftLeft, h, this, Nat.add_comm]
  · simp
  · have : ¬ j = 14 := by omega
    have h15 : ¬ j < 15 := by omega
    simp [BitVec.getLsbD_or, BitVec.getLsbD_shiftLeft, this, h15, Nat.add_comm]

/-- A nonzero register steps to a nonzero register (40_oscillators.md R126). -/
theorem lfsrStep_ne_zero {r : BitVec 15} (h : r ≠ 0) : lfsrStep r ≠ 0 := by
  intro hz
  have bit : ∀ j, ((decide (j = 14) && xor (r.getLsbD 0) (r.getLsbD 1)) || r.getLsbD (j + 1)) = false := fun j => by
    rw [← lfsrStep_getLsbD, hz]; simp
  have up : ∀ j, r.getLsbD (j + 1) = false := fun j => by
    have := bit j; rw [Bool.or_eq_false_iff] at this; exact this.2
  have b0 : r.getLsbD 0 = false := by
    have := bit 14; rw [up 14, up 0] at this; simpa using this
  refine h (BitVec.eq_of_getLsbD_eq fun i _ => ?_)
  cases i with
  | zero => simpa using b0
  | succ i => simpa using up i

theorem NoiseGen.advance_ok {g : NoiseGen} (h : g.lfsr ≠ 0) : g.advance.per = g.per ∧ g.advance.lfsr ≠ 0 := by
  unfold NoiseGen.advance
  split
  · exact ⟨rfl, lfsrStep_ne_zero h⟩
  · exact ⟨rfl, h⟩

/-- After an advance `cnt` is below `per`, whatever it was before (10_state.md R25, log 28). -/
theorem NoiseGen.advance_cnt_lt {g : NoiseGen} (h : 1 ≤ g.per) : g.advance.cnt < g.advance.per := by
  unfold NoiseGen.advance
  split
  · exact h
  · simp only; omega

/-- The rounding guard: a value that is not negative is brought below `len`. -/
theorem wrapOff_ok {x len : Binary64} (hx : Binary64.le .zero x = true) (hl : Binary64.le .one len = true) :
    Binary64.le .zero (wrapOff x len) = true ∧ Binary64.lt (wrapOff x len) len = true := by
  obtain ⟨a, b, ha, hb, hab⟩ := Binary64.le_iff_key.1 hl
  simp only [Binary64.one, Binary64.key_fin_false, Option.some.injEq] at ha
  obtain ⟨k, hk, _⟩ := Binary64.nonneg_iff.1 hx
  unfold wrapOff
  split
  · exact ⟨by decide, Binary64.lt_iff_key.2 ⟨0, b, by simp [Binary64.zero], hb, by omega⟩⟩
  · rename_i h
    exact ⟨hx, Binary64.lt_of_not_le hk hb h⟩

/-- A finite length of at least 1 is a positive finite magnitude. -/
theorem len_fin {len : Binary64} (h1 : Binary64.le .one len = true) (h2 : len.isFinite = true) :
    ∃ n : Fin infMag, len = .fin false n ∧ 0 < n.val := by
  obtain ⟨a, b, ha, hb, hab⟩ := Binary64.le_iff_key.1 h1
  simp only [Binary64.one, Binary64.key_fin_false, Option.some.injEq] at ha
  match len, h2 with
  | .fin s n, _ =>
    cases s <;> simp [Binary64.key] at hb
    · exact ⟨n, rfl, by omega⟩
    · omega

/-- A value within R103's bound of 2^52 is finite, if it is at least 1. -/
theorem finite_of_le_max {len : Binary64} (h1 : Binary64.le .one len = true)
    (h2 : Binary64.le len Config.maxLen = true) : len.isFinite = true := by
  have e : Config.maxLen = .fin false ⟨4841369599423283200, by decide⟩ := by decide +kernel
  rw [e] at h2
  cases len with
  | fin s m => rfl
  | inf s => cases s <;> revert h1 h2 <;> decide
  | nan => revert h1; decide

/-- The offset of a phase accumulator in range is finite. -/
theorem PhaseAcc.ok.off_fin {a : PhaseAcc} (h : a.ok) : ∃ s m, a.off = .fin s m := by
  obtain ⟨n, hn, _⟩ := len_fin h.one_le h.finite
  obtain ⟨x, y, hx, hy, hxy⟩ := Binary64.lt_iff_key.1 h.off_lt
  rw [hn, Binary64.key_fin_false, Option.some.injEq] at hy
  have : n.val < 9218868437227405312 := n.isLt
  rcases Binary64.nonneg_cases h.off_nonneg with ⟨m, hm⟩ | hm | ⟨m, hm, _⟩
  · exact ⟨_, m, hm⟩
  · rw [hm, Binary64.key_inf_false, Option.some.injEq] at hx; omega
  · exact ⟨_, m, hm⟩

/-- The normalised phase lies in [0, 1) (10_state.md R23). -/
theorem PhaseAcc.ok.phase_inPhase {a : PhaseAcc} (h : a.ok) : a.phase.inPhase = true := by
  obtain ⟨n, hn, _⟩ := len_fin h.one_le h.finite
  have hlt := h.off_lt
  unfold PhaseAcc.phase Binary64.inPhase
  rw [hn] at hlt ⊢
  simpa using Binary64.div_inPhase h.off_nonneg hlt

/-- The advance keeps a phase accumulator's registers in range (40_oscillators.md R104). -/
theorem PhaseAcc.advance_ok {a : PhaseAcc} (h : a.ok) : a.advance.ok := by
  obtain ⟨n, hn, _⟩ := len_fin h.one_le h.finite
  obtain ⟨s, m, hm⟩ := h.off_fin
  have hs : Binary64.le .zero (Binary64.add a.off .one) = true := by
    have h0 := h.off_nonneg
    rw [hm] at h0 ⊢
    exact Binary64.add_nonneg h0 (by decide)
  have key : Binary64.le .zero a.advance.off = true ∧ Binary64.lt a.advance.off a.len = true := by
    unfold PhaseAcc.advance
    dsimp only
    split
    · rename_i hle
      exact wrapOff_ok (by rw [hn] at hle ⊢; exact Binary64.sub_nonneg hle) h.one_le
    · rename_i hle
      obtain ⟨k, hk, _⟩ := Binary64.nonneg_iff.1 hs
      exact ⟨hs, Binary64.lt_of_not_le hk (by rw [hn, Binary64.key_fin_false]) hle⟩
  exact ⟨key.1, by simpa using key.2, by simpa using h.one_le, by simpa using h.finite⟩

/-- A retune to a length in range keeps a phase accumulator's registers in range (40_oscillators.md R103). -/
theorem PhaseAcc.retune_ok {a : PhaseAcc} {len : Binary64} (h : a.ok) (h1 : Binary64.le .one len = true)
    (h2 : len.isFinite = true) : (a.retune len).ok := by
  obtain ⟨n, hn, hp⟩ := len_fin h1 h2
  have hph := h.phase_inPhase
  simp only [Binary64.inPhase, Bool.and_eq_true] at hph
  have hx : Binary64.le .zero (Binary64.mul a.phase len) = true := by
    rw [hn]; exact Binary64.mul_nonneg hph.1 hp
  exact ⟨(wrapOff_ok hx h1).1, (wrapOff_ok hx h1).2, h1, h2⟩

/-- The phase length of a note is in range (10_state.md R23). -/
theorem noteLength_ok (cfg : Config) {n : Nat} (hn : n ≤ Config.maxNoteOsc) :
    Binary64.le .one (noteLength cfg n) = true ∧ (noteLength cfg n).isFinite = true := by
  have hf := cfg.noteFreq_range n hn
  unfold noteLength
  dsimp only
  split
  · rename_i h
    exact ⟨one_le_len hf.1 hf.2, h⟩
  · exact (cfg.noteLenFree_range n).symm

/-- Where 16000 ⊘ NOTE_FREQ(n) is finite, `noteSet(n)` is `setFrequency(NOTE_FREQ(n))` (40_oscillators.md R101). -/
theorem Osc.noteSet_eq_setFrequency (cfg : Config) (n : Nat) (sh : Shape) (a : PhaseAcc)
    (h : (Binary64.div Config.sampleRate (cfg.noteFreq n)).isFinite = true) :
    (Osc.phase sh a).noteSet cfg n = .phase sh (a.setFrequency (cfg.noteFreq n)) := by
  simp only [Osc.noteSet, noteLength, h, if_true, PhaseAcc.setFrequency]

/-- DUTY_PHASE_POLICY answers in [0, 1) (40_oscillators.md R110). -/
theorem dutyPhasePolicy_inPhase (cfg : Config) {p d d' : Binary64} (hp : p.inPhase = true) (hd : d.inUnit = true)
    (hd' : d'.inUnit = true) : (dutyPhasePolicy cfg p d d').inPhase = true := by
  unfold dutyPhasePolicy
  split
  · rename_i h
    rw [Bool.and_eq_true] at h
    exact cfg.dutyBoundary_inPhase p d d' hp hd hd' h.1 h.2
  · decide

/-- `setDuty` keeps a phase accumulator's registers in range (40_oscillators.md R109). -/
theorem PhaseAcc.setDuty_ok (cfg : Config) {a : PhaseAcc} {d d' : Binary64} (h : a.ok) (hd : d.inUnit = true)
    (hd' : d'.inUnit = true) : (a.setDuty cfg d d').ok := by
  obtain ⟨n, hn, hp⟩ := len_fin h.one_le h.finite
  have hph := dutyPhasePolicy_inPhase cfg h.phase_inPhase hd hd'
  simp only [Binary64.inPhase, Bool.and_eq_true] at hph
  have hx : Binary64.le .zero (Binary64.mul (dutyPhasePolicy cfg a.phase d d') a.len) = true := by
    rw [hn]; exact Binary64.mul_nonneg hph.1 hp
  exact ⟨(wrapOff_ok hx h.one_le).1, (wrapOff_ok hx h.one_le).2, h.one_le, h.finite⟩

/-- Sampling keeps an oscillator's registers in range. -/
theorem Osc.sample_ok (cfg : Config) {o : Osc} (h : o.ok) : (o.sample cfg).2.ok := by
  cases o with
  | phase sh a =>
    cases sh
    case square duty => exact ⟨PhaseAcc.advance_ok h.1, h.2⟩
    all_goals exact PhaseAcc.advance_ok h
  | noise g =>
    obtain ⟨hp, hl⟩ := h
    have := NoiseGen.advance_ok hl
    exact ⟨by rw [this.1]; exact hp, this.2⟩

/-- Retuning keeps an oscillator's registers in range, for a note up to MAX_NOTE_OSC. -/
theorem Osc.noteSet_ok (cfg : Config) {n : Nat} (hn : n ≤ Config.maxNoteOsc) {o : Osc} (h : o.ok) :
    (o.noteSet cfg n).ok := by
  have hl := noteLength_ok cfg hn
  cases o with
  | phase sh a =>
    cases sh
    case square duty => exact ⟨PhaseAcc.retune_ok h.1 hl.1 hl.2, h.2⟩
    all_goals exact PhaseAcc.retune_ok h hl.1 hl.2
  | noise g => exact ⟨Nat.succ_le_succ (Nat.zero_le _), h.2⟩

/-- Setting an admitted frequency keeps a phase accumulator's registers in range. -/
theorem Osc.setFrequency_ok {sh : Shape} {a : PhaseAcc} {f : Binary64} (hf : freqAdmitted f = true)
    (h : (Osc.phase sh a).ok) : (Osc.phase sh (a.setFrequency f)).ok := by
  obtain ⟨_, h0, h1, hm⟩ := freqAdmitted_iff.1 hf
  have hl := one_le_len h0 h1
  have hfin := finite_of_le_max hl hm
  cases sh
  case square duty => exact ⟨PhaseAcc.retune_ok h.1 hl hfin, h.2⟩
  all_goals exact PhaseAcc.retune_ok h hl hfin

/-- Setting an admitted duty keeps a Square oscillator's registers in range. -/
theorem Osc.setDuty_ok (cfg : Config) {a : PhaseAcc} {d d' : Binary64} (h : (Osc.phase (.square d) a).ok)
    (hd' : d'.inUnit = true) : (Osc.phase (.square d') (a.setDuty cfg d d')).ok :=
  ⟨PhaseAcc.setDuty_ok cfg h.1 h.2 hd', hd'⟩

/-- The arpeggio's note never passes MAX_NOTE_OSC (42_channel_mixer.md R188). -/
theorem arpeggio_le (n : Fin 63) (a b : BitVec 4) (t : BitVec 32) :
    n.val + arpeggioOffset a b t ≤ Config.maxNoteOsc := by
  have ha := a.isLt; have hb := b.isLt; have hn := n.isLt
  unfold arpeggioOffset Config.maxNoteOsc
  split
  · omega
  · split <;> omega

/-- The noise output is ±1 (40_oscillators.md R122). -/
theorem noiseOut_cases (r : BitVec 15) : noiseOut r = .one ∨ noiseOut r = Binary64.neg .one := by
  unfold noiseOut; split <;> simp

end Sys2Proof.Machine
end

