-- ==== Sys2Proof/Laws/Channel.lean ====
section
/-!
SUPPORT. Sys2Proof/Laws/Channel.lean: each channel operation, effect and cell action, once: that it answers on a channel
in range and keeps it in range.
-/

namespace Sys2Proof.Machine

variable {cfg : Config} {m : Memory} {c : Chan} {ch : Channel}

theorem Channel.ok_setEnv (h : Channel.ok m c ch) {e : EnvelopeNote} (he : e.ok m) :
    Channel.ok m c { ch with env := some e } :=
  ⟨h.kind, h.osc, by rintro _ ⟨⟩; exact he, h.cvol, h.bookmark⟩

theorem Channel.ok_noteSet (h : Channel.ok m c ch) {n : Nat} (hn : n ≤ Config.maxNoteOsc) :
    Channel.ok m c { ch with osc := ch.osc.noteSet cfg n } :=
  ⟨by simpa using h.kind, Osc.noteSet_ok cfg hn h.osc, h.env, h.cvol, h.bookmark⟩

theorem Channel.ok_setFx (h : Channel.ok m c ch) (fx : FxSlot) : Channel.ok m c { ch with fx := fx } :=
  ⟨h.kind, h.osc, h.env, h.cvol, h.bookmark⟩

theorem Channel.ok_setCvol (h : Channel.ok m c ch) {v : Binary64} (hv : v.inUnit = true) :
    Channel.ok m c { ch with cvol := v } :=
  ⟨h.kind, h.osc, h.env, hv, h.bookmark⟩

/-- A cell volume lies in [0, 1] (43_cell_effects.md R204). -/
theorem cellVolume_inUnit (v : BitVec 6) : (cellVolume v).inUnit = true := by
  have all : ∀ n : Fin 64, (cellVolume (BitVec.ofFin n)).inUnit = true := by decide +kernel
  exact all v.toFin

/-- A SongVolume effect's volume lies in [0, 1] (43_cell_effects.md R214). -/
theorem effectSongVolume_inUnit (v : BitVec 8) : (effectSongVolume v).inUnit = true := by
  have all : ∀ n : Fin 256, (effectSongVolume (BitVec.ofFin n)).inUnit = true := by decide +kernel
  exact all v.toFin

/-- A note-on answers, leaves the channel alone where the instrument does not resolve, and otherwise starts the
note (42_channel_mixer.md R174, R175). -/
theorem noteOn_cases (hw : Memory.wf cfg m = true) (n : Fin 63) (k : BitVec 4) (ch : Channel) :
    (resolves m k = false ∧ noteOn cfg m n k ch = .ok ch) ∨
      (resolves m k = true ∧ ∃ e, envCreate m k (carriedVolume ch) = .ok e ∧ e.ok m ∧
        noteOn cfg m n k ch =
          .ok { ch with fx := .none, baseNote := some n, osc := ch.osc.noteSet cfg n.val, env := some e }) := by
  by_cases hk : resolves m k = true
  · obtain ⟨e, he, ho⟩ := envCreate_ok hw hk (carriedVolume ch)
    exact .inr ⟨hk, e, he, ho, by simp [noteOn, hk, notePlay, he]⟩
  · exact .inl ⟨by simpa using hk, by simp [noteOn, hk]⟩

theorem noteOn_ok (hw : Memory.wf cfg m = true) (n : Fin 63) (k : BitVec 4) (h : Channel.ok m c ch) :
    ∃ ch', noteOn cfg m n k ch = .ok ch' ∧ Channel.ok m c ch' := by
  have hn : n.val ≤ Config.maxNoteOsc := by have := n.isLt; unfold Config.maxNoteOsc; omega
  rcases noteOn_cases hw n k ch with ⟨_, h'⟩ | ⟨_, e, _, ho, h'⟩
  · exact ⟨ch, h', h⟩
  · exact ⟨_, h', by simpa using h.kind, Osc.noteSet_ok cfg hn h.osc, by rintro _ ⟨⟩; exact ho, h.cvol,
      h.bookmark⟩

theorem noteEnd_ok (h : Channel.ok m c ch) : Channel.ok m c (noteEnd ch) := by
  unfold noteEnd
  split
  · rename_i e he
    exact Channel.ok_setEnv h (envCut_ok (h.env e he))
  · exact h

theorem channelReset_ok (h : Channel.ok m c ch) : Channel.ok m c (channelReset ch) :=
  ⟨h.kind, h.osc, by simp [channelReset], show Binary64.one.inUnit = true by decide, by simp [channelReset]⟩

/-- A channel's sample: +0 and nothing moved with no note; with one, the product and both parts advanced
(42_channel_mixer.md R181). -/
theorem chSample_none (h : ch.env = none) : chSample cfg m ch = .ok (.zero, ch) := by
  unfold chSample; rw [h]

theorem chSample_some {e e' : EnvelopeNote} {v : Binary64} (h : ch.env = some e)
    (he : envSample cfg m e = .ok (v, e')) :
    chSample cfg m ch = .ok (Binary64.mul (Binary64.mul (ch.osc.sample cfg).1 ch.cvol) v,
      { ch with osc := (ch.osc.sample cfg).2, env := some e' }) := by
  unfold chSample; rw [h]; simp [he]

theorem chSample_ok (hw : Memory.wf cfg m = true) (h : Channel.ok m c ch) :
    ∃ v ch', chSample cfg m ch = .ok (v, ch') ∧ Channel.ok m c ch' := by
  cases he : ch.env with
  | none => exact ⟨_, _, chSample_none he, h⟩
  | some e =>
    obtain ⟨v, e', hs, ho⟩ := envSample_ok hw (h.env e he)
    exact ⟨_, _, chSample_some he hs, by simpa using h.kind, Osc.sample_ok cfg h.osc,
      by rintro _ ⟨⟩; exact ho, h.cvol, h.bookmark⟩

/-- R25's `cnt < per` (10_state.md) after the sample of a noise channel, where the channel has a note or `cnt` was below
`per` before (log 28). -/
theorem chSample_cnt_lt {g : NoiseGen} {v : Binary64} {ch' : Channel} (ho : ch.osc = .noise g) (hp : 1 ≤ g.per)
    (h : ch.env ≠ none ∨ g.cnt < g.per) (hs : chSample cfg m ch = .ok (v, ch')) :
    ∃ g', ch'.osc = .noise g' ∧ g'.cnt < g'.per := by
  cases he : ch.env with
  | none =>
    rw [chSample_none he] at hs
    cases hs
    exact ⟨g, ho, h.resolve_left (absurd he)⟩
  | some e =>
    rcases hv : envSample cfg m e with f | ⟨w, e'⟩
    · simp [chSample, he, hv] at hs
    · rw [chSample_some he hv, ho] at hs
      cases hs
      exact ⟨_, rfl, NoiseGen.advance_cnt_lt hp⟩

/-- The sum over a list of channels: each named channel is sampled once, the others stay. -/
theorem mixFrom_ok (hw : Memory.wf cfg m = true) (l : List Chan) (sum : Binary64) (cs : Channels)
    (h : ∀ c, Channel.ok m c (cs.get c)) :
    ∃ v cs', mixFrom cfg m l sum cs = .ok (v, cs') ∧ ∀ c, Channel.ok m c (cs'.get c) := by
  induction l generalizing sum cs with
  | nil => exact ⟨sum, cs, rfl, h⟩
  | cons c rest ih =>
    obtain ⟨v, ch', hs, ho⟩ := chSample_ok hw (h c)
    obtain ⟨w, cs', h', ho'⟩ := ih (Binary64.add sum v) (cs.set c ch') (fun d => by
      rw [Channels.get_set]; split
      · rename_i hd; rw [hd]; exact ho
      · exact h d)
    exact ⟨w, cs', by simp [mixFrom, hs, h'], ho'⟩

/-- An envelope operation that answers on notes in range, applied to a channel. -/
theorem onEnv_ok {f : EnvelopeNote → Except Fault EnvelopeNote}
    (hf : ∀ e, e.ok m → ∃ e', f e = .ok e' ∧ e'.ok m) (h : Channel.ok m c ch) :
    ∃ ch', onEnv f ch = .ok ch' ∧ Channel.ok m c ch' := by
  unfold onEnv
  cases he : ch.env with
  | none => exact ⟨ch, rfl, h⟩
  | some e =>
    obtain ⟨e', h', ho⟩ := hf e (h.env e he)
    exact ⟨_, by simp [h'], Channel.ok_setEnv h ho⟩

theorem onEnvIf_ok (cond : Prop) [Decidable cond] {f : EnvelopeNote → Except Fault EnvelopeNote}
    (hf : ∀ e, e.ok m → ∃ e', f e = .ok e' ∧ e'.ok m) (h : Channel.ok m c ch) :
    ∃ ch', onEnvIf cond f ch = .ok ch' ∧ Channel.ok m c ch' := by
  unfold onEnvIf
  split
  · exact onEnv_ok hf h
  · exact ⟨ch, rfl, h⟩

/-- An effect step answers on a channel in range and keeps it in range (42_channel_mixer.md R188 to R191). -/
theorem fxStep_ok (hw : Memory.wf cfg m = true) (t : BitVec 32) (h : Channel.ok m c ch) :
    ∃ ch', fxStep cfg m t ch = .ok ch' ∧ Channel.ok m c ch' := by
  unfold fxStep
  split
  · exact ⟨ch, rfl, h⟩
  · split
    · exact ⟨_, rfl, Channel.ok_noteSet h (arpeggio_le _ _ _ _)⟩
    · exact ⟨ch, rfl, h⟩
  · exact onEnvIf_ok _ (fun e => envRetrigger_ok hw) h
  · rename_i b _
    obtain ⟨ch₁, h₁, ho₁⟩ := onEnvIf_ok (t.toNat = 0) (fun e => envSilence_ok) h
    obtain ⟨ch₂, h₂, ho₂⟩ := onEnvIf_ok (t.toNat = b.toNat) (fun e => envRetrigger_ok hw) ho₁
    exact ⟨ch₂, by simp [h₁, h₂], ho₂⟩

theorem chTick_ok (hw : Memory.wf cfg m = true) (t : BitVec 32) (h : Channel.ok m c ch) :
    ∃ ch', chTick cfg m t ch = .ok ch' ∧ Channel.ok m c ch' := by
  obtain ⟨ch₁, h₁, ho₁⟩ := onEnv_ok (f := countdownOn cfg .tick m) (fun e he => by
    obtain ⟨e', h', ho, _⟩ := countdownOn_ok (cfg := cfg) .tick hw he
    exact ⟨e', h', ho⟩) h
  obtain ⟨ch₂, h₂, ho₂⟩ := fxStep_ok hw t ho₁
  exact ⟨ch₂, by simp [chTick, h₁, h₂], ho₂⟩

/-- The tick over a list of channels (42_channel_mixer.md R186). -/
theorem tickFrom_ok (hw : Memory.wf cfg m = true) (t : BitVec 32) (l : List Chan) (cs : Channels)
    (h : ∀ c, Channel.ok m c (cs.get c)) :
    ∃ cs', tickFrom cfg m t l cs = .ok cs' ∧ ∀ c, Channel.ok m c (cs'.get c) := by
  induction l generalizing cs with
  | nil => exact ⟨cs, rfl, h⟩
  | cons c rest ih =>
    obtain ⟨ch', hs, ho⟩ := chTick_ok hw t (h c)
    obtain ⟨cs', h', ho'⟩ := ih (cs.set c ch') (fun d => by
      rw [Channels.get_set]; split
      · rename_i hd; rw [hd]; exact ho
      · exact h d)
    exact ⟨cs', by simp [tickFrom, hs, h'], ho'⟩

/-- After a teardown the slot is empty and, of the rest, only the oscillator may have moved
(42_channel_mixer.md R192). -/
theorem fxTeardown_eq (cfg : Config) (ch : Channel) :
    ∃ osc, fxTeardown cfg ch = { ch with osc := osc, fx := .none } := by
  unfold fxTeardown
  split
  · rename_i h; exact ⟨ch.osc, by rw [← h]⟩
  · exact ⟨_, rfl⟩
  · exact ⟨ch.osc, rfl⟩

theorem fxTeardown_ok (h : Channel.ok m c ch) : Channel.ok m c (fxTeardown cfg ch) := by
  unfold fxTeardown
  split
  · exact h
  · rename_i n _ _
    have hn : n.val ≤ Config.maxNoteOsc := by have := n.isLt; unfold Config.maxNoteOsc; omega
    exact Channel.ok_setFx (Channel.ok_noteSet (cfg := cfg) h hn) .none
  · exact Channel.ok_setFx h .none

theorem loopSet_ok (r : BitVec 32) (h : Channel.ok m c ch) : Channel.ok m c (loopSet r ch) := by
  unfold loopSet
  split
  · rename_i bm hb
    exact ⟨h.kind, h.osc, h.env, h.cvol, by rintro _ ⟨⟩; exact h.bookmark bm hb⟩
  · exact ⟨h.kind, h.osc, h.env, h.cvol, by rintro _ ⟨⟩; exact Nat.zero_le _⟩

theorem loopRepeat_ok (b : BitVec 4) (h : Channel.ok m c ch) : Channel.ok m c (loopRepeat b ch).1 := by
  unfold loopRepeat
  dsimp only
  split
  · rename_i hlt
    refine ⟨h.kind, h.osc, h.env, h.cvol, ?_⟩
    rintro _ ⟨⟩
    have := b.isLt
    simp only [Bookmark.ok]
    omega
  · exact ⟨h.kind, h.osc, h.env, h.cvol, by simp⟩

/-- The invariant after a channel is replaced by one in range. -/
theorem State.Inv.setChan {s : State} (h : s.Inv) {x : Channel} (hx : Channel.ok s.mem c x) :
    (s.setChan c x).Inv :=
  ⟨h.mem, fun d => by rw [State.chan_setChan]; split
                      · rename_i hd; rw [hd]; exact hx
                      · exact h.chan d, h.songVol⟩

theorem State.Inv.setChans {s : State} (h : s.Inv) {cs : Channels} (hc : ∀ c, Channel.ok s.mem c (cs.get c)) :
    (s.setChans cs).Inv :=
  ⟨h.mem, hc, h.songVol⟩

theorem State.Inv.quiet {s : State} (h : s.Inv) : s.quiet.Inv := ⟨h.mem, h.chan, h.songVol⟩
theorem State.Inv.driveOut {s : State} (h : s.Inv) (v : Binary64) : (s.driveOut v).Inv := ⟨h.mem, h.chan, h.songVol⟩
theorem State.Inv.driveReq {s : State} (h : s.Inv) (q : Request) : (s.driveReq q).Inv := ⟨h.mem, h.chan, h.songVol⟩
theorem State.Inv.refuse {s : State} (h : s.Inv) (r : RefuseReason) : (s.refuse r).Inv := ⟨h.mem, h.chan, h.songVol⟩

theorem State.Inv.setSongVol {s : State} (h : s.Inv) {v : Binary64} (hv : v.inUnit = true) :
    (s.setSongVol v).Inv :=
  ⟨h.mem, h.chan, hv⟩

/-- An effect's own action keeps the invariant. -/
theorem effectAct_inv {s : State} (h : s.Inv) (c : Chan) (r : BitVec 32) (op : EffectOp) :
    (effectAct s c r op).1.Inv := by
  cases op with
  | arpeggio a b => exact h.setChan (Channel.ok_setFx (h.chan c) _)
  | loopSet a => exact h.setChan (loopSet_ok r (h.chan c))
  | loopRepeat a b => exact h.setChan (loopRepeat_ok b (h.chan c))
  | retrigger a b => exact h.setChan (Channel.ok_setFx (h.chan c) _)
  | delay a b => exact h.setChan (Channel.ok_setFx (h.chan c) _)
  | songVolume v => exact h.setSongVol (effectSongVolume_inUnit v)
  | patternJump p => exact h
  | rowJump p => exact h
  | songBps v => exact h
  | songTpb a b => exact h
  | reserved k a b => exact h

/-- A dispatched effect keeps the invariant (43_cell_effects.md R206). -/
theorem dispatch_inv {s : State} (h : s.Inv) (cfg : Config) (c : Chan) (r : BitVec 32) (op : EffectOp) :
    (dispatch cfg s c r op).1.Inv :=
  effectAct_inv (h.setChan (fxTeardown_ok (h.chan c))) c r op

/-- An effect leaves the memory, the mark, the ports, the stream and every other channel alone. -/
theorem dispatch_frame (cfg : Config) (s : State) (c : Chan) (r : BitVec 32) (op : EffectOp) :
    (dispatch cfg s c r op).1.mem = s.mem ∧ (dispatch cfg s c r op).1.refused = s.refused ∧
      (dispatch cfg s c r op).1.ports = s.ports ∧ (dispatch cfg s c r op).1.inbox = s.inbox ∧
      ∀ d, d ≠ c → (dispatch cfg s c r op).1.chan d = s.chan d := by
  cases op <;> refine ⟨rfl, rfl, rfl, rfl, fun d hd => ?_⟩ <;> simp [dispatch, effectAct, hd]

/-- A cell's action answers where the invariant holds and keeps it. -/
theorem cellAct_inv {s : State} (h : s.Inv) (c : Chan) (r : BitVec 32) (a : CellAction) :
    ∃ y, cellAct Config.hw c r s a = .ok y ∧ y.1.Inv := by
  cases a with
  | volume v => exact ⟨_, rfl, h.setChan (Channel.ok_setCvol (h.chan c) (cellVolume_inUnit v))⟩
  | noteStop => exact ⟨_, rfl, h.setChan (noteEnd_ok (h.chan c))⟩
  | noteOn n k =>
    by_cases hn : n.toNat < 63
    · obtain ⟨ch', h', ho⟩ := noteOn_ok (cfg := Config.hw) h.mem ⟨n.toNat, hn⟩ k (h.chan c)
      exact ⟨(s.setChan c ch', .none), by simp only [cellAct, dif_pos hn, h', except_ok_bind, except_pure],
        h.setChan ho⟩
    · exact ⟨(s, .none), by simp only [cellAct, dif_neg hn], h⟩
  | effect e => exact ⟨_, rfl, dispatch_inv h _ c r _⟩

/-- A cell's actions answer where the invariant holds and keep it. -/
theorem cellRun_inv (c : Chan) (r : BitVec 32) (l : List CellAction) (x : State × Request) (h : x.1.Inv) :
    ∃ y, cellRun Config.hw c r x l = .ok y ∧ y.1.Inv := by
  induction l generalizing x with
  | nil => exact ⟨x, rfl, h⟩
  | cons a rest ih =>
    obtain ⟨y, hy, ho⟩ := cellAct_inv h c r a
    obtain ⟨z, hz, ho'⟩ := ih y ho
    exact ⟨z, by simp [cellRun, hy, hz], ho'⟩

end Sys2Proof.Machine
end

