-- ==== Sys2Proof/Laws/PerInstr.lean ====
section
/-!
SUPPORT. Sys2Proof/Laws/PerInstr.lean: facts about every instruction as syntax, one lemma a constructor.
-/

namespace Sys2Proof.Laws.DeliveredOnPort

/-- The encoder delivers an instruction on the port, and in the format, that the opcode table gives its row. -/
def Statement (i : Instr) : Prop := (encode i).format = i.format

theorem sample : Statement .sample := rfl
theorem tick (t : BitVec 32) : Statement (.tick t) := rfl
theorem cell (c : Chan) (w : BitVec 32) (r : BitVec 32) : Statement (.cell c w r) := rfl
theorem notePlay (c : Chan) (n : BitVec 6) (k : BitVec 4) : Statement (.notePlay c n k) := rfl
theorem noteEnd (c : Chan) : Statement (.noteEnd c) := rfl
theorem volumeSet (c : Chan) (v : BitVec 64) : Statement (.volumeSet c v) := rfl
theorem effect (c : Chan) (e : BitVec 12) (r : BitVec 32) : Statement (.effect c e r) := rfl
theorem channelReset (c : Chan) : Statement (.channelReset c) := rfl
theorem songVolumeSet (v : BitVec 64) : Statement (.songVolumeSet v) := rfl
theorem oscNoteSet (c : Chan) (n : BitVec 7) : Statement (.oscNoteSet c n) := rfl
theorem oscSetFrequency (c : Chan) (f : BitVec 64) : Statement (.oscSetFrequency c f) := rfl
theorem oscSetDuty (c : Chan) (d : BitVec 64) : Statement (.oscSetDuty c d) := rfl
theorem reservedCmd (op : BitVec 2) (ch : BitVec 3) : Statement (.reservedCmd op ch) := rfl
theorem instrLoad (table : List Instrument) : Statement (.instrLoad table) := rfl
theorem cellEmpty (c : Chan) : Statement (.cellEmpty c) := rfl
theorem cellVolume (c : Chan) (v : BitVec 6) : Statement (.cellVolume c v) := rfl
theorem cellNoteStop (c : Chan) : Statement (.cellNoteStop c) := rfl
theorem cellNoteOn (c : Chan) (n : BitVec 6) (k : BitVec 4) : Statement (.cellNoteOn c n k) := rfl
theorem cellEffect (c : Chan) (e : BitVec 12) (r : BitVec 32) : Statement (.cellEffect c e r) := rfl
theorem fxArpeggio (c : Chan) (a b : BitVec 4) : Statement (.fxArpeggio c a b) := rfl
theorem fxLoopSet (c : Chan) (a : BitVec 4) (r : BitVec 32) : Statement (.fxLoopSet c a r) := rfl
theorem fxLoopRepeat (c : Chan) (a b : BitVec 4) : Statement (.fxLoopRepeat c a b) := rfl
theorem fxPatternJump (c : Chan) (p : BitVec 8) : Statement (.fxPatternJump c p) := rfl
theorem fxRowJump (c : Chan) (p : BitVec 8) : Statement (.fxRowJump c p) := rfl
theorem fxRetrigger (c : Chan) (a b : BitVec 4) : Statement (.fxRetrigger c a b) := rfl
theorem fxDelay (c : Chan) (a b : BitVec 4) : Statement (.fxDelay c a b) := rfl
theorem fxSongVolume (c : Chan) (v : BitVec 8) : Statement (.fxSongVolume c v) := rfl
theorem fxSongBps (c : Chan) (v : BitVec 8) : Statement (.fxSongBps c v) := rfl
theorem fxSongTpb (c : Chan) (a b : BitVec 4) : Statement (.fxSongTpb c a b) := rfl
theorem fxReserved9 (c : Chan) (a b : BitVec 4) : Statement (.fxReserved9 c a b) := rfl
theorem fxReserved10 (c : Chan) (a b : BitVec 4) : Statement (.fxReserved10 c a b) := rfl
theorem fxReserved11 (c : Chan) (a b : BitVec 4) : Statement (.fxReserved11 c a b) := rfl
theorem fxReserved12 (c : Chan) (a b : BitVec 4) : Statement (.fxReserved12 c a b) := rfl
theorem fxReserved13 (c : Chan) (a b : BitVec 4) : Statement (.fxReserved13 c a b) := rfl
theorem fxReserved14 (c : Chan) (a b : BitVec 4) : Statement (.fxReserved14 c a b) := rfl
theorem fxReserved15 (c : Chan) (a b : BitVec 4) : Statement (.fxReserved15 c a b) := rfl

end Sys2Proof.Laws.DeliveredOnPort
end

