-- ==== Sys2Proof/Machine/Asm.lean ====
section
/-!
DEFINITION. Sys2Proof/Machine/Asm.lean: the assembler lines of 30_encoding.md R87 as terms, and the packet of each. The
characters of a line (spaces, comments, the spelling of numbers) are not modelled (log 26).
-/

namespace Sys2Proof

/-- The 64 bits of a binary64 literal (30_encoding.md R75). The one NaN (log 11)
gives the quiet NaN of 95_test_vectors.md V-REF. -/
def Binary64.toBits : Binary64 → BitVec 64
  | .fin s m => (if s then 1#64 <<< 63 else 0) ||| BitVec.ofNat 64 m
  | .inf s => (if s then 1#64 <<< 63 else 0) ||| BitVec.ofNat 64 infMag
  | .nan => 0x7FF8000000000000

/-- One assembler line (R87). -/
inductive AsmLine where
  | sample
  | tick (t : BitVec 32)
  | cell (c : Chan) (w r : BitVec 32)
  /-- CELL with its fields by name, absent fields omitted. -/
  | cellFields (c : Chan) (f : CellFields) (r : BitVec 32)
  | notePlay (c : Chan) (n : BitVec 6) (k : BitVec 4)
  | noteEnd (c : Chan)
  | volumeSet (c : Chan) (x : Binary64)
  | effect (c : Chan) (e : BitVec 12) (r : BitVec 32)
  | channelReset (c : Chan)
  | songVolumeSet (x : Binary64)
  | oscNoteSet (c : Chan) (n : BitVec 7)
  | oscSetFrequency (c : Chan) (x : Binary64)
  | oscSetDuty (c : Chan) (x : Binary64)
deriving DecidableEq, Repr

/-- The command a line names. -/
def AsmLine.instr : AsmLine → Instr
  | .sample => .sample
  | .tick t => .tick t
  | .cell c w r => .cell c w r
  | .cellFields c f r => .cell c (encodeCell f) r
  | .notePlay c n k => .notePlay c n k
  | .noteEnd c => .noteEnd c
  | .volumeSet c x => .volumeSet c x.toBits
  | .effect c e r => .effect c e r
  | .channelReset c => .channelReset c
  | .songVolumeSet x => .songVolumeSet x.toBits
  | .oscNoteSet c n => .oscNoteSet c n
  | .oscSetFrequency c x => .oscSetFrequency c x.toBits
  | .oscSetDuty c x => .oscSetDuty c x.toBits

/-- The encoding of a line (R87): header = (op << 4) | c, data as R75 lays it out. A line may be refused when it
is decoded (OSC_SET_DUTY on a channel that is not Square). -/
def AsmLine.packet (l : AsmLine) : Packet := encode l.instr

end Sys2Proof
end

