-- ==== Sys2Proof/Tests/Slice0.lean ====
section
/-!
SUPPORT. Sys2Proof/Tests/Slice0.lean: the model's own tests. Expected values come from 95_test_vectors.md (named in each
comment) or from the rule cited; 64-bit words are binary64 encodings of the values in the comment. The second half
holds, for each statement with hypotheses, states and operands that meet them.
-/

namespace Sys2Proof.Tests

open Sys2Proof Sys2Proof.Machine

-- One theorem at a time: each kernel evaluation would otherwise hold a thread and its stack.
set_option Elab.async false

/-! ## Well-formedness: what each check refuses -/

theorem test_wf_frequency_noise : Instr.wellFormed (.oscSetFrequency .c4 0) = false := by decide
theorem test_wf_duty_saw : Instr.wellFormed (.oscSetDuty .c2 0) = false := by decide
theorem test_wf_note_on_sentinel : Instr.wellFormed (.cellNoteOn .c0 63 0) = false := by decide
theorem test_wf_loop_repeat_zero : Instr.wellFormed (.fxLoopRepeat .c0 1 0) = false := by decide

/-! ## Decoding: one word for each constructor, from V-ENC-1, V-ENC-2 and V-ENC-3 -/

theorem test_decode_sample : decode (.command 0x00 0) = .ok .sample := by decide
theorem test_decode_tick : decode (.command 0x10 5) = .ok (.tick 5) := by decide
theorem test_decode_cell : decode (.command 0x23 0x00000007C6040000) = .ok (.cell .c3 0xC6040000 7) := by decide
theorem test_decode_notePlay : decode (.command 0x32 0x118) = .ok (.notePlay .c2 24 1) := by decide
theorem test_decode_noteEnd : decode (.command 0x44 0) = .ok (.noteEnd .c4) := by decide
theorem test_decode_volumeSet :
    decode (.command 0x51 0x3FE0000000000000) = .ok (.volumeSet .c1 0x3FE0000000000000) := by decide
theorem test_decode_effect : decode (.command 0x60 0x0000000900000305) = .ok (.effect .c0 0x305 9) := by decide
theorem test_decode_channelReset : decode (.command 0x72 0) = .ok (.channelReset .c2) := by decide
theorem test_decode_songVolumeSet :
    decode (.command 0x80 0x3FD0000000000000) = .ok (.songVolumeSet 0x3FD0000000000000) := by decide
theorem test_decode_oscNoteSet : decode (.command 0x94 0xF) = .ok (.oscNoteSet .c4 15) := by decide
theorem test_decode_oscSetFrequency :
    decode (.command 0xA2 0x409F400000000000) = .ok (.oscSetFrequency .c2 0x409F400000000000) := by decide
theorem test_decode_oscSetDuty :
    decode (.command 0xB0 0x3FD0000000000000) = .ok (.oscSetDuty .c0 0x3FD0000000000000) := by decide
theorem test_decode_reservedCmd : decode (.command 0xD6 0) = .ok (.reservedCmd 1 6) := by decide
theorem test_decode_instrLoad : decode (.memoryPort []) = .ok (.instrLoad []) := by decide
theorem test_decode_cellEmpty : decode (.cellWord 0x0FFFFFFF 2 0) = .ok (.cellEmpty .c2) := by decide
theorem test_decode_cellVolume : decode (.cellWord 0x20000000 2 0) = .ok (.cellVolume .c2 0) := by decide
theorem test_decode_cellNoteStop : decode (.cellWord 0x8FC00000 1 0) = .ok (.cellNoteStop .c1) := by decide
theorem test_decode_cellNoteOn : decode (.cellWord 0xC1480000 0 0) = .ok (.cellNoteOn .c0 5 2) := by decide
theorem test_decode_cellEffect : decode (.cellWord 0x100006FF 0 9) = .ok (.cellEffect .c0 0x6FF 9) := by decide
theorem test_decode_fxArpeggio : decode (.effectCode 0x047 0 0) = .ok (.fxArpeggio .c0 4 7) := by decide
theorem test_decode_fxLoopSet : decode (.effectCode 0x100 1 2) = .ok (.fxLoopSet .c1 0 2) := by decide
theorem test_decode_fxLoopRepeat : decode (.effectCode 0x102 1 5) = .ok (.fxLoopRepeat .c1 0 2) := by decide
theorem test_decode_fxPatternJump : decode (.effectCode 0x23A 1 0) = .ok (.fxPatternJump .c1 58) := by decide
theorem test_decode_fxRowJump : decode (.effectCode 0x305 0 0) = .ok (.fxRowJump .c0 5) := by decide
theorem test_decode_fxRetrigger : decode (.effectCode 0x402 0 0) = .ok (.fxRetrigger .c0 0 2) := by decide
theorem test_decode_fxDelay : decode (.effectCode 0x503 0 0) = .ok (.fxDelay .c0 0 3) := by decide
theorem test_decode_fxSongVolume : decode (.effectCode 0x633 0 0) = .ok (.fxSongVolume .c0 51) := by decide
theorem test_decode_fxSongBps : decode (.effectCode 0x7C8 0 0) = .ok (.fxSongBps .c0 200) := by decide
theorem test_decode_fxSongTpb : decode (.effectCode 0x8F3 0 0) = .ok (.fxSongTpb .c0 15 3) := by decide
theorem test_decode_fxReserved9 : decode (.effectCode 0x900 0 0) = .ok (.fxReserved9 .c0 0 0) := by decide
theorem test_decode_fxReserved10 : decode (.effectCode 0xA12 0 0) = .ok (.fxReserved10 .c0 1 2) := by decide
theorem test_decode_fxReserved11 : decode (.effectCode 0xB12 0 0) = .ok (.fxReserved11 .c0 1 2) := by decide
theorem test_decode_fxReserved12 : decode (.effectCode 0xC12 0 0) = .ok (.fxReserved12 .c0 1 2) := by decide
theorem test_decode_fxReserved13 : decode (.effectCode 0xD12 0 0) = .ok (.fxReserved13 .c0 1 2) := by decide
theorem test_decode_fxReserved14 : decode (.effectCode 0xE12 0 0) = .ok (.fxReserved14 .c0 1 2) := by decide
theorem test_decode_fxReserved15 : decode (.effectCode 0xFFF 0 0) = .ok (.fxReserved15 .c0 15 15) := by decide

/-- V-ENC-2: three words with several fields, and one with payload under clear flags. -/
theorem test_decode_cellFields :
    decodeCell 0xF307F037 = ⟨some 12, some 1, some 63, some 0x037⟩ ∧
      decodeCell 0xFFBE0FFF = ⟨some 62, some 15, some 32, some 0xFFF⟩ ∧
      decodeCell 0x7FFFFFFF = ⟨none, some 15, some 63, some 0xFFF⟩ ∧
      decodeCell 0x0FFFFFFF = ⟨none, none, none, none⟩ := by decide

/-- R79's example: encode(12, 1, 63, 0x037). -/
theorem test_encode_cell : encodeCell ⟨some 12, some 1, some 63, some 0x037⟩ = 0xF307F037 := by decide

/-- V-ENC-1, V-CELL-1: assembler lines and their (header, data). -/
theorem test_asm_lines :
    AsmLine.packet (.notePlay .c2 24 1) = .command 0x32 0x118 ∧
      AsmLine.packet (.volumeSet .c1 .half) = .command 0x51 0x3FE0000000000000 ∧
      AsmLine.packet (.effect .c0 0x305 9) = .command 0x60 0x0000000900000305 ∧
      AsmLine.packet (.cellFields .c0 ⟨some 12, some 1, some 63, some 0x037⟩ 0) = .command 0x20 0xF307F037 := by
  decide +kernel

/-- V-REF: the refused headers. -/
theorem test_refused_headers :
    decode (.command 0x08 0) = .error .reservedBit ∧ decode (.command 0xC8 0) = .error .reservedBit ∧
      decode (.command 0x01 0) = .error .badChannel ∧ decode (.command 0x25 0) = .error .badChannel ∧
      decode (.command 0xA4 0x409F400000000000) = .error .wrongOscillator ∧
      decode (.command 0xB2 0x3FD0000000000000) = .error .wrongOscillator := by decide

/-- The opcode table's words: a header alone, a cell word, an effect code. -/
theorem test_table_words :
    decodeTableWord 8 0x70 = some (.channelReset .c0) ∧ decodeTableWord 8 0xC0 = some (.reservedCmd 0 0) ∧
      decodeTableWord 32 0x8FC00000 = some (.cellNoteStop .c0) ∧
      decodeTableWord 16 0x400 = some (.fxRetrigger .c0 0 0) := by decide

/-- The step after withFetchWord runs that instruction: CHANNEL_RESET 0 from reset. -/
theorem test_fetch_word :
    step (State.reset.withFetchWord 8 0x70) = exec (.channelReset .c0) State.reset := rfl

/-! ## The numbers: worked quotients of the spec -/

/-- W7, W12, R214, V-CELL-5: 16000 ⊘ 55, 16000 ⊘ 110, 51 ⊘ 255, 31 ⊘ 63. -/
theorem test_quotients :
    Binary64.div (.ofNat 16000) (.ofNat 55) = .ofBits 0x40722E8BA2E8BA2F ∧
      Binary64.div (.ofNat 16000) (.ofNat 110) = .ofBits 0x40622E8BA2E8BA2F ∧
      Binary64.div (.ofNat 51) (.ofNat 255) = .ofBits 0x3FC999999999999A ∧
      Binary64.div (.ofNat 31) (.ofNat 63) = .ofBits 0x3FDF7DF7DF7DF7DF := by decide +kernel

/-! ## States -/

/-- 8, the phase length of the oscillator vectors. -/
def eight : Binary64 := .ofBits 0x4020000000000000

/-- The instruments of 95_test_vectors.md section 0. -/
def i0 : Instrument := ⟨0, 0, 0, [.one], [0]⟩
def i1 : Instrument := ⟨1, 2, 2, [.one, .half, .ofBits 0x3FD0000000000000], [2, 2, 2]⟩
def i2 : Instrument := ⟨2, 0, 1, [.half, .one, .zero], [1, 1, 1]⟩
def ibad : Instrument := ⟨0, 0, 1, [.one], [1]⟩

/-- A note of I0 held at 1. -/
def heldNote : EnvelopeNote := ⟨0, 0, .count 0, .one, .one, .zero, true⟩

/-- A note just past the end of I0. -/
def pastNote : EnvelopeNote := ⟨0, 1, .infinite, .zero, .one, .zero, false⟩

/-- A channel with an oscillator and a note, the rest as at power-on. -/
def sounding (osc : Osc) (e : EnvelopeNote) : Channel := { Channel.reset osc with env := some e }

/-- The power-on state with a table loaded and one channel replaced. -/
def one (m : Memory) (c : Chan) (ch : Channel) : State :=
  { State.reset with mem := m, chans := Channels.reset.set c ch }

/-- A square oscillator of duty 0 (it outputs +1), and a saw, at len 8. -/
def plusOne : Osc := .phase (.square .zero) ⟨.zero, eight⟩
def saw (off : Binary64) : Osc := .phase .saw ⟨off, eight⟩

/-- Channel 4 sounding a held note with base note 5. -/
def noisy (fx : FxSlot) (per : Nat) : State :=
  one [i0] .c4 { sounding (.noise ⟨1, per, 0⟩) heldNote with fx := fx, baseNote := some 5 }

/-- The next state, if there is one. -/
def after (o : Host.Outcome State Fault Refusal) : Option State :=
  match o with
  | .next s => some s
  | _ => none

/-- The next state of a computation. -/
def ok (x : Except Fault State) : Option State := x.toOption

/-! ## One step of each instruction -/

/-- V-CH-4, second sample: (1 ⊕ −0.75) ⊗ 0.5 = 0.125, and the saw moves on to 2. -/
theorem test_sample_mixes :
    (ok (sampleWith Config.spec
      { State.reset with
        mem := [i0], songVol := .half,
        chans := (Channels.reset.set .c0 (sounding plusOne heldNote)).set .c2
          (sounding (saw .one) heldNote) })).map
        (fun t => (t.ports.out, (t.chan .c2).osc)) =
      some (some (.ofBits 0x3FC0000000000000), saw .two) := by decide +kernel

/-- V-ENV-1 step 16: node 2 of I1 with dur 2, goal 0.25, vol 0.375 gives 0.3125, and the duration stays. -/
theorem test_sample_envelope :
    (ok (sampleWith Config.spec (one [i1] .c0 (sounding plusOne
        ⟨0, 2, .count 2, .ofBits 0x3FD8000000000000, .ofBits 0x3FD0000000000000, .half, false⟩)))).map
        (fun t => (t.ports.out, ((t.chan .c0).env.map (·.dur)))) =
      some (some (.ofBits 0x3FD4000000000000), some (.count 2)) := by decide +kernel

/-- V-ENV-2 step 7: on the Sample clock the countdown makes the transition first, then 0.375 is output. -/
theorem test_sample_clock :
    (ok (sampleWith { envCountClock := .sample } (one [i1] .c0 (sounding plusOne
        ⟨0, 1, .count 1, .half, .half, .one, false⟩)))).map
        (fun t => (t.ports.out, ((t.chan .c0).env.map fun e => (e.idx, e.dur)))) =
      some (some (.ofBits 0x3FD8000000000000), some (2, .count 2)) := by decide +kernel

/-- V-FX-1, T 1: note 5 + 4 sets per 10; the held note is not counted down. -/
theorem test_tick_arpeggio :
    (ok (tickWith Config.spec 1 (noisy (.arpeggio 4 7) 6))).map (fun t => (t.chan .c4)) =
      some (noisy (.arpeggio 4 7) 10 |>.chan .c4) := by decide +kernel

/-- V-ENV-3 step 5: index 2 exceeds loopEnd 1, so node 0 is entered, with goal 0.5 and dur 1. -/
theorem test_tick_wraps :
    (ok (tickWith Config.spec 0 (one [i2] .c0
        (sounding plusOne ⟨0, 1, .count 1, .one, .one, .half, true⟩)))).map (fun t => (t.chan .c0).env) =
      some (some ⟨0, 0, .count 1, .one, .half, .one, true⟩) := by decide +kernel

/-- V-CELL-1: cvol 1, note 12 with instrument 1 (len 16000 ⊘ 110), Arpeggio{3,7}, no request. -/
theorem test_cell_all_fields :
    ((cellRun Config.spec .c0 0 (one [i0, i1] .c0 { Channel.reset plusOne with cvol := .half }, .none)
        (cellActions (decodeCell 0xF307F037))).toOption).map
        (fun x => ((x.1.chan .c0).cvol, (x.1.chan .c0).fx, (x.1.chan .c0).baseNote, (x.1.chan .c0).osc, x.2)) =
      some (.one, .arpeggio 3 7, some 12,
        .phase (.square .zero) ⟨.zero, .ofBits 0x40622E8BA2E8BA2F⟩, .none) := by decide +kernel

/-- V-CELL-8: cvol 10 ⊘ 63, the note released, RowJump{5} with jumped. -/
theorem test_cell_note_stop :
    (after (exec (.cell .c0 0xFFC8A305 4) (one [i0, i0, i0] .c0 (sounding plusOne heldNote)))).map
        (fun t => ((t.chan .c0).cvol, (t.chan .c0).env, t.ports)) =
      some (.ofBits 0x3FC4514514514514, some { heldNote with live := false },
        ⟨none, some (.rowJump 5), some true, none⟩) := by decide +kernel

/-- V-ENV-5: the new note carries the volume 0.5 of the one it replaces, and starts at node 0 of I1. -/
theorem test_notePlay_carries :
    (ok (notePlayWith Config.spec .c4 0 0 (one [i1] .c4
        (sounding (.noise ⟨1, 2, 0⟩) ⟨0, 1, .count 2, .half, .half, .one, true⟩)))).map
        (fun t => (t.chan .c4).env) =
      some (some ⟨0, 0, .count 2, .half, .one, .half, true⟩) := by decide +kernel

/-- V-CH-10: NOTE_PLAY 4, 5, 0 clears the effect and sets per 6. -/
theorem test_notePlay_clears_effect :
    (after (exec (.notePlay .c4 5 0) (noisy (.arpeggio 4 7) 13))).map
        (fun t => ((t.chan .c4).fx, (t.chan .c4).osc)) =
      some (.none, .noise ⟨1, 6, 0⟩) := by decide +kernel

/-- V-CELL-2's release, by NOTE_END: only live is cleared. -/
theorem test_noteEnd :
    (after (exec (.noteEnd .c1) (one [i0] .c1 (sounding plusOne heldNote)))).map (fun t => (t.chan .c1).env) =
      some (some { heldNote with live := false }) := by decide +kernel

/-- V-CH-11: −0 is admitted and stored. -/
theorem test_volumeSet_negative_zero :
    (after (exec (.volumeSet .c0 0x8000000000000000) State.reset)).map
        (fun t => ((t.chan .c0).cvol, t.refused)) =
      some (Binary64.neg .zero, false) := by decide +kernel

/-- V-REF: NaN is refused with BadOperand. -/
theorem test_volumeSet_nan :
    (after (exec (.volumeSet .c0 0x7FF8000000000000) State.reset)).map
        (fun t => (t.chans, t.refused, t.ports.reason)) =
      some (Channels.reset, true, some .badOperand) := by decide +kernel

/-- V-FX-2: the reserved kind 9 tears Arpeggio down: per 6 again, fx None, req None. -/
theorem test_effect_teardown :
    (after (exec (.effect .c4 0x900 0) (noisy (.arpeggio 4 7) 13))).map
        (fun t => ((t.chan .c4).osc, (t.chan .c4).fx, t.ports.req)) =
      some (.noise ⟨1, 6, 0⟩, .none, some .none) := by decide +kernel

/-- V-RST-2: after CHANNEL_RESET 4 per and lfsr, fx and baseNote stay; env and bookmark go and cvol is 1. -/
theorem test_channelReset :
    (after (exec (.channelReset .c4) (one [i0] .c4
        { sounding (.noise ⟨1, 6, 0⟩) heldNote with
          cvol := .half, bookmark := some ⟨2, 1⟩, baseNote := some 5, fx := .delay 0 3 }))).map
        (fun t => t.chan .c4) =
      some ⟨.noise ⟨1, 6, 0⟩, none, .one, .delay 0 3, none, some 5⟩ := by decide +kernel

/-- R179's example: SONG_VOLUME_SET 0.25. -/
theorem test_songVolumeSet :
    (after (exec (.songVolumeSet 0x3FD0000000000000) State.reset)).map (fun t => t.songVol) =
      some (.ofBits 0x3FD0000000000000) := by decide +kernel

/-- R130's example: OSC_NOTE_SET 4, 15 sets per 16. -/
theorem test_oscNoteSet :
    (after (exec (.oscNoteSet .c4 15) State.reset)).map (fun t => (t.chan .c4).osc) =
      some (.noise ⟨1, 16, 0⟩) := by decide +kernel

/-- V-REF: n = 78 is refused. -/
theorem test_oscNoteSet_refused :
    (after (exec (.oscNoteSet .c0 78) State.reset)).map (fun t => t.ports.reason) =
      some (some .badOperand) := by decide +kernel

/-- V-OSC-2: off 2, len 8, f = 4000 gives len 4, off 1. -/
theorem test_oscSetFrequency :
    (after (exec (.oscSetFrequency .c2 0x40AF400000000000) (one [] .c2 (Channel.reset (saw .two))))).map
        (fun t => (t.chan .c2).osc) =
      some (.phase .saw ⟨.one, .four⟩) := by decide +kernel

/-- V-REF: f = 16384 is refused. -/
theorem test_oscSetFrequency_refused :
    (after (exec (.oscSetFrequency .c0 0x40D0000000000000) State.reset)).map (fun t => t.ports.reason) =
      some (some .badOperand) := by decide +kernel

/-- The setDuty table, row 1: off 6, d 0.25 gives off 2. -/
theorem test_oscSetDuty_snaps :
    ((oscSetDutyWith Config.spec .c0 0x3FD0000000000000 (one [] .c0
        (Channel.reset (.phase (.square .half) ⟨.ofBits 0x4018000000000000, eight⟩)))).chan .c0).osc =
      .phase (.square (.ofBits 0x3FD0000000000000)) ⟨.two, eight⟩ := by decide +kernel

/-- The setDuty table, row 3: off 6, d 0.875 gives off 0. -/
theorem test_oscSetDuty_resets :
    ((oscSetDutyWith Config.spec .c0 0x3FEC000000000000 (one [] .c0
        (Channel.reset (.phase (.square .half) ⟨.ofBits 0x4018000000000000, eight⟩)))).chan .c0).osc =
      .phase (.square (.ofBits 0x3FEC000000000000)) ⟨.zero, eight⟩ := by decide +kernel

/-- V-REF: 0xC0 is refused with ReservedOp and changes nothing else. -/
theorem test_reservedCmd :
    after (exec (.reservedCmd 0 0) State.reset) =
      some { State.reset with refused := true, ports := ⟨none, none, none, some .reservedOp⟩ } := by decide +kernel

/-- V-REF: [Ibad] while a channel has a note is InstrInUse, with none InstrInvalid; R244: a table of 17 records too. -/
theorem test_instrLoad_refused :
    (instrLoadWith Config.spec [ibad] (noisy .none 2)).ports.reason = some .instrInUse ∧
      (instrLoadWith Config.spec [ibad] State.reset).ports.reason = some .instrInvalid ∧
      ((after (step { noisy .none 2 with inbox := [.memoryPort (List.replicate 17 i0)] })).map
        (fun t => t.ports.reason)) = some (some .instrInUse) := by decide +kernel

/-- R53: the table becomes the memory. -/
theorem test_instrLoad :
    instrLoadWith Config.spec [i0, i1] State.reset = { State.reset with mem := [i0, i1] } := by decide +kernel

/-- V-CELL-3. -/
theorem test_cellEmpty :
    (after (exec (.cellEmpty .c2) State.reset)).map (fun t => (t.chans, t.ports.req, t.ports.jumped)) =
      some (Channels.reset, some .none, some false) := by decide +kernel

/-- V-CELL-5: vol 31. -/
theorem test_cellVolume :
    (after (exec (.cellVolume .c2 31) State.reset)).map (fun t => (t.chan .c2).cvol) =
      some (.ofBits 0x3FDF7DF7DF7DF7DF) := by decide +kernel

/-- V-CELL-2. -/
theorem test_cellNoteStop :
    (after (exec (.cellNoteStop .c1) (one [i0] .c1 (sounding plusOne heldNote)))).map
        (fun t => (t.chan .c1).env) =
      some (some { heldNote with live := false }) := by decide +kernel

/-- V-CELL-6: an unresolved instrument plays nothing. -/
theorem test_cellNoteOn_unresolved :
    (after (exec (.cellNoteOn .c0 5 2) (one [i0] .c0 (Channel.reset plusOne)))).map (fun t => t.chan .c0) =
      some (Channel.reset plusOne) := by decide +kernel

/-- P4 step 2's note: per 6, and a fresh note. -/
theorem test_cellNoteOn :
    (after (exec (.cellNoteOn .c4 5 0) (one [i0] .c4 (Channel.reset (.noise ⟨1, 1, 0⟩))))).map
        (fun t => ((t.chan .c4).osc, (t.chan .c4).env)) =
      some (.noise ⟨1, 6, 0⟩, some ⟨0, 0, .count 0, .zero, .one, .zero, true⟩) := by decide +kernel

/-- V-FX-13's kind by a cell: RowJump{255}. -/
theorem test_cellEffect :
    (after (exec (.cellEffect .c0 0x3FF 0) State.reset)).map (fun t => (t.ports.req, t.ports.jumped)) =
      some (some (.rowJump 255), some true) := by decide +kernel

/-- R207's example: installed, and the oscillator is not yet retuned. -/
theorem test_fxArpeggio :
    (after (exec (.fxArpeggio .c4 4 7) (noisy .none 6))).map (fun t => ((t.chan .c4).fx, (t.chan .c4).osc)) =
      some (.arpeggio 4 7, .noise ⟨1, 6, 0⟩) := by decide +kernel

/-- V-FX-9. -/
theorem test_fxLoopSet :
    (after (exec (.fxLoopSet .c1 0 2) State.reset)).map (fun t => ((t.chan .c1).bookmark, t.ports.req)) =
      some (some ⟨2, 0⟩, some .none) := by decide +kernel

/-- P5 step 3: the count is kept. -/
theorem test_fxLoopSet_keeps_count :
    (after (exec (.fxLoopSet .c1 0 2) (one [] .c1
        { Channel.reset plusOne with bookmark := some ⟨9, 1⟩ }))).map (fun t => (t.chan .c1).bookmark) =
      some (some ⟨2, 1⟩) := by decide +kernel

/-- V-FX-10. -/
theorem test_fxLoopRepeat_new :
    (after (exec (.fxLoopRepeat .c1 0 1) State.reset)).map (fun t => ((t.chan .c1).bookmark, t.ports.req)) =
      some (some ⟨0, 1⟩, some (.loopJump 0)) := by decide +kernel

/-- V-FX-11. -/
theorem test_fxLoopRepeat_ends :
    (after (exec (.fxLoopRepeat .c1 0 1) (one [] .c1
        { Channel.reset plusOne with bookmark := some ⟨0, 1⟩ }))).map
        (fun t => ((t.chan .c1).bookmark, t.ports.req)) =
      some (none, some .none) := by decide +kernel

/-- V-FX-12. -/
theorem test_fxPatternJump :
    (after (exec (.fxPatternJump .c0 58) State.reset)).map (fun t => (t.ports.req, t.ports.jumped)) =
      some (some (.patternJump 58), some true) := by decide +kernel

/-- R211's example. -/
theorem test_fxRowJump :
    (after (exec (.fxRowJump .c0 5) State.reset)).map (fun t => (t.ports.req, t.ports.jumped)) =
      some (some (.rowJump 5), some true) := by decide +kernel

/-- R212's example. -/
theorem test_fxRetrigger :
    (after (exec (.fxRetrigger .c0 0 2) State.reset)).map (fun t => (t.chan .c0).fx) =
      some (.retrigger 0 2) := by decide +kernel

/-- V-FX-4 at T 2: the countdown leaves node 0 and the retrigger puts the note back there. -/
theorem test_tick_retrigger :
    (ok (tickWith Config.spec 2 (one [i1] .c0
        { sounding plusOne ⟨0, 0, .count 1, .one, .one, .one, true⟩ with fx := .retrigger 0 2 }))).map
        (fun t => (t.chan .c0).env) =
      some (some ⟨0, 0, .count 2, .one, .one, .one, true⟩) := by decide +kernel

/-- R213's example. -/
theorem test_fxDelay :
    (after (exec (.fxDelay .c0 0 3) State.reset)).map (fun t => (t.chan .c0).fx) = some (.delay 0 3) := by
  decide +kernel

/-- P6 step 5: TICK 0 silences. -/
theorem test_tick_delay :
    (ok (tickWith Config.spec 0 (one [i0] .c0 { sounding plusOne heldNote with fx := .delay 0 2 }))).map
        (fun t => (t.chan .c0).env) =
      some (some ⟨0, 1, .infinite, .zero, .zero, .zero, true⟩) := by decide +kernel

/-- V-FX-14 and V-FX-16: 51 ⊘ 255 is the binary64 nearest 0.2, and Retrigger is torn down. -/
theorem test_fxSongVolume :
    (after (exec (.fxSongVolume .c0 51) (one [] .c0 { Channel.reset plusOne with fx := .retrigger 0 2 }))).map
        (fun t => (t.songVol, (t.chan .c0).fx)) =
      some (.ofBits 0x3FC999999999999A, .none) := by decide +kernel

/-- R215's example: not clamped. -/
theorem test_fxSongBps :
    (after (exec (.fxSongBps .c0 200) State.reset)).map (fun t => (t.ports.req, t.ports.jumped)) =
      some (some (.setBps 200), some false) := by decide +kernel

/-- V-FX-15's kind: arg1 is ignored. -/
theorem test_fxSongTpb :
    (after (exec (.fxSongTpb .c0 15 3) State.reset)).map (fun t => t.ports.req) = some (some (.setTpb 3)) := by
  decide +kernel

/-- R217's example, on the noise channel, for the reserved kinds 9 and 15 (V-FX-2). -/
theorem test_fxReserved :
    (after (exec (.fxReserved9 .c4 0 0) (noisy (.arpeggio 4 7) 13))).map (fun t => t.chan .c4) =
        some ((noisy .none 6).chan .c4) ∧
      (after (exec (.fxReserved15 .c4 15 15) (noisy (.arpeggio 4 7) 13))).map (fun t => t.chan .c4) =
        some ((noisy .none 6).chan .c4) := by decide +kernel

/-- V-FX-17: the kinds 10 to 14 with no effect installed. -/
theorem test_fxReserved_idle :
    [Instr.fxReserved10 .c0 0 0, .fxReserved11 .c0 1 2, .fxReserved12 .c0 1 2, .fxReserved13 .c0 1 2,
        .fxReserved14 .c0 1 2].all (fun i => decide ((after (exec i State.reset)).map (fun t => t.chans) =
          some Channels.reset)) = true := by decide +kernel

/-- R23: the advance at len = 1, off = 1 − 2^-53 stays below len (log 19). -/
theorem test_advance_guard :
    PhaseAcc.advance ⟨.ofBits 0x3FEFFFFFFFFFFFFF, .one⟩ = ⟨.zero, .one⟩ := by decide +kernel

/-- R110: at the spec's defaults the policy is its DUTY_PHASE_POLICY_default. -/
theorem test_duty_policy_default (p dOld dNew : Binary64) :
    dutyPhasePolicy Config.spec p dOld dNew =
      if Binary64.le dOld p && Binary64.le dNew p then dNew else .zero := rfl

/-- R88: LOAD_SONG without a volume sets it to 1. -/
theorem test_loadSong_default :
    (loadSong [] none).getLast? = some (.songVolumeSet 0x3FF0000000000000) := by decide

/-- W11: the worked LFSR steps. -/
theorem test_lfsr :
    lfsrStep 0x0001 = 0x4000 ∧ lfsrStep 0x0002 = 0x4001 ∧ lfsrStep 0x4001 = 0x6000 ∧
      lfsrStep 0x0003 = 0x0001 := by decide

/-- V-NOISE-3: with cnt 7 and per 3 the next sample steps the register and clears cnt. -/
theorem test_noise_lowered_period : (NoiseGen.advance ⟨1, 3, 7⟩) = ⟨0x4000, 3, 0⟩ := by decide

/-! ## States and operands that meet the hypotheses of the statements -/

/-- Channel 4 sounds a held note of I0, a packet waits, the song volume is 0.5. -/
def playing : State :=
  { noisy .none 2 with songVol := .half, inbox := [.command 0x00 0] }

theorem wf_i0 : Memory.wf Config.hw [i0] = true := by
  have h : ∀ cfg : Config, Memory.wf cfg [i0] = true := fun cfg => by
    have hp := cfg.maxNodes_pos
    have h1 : decide (1 ≤ cfg.maxNodes) = true := decide_eq_true hp
    show (decide (1 ≤ 16) && ((true && decide (1 ≤ cfg.maxNodes)) && true)) = true
    rw [h1]
    rfl
  exact h Config.hw

theorem phase_reset_ok : PhaseAcc.ok ⟨.zero, .one⟩ :=
  ⟨by decide, by decide, by decide, by decide +kernel⟩

/-- SampleMixesTheChannels, TickAdvancesEveryChannel, NothingStopsTheBlock: a state that meets the invariant, is not the
power-on state, and has a note. -/
theorem witness_inv : playing.Inv ∧ ∃ e, (playing.chan .c4).env = some e := by
  refine ⟨⟨wf_i0, fun c => ?_, by decide +kernel⟩, _, rfl⟩
  cases c
  case c4 =>
    refine ⟨rfl, ?_, fun e h => ?_, by decide +kernel, fun b h => by cases h⟩
    · show (1 ≤ 2) ∧ ((1 : BitVec 15) ≠ 0)
      decide
    · cases h
      refine ⟨i0, rfl, by decide +kernel, ?_⟩
      show 0 < 1 ∧ (0 : Int) ≤ 0
      decide
  all_goals
    refine ⟨rfl, ?_, (fun e h => by cases h), by decide +kernel, (fun b h => by cases h)⟩
    first
    | exact ⟨phase_reset_ok, by decide⟩
    | exact phase_reset_ok

/-- StepRunsTheDecodedInstruction: a delivery that decodes, one that is refused, none. -/
theorem witness_StepRunsTheDecodedInstruction :
    (playing.inbox = .command 0x00 0 :: [] ∧ decode (.command 0x00 0) = .ok .sample) ∧
      decode (.command 0x08 0) = .error .reservedBit ∧ (noisy .none 2).inbox = [] :=
  ⟨⟨rfl, rfl⟩, rfl, rfl⟩

/-- BadHeadersAreRefused: the boundary headers of each clause, and two data words that differ in an unnamed bit. -/
theorem witness_BadHeadersAreRefused :
    (0x08 : BitVec 8).getLsbD 3 = true ∧
      ((0xC0 : BitVec 8).getLsbD 3 = false ∧ 12 ≤ (0xC0 : BitVec 8).toNat / 16) ∧
      (∀ h ∈ [(0x01 : BitVec 8), 0x17, 0x81], h.getLsbD 3 = false ∧
        (h.toNat / 16 = 0 ∨ h.toNat / 16 = 1 ∨ h.toNat / 16 = 8) ∧ h.toNat % 8 ≠ 0) ∧
      (∀ h ∈ [(0x25 : BitVec 8), 0x77, 0x95, 0xB7], h.getLsbD 3 = false ∧ h.toNat / 16 < 12 ∧ h.toNat / 16 ≠ 0 ∧
        h.toNat / 16 ≠ 1 ∧ h.toNat / 16 ≠ 8 ∧ 4 < h.toNat % 8) ∧
      (0x00000 : BitVec 64) &&& dataMask ((0x30 : BitVec 8).extractLsb' 4 4) =
        0x1F0C0 &&& dataMask ((0x30 : BitVec 8).extractLsb' 4 4) := by decide +kernel

/-- DecodeOfEncodeIsTheInstruction: operands at the ends of their ranges. -/
theorem witness_DecodeOfEncodeIsTheInstruction :
    Instr.wellFormed (.oscSetFrequency .c3 0xFFFFFFFFFFFFFFFF) = true ∧ Instr.wellFormed (.oscSetDuty .c1 0) = true ∧
      Instr.wellFormed (.cellNoteOn .c0 62 15) = true ∧ Instr.wellFormed (.fxLoopRepeat .c0 15 1) = true ∧
      Instr.wellFormed (.instrLoad (List.replicate 16 i0)) = true := by decide +kernel

/-- DecodedInstructionsAreWellFormed. -/
theorem witness_DecodedInstructionsAreWellFormed :
    decode (.cellWord 0xCFBC0000 4 7) = .ok (.cellNoteOn .c4 62 15) ∧
      decode (.memoryPort (List.replicate 16 i0)) = .ok (.instrLoad (List.replicate 16 i0)) := by
  exact ⟨by decide +kernel, rfl⟩

/-- VolumeCommandsStoreOrRefuse: 1, 0 and −0 are admitted; just above 1, −1, infinity and NaN are not. -/
theorem witness_VolumeCommandsStoreOrRefuse :
    ([(0x3FF0000000000000 : BitVec 64), 0, 0x8000000000000000].all fun v =>
      (Binary64.ofBits v).isFinite && Binary64.le .zero (.ofBits v) && Binary64.le (.ofBits v) .one) = true ∧
    ([(0x3FF0000000000001 : BitVec 64), 0xBFF0000000000000, 0x7FF0000000000000, 0x7FF8000000000000].any fun v =>
      (Binary64.ofBits v).isFinite && Binary64.le .zero (.ofBits v) && Binary64.le (.ofBits v) .one) = false := by
  decide +kernel

/-- NoteEndReleasesTheNote: a channel with a note and one without. -/
theorem witness_NoteEndReleasesTheNote :
    (playing.chan .c4).env = some heldNote ∧ (playing.chan .c0).env = none := ⟨rfl, rfl⟩

/-- NotePlayStartsTheNote: the sentinel; the first slot not loaded; the last slot loaded, on a channel with a note and
on one without. -/
theorem witness_NotePlayStartsTheNote :
    (63#6 = 63) ∧ (62#6 ≠ 63 ∧ playing.mem.length ≤ (1#4).toNat) ∧
      ((62#6).toNat < 63 ∧ playing.mem[(0#4).toNat]? = some i0 ∧ i0.dur[0]? = some 0 ∧ i0.vol[0]? = some .one ∧
        ((playing.chan .c4).env = some heldNote ∧ heldNote.vol = .one) ∧ (playing.chan .c0).env = none) := by decide +kernel

/-- OscNoteSetRetunes: 78 on any channel; 77 on the noise oscillator and on a phase accumulator. -/
theorem witness_OscNoteSetRetunes :
    77 < (78#7).toNat ∧ (77#7).toNat ≤ 77 ∧ (playing.chan .c4).osc = .noise ⟨1, 2, 0⟩ ∧
      (playing.chan .c2).osc = .phase .saw ⟨.zero, .one⟩ := by decide +kernel

/-- R10 does not exclude an infinite 16000 ⊘ NOTE_FREQ(n), so both cases of OscNoteSetRetunes' length can arise
(log 25). -/
theorem test_noteLength_free :
    (∃ cfg : Config, noteLength cfg 1 = cfg.noteLenFree 1) ∧
      noteLength Config.spec 0 = Binary64.div (.ofNat 16000) (.ofNat 55) := by
  refine ⟨⟨{
    noteFreq := fun n => if n = 1 then .ofBits 1 else Config.noteFreqRounded n
    noteFreq_range := fun n h => by
      by_cases e : n = 1
      · subst e; decide +kernel
      · simpa only [if_neg e] using Config.noteFreqRounded_range n h
    noteFreq_octave := fun k h => by
      rw [if_neg (by omega)]; exact Config.noteFreqRounded_octave k h }, ?_⟩, by decide +kernel⟩
  simp only [noteLength, if_true]
  exact if_neg (by decide +kernel)

/-- R181 and R123 beside R25: a SAMPLE without a note leaves cnt above a lowered per (log 28). -/
theorem test_sample_keeps_lowered_period :
    (after (exec (.oscNoteSet .c4 2) (one [] .c4 (Channel.reset (.noise ⟨1, 9, 7⟩))))).bind (fun t =>
      (after (exec .sample t)).map (fun u => (u.chan .c4).osc)) = some (.noise ⟨1, 3, 7⟩) := by decide +kernel

/-- OscSetFrequencyRetunes: 16000 and 16000 · 2^-52 are admitted; 0, and values just outside them, are not. -/
theorem witness_OscSetFrequencyRetunes :
    (playing.chan .c2).osc = .phase .saw ⟨.zero, .one⟩ ∧
    ([(0x40CF400000000000 : BitVec 64), 0x3D8F400000000000].all fun f =>
      (Binary64.ofBits f).isFinite && Binary64.lt .zero (.ofBits f) && Binary64.le (.ofBits f) (.ofNat 16000) &&
        Binary64.le (Binary64.div (.ofNat 16000) (.ofBits f)) (.ofNat (2 ^ 52))) = true ∧
    ([(0 : BitVec 64), 0x40CF400000000001, 0x3D8F3FFFFFFFFFFF].any fun f =>
      (Binary64.ofBits f).isFinite && Binary64.lt .zero (.ofBits f) && Binary64.le (.ofBits f) (.ofNat 16000) &&
        Binary64.le (Binary64.div (.ofNat 16000) (.ofBits f)) (.ofNat (2 ^ 52))) = false := by
  exact ⟨rfl, by decide +kernel, by decide +kernel⟩

/-- OscSetDutyMovesThePhase: 0 and 1 are admitted, the next value above 1 is not. -/
theorem witness_OscSetDutyMovesThePhase :
    (playing.chan .c1).osc = .phase (.square .half) ⟨.zero, .one⟩ ∧
    ([(0x3FF0000000000000 : BitVec 64), 0].all fun d =>
      (Binary64.ofBits d).isFinite && Binary64.le .zero (.ofBits d) && Binary64.le (.ofBits d) .one) = true ∧
    ¬((Binary64.ofBits 0x3FF0000000000001).isFinite = true ∧ Binary64.le .zero (.ofBits 0x3FF0000000000001) = true ∧
        Binary64.le (.ofBits 0x3FF0000000000001) .one = true) := by
  exact ⟨rfl, by decide +kernel, by decide +kernel⟩

/-- The admission condition of the InstrLoadReplacesTheMemory statement. -/
def admitted (ins : Instrument) : Prop :=
  ins.dur.length = ins.vol.length ∧ (∀ v ∈ ins.vol, v.isFinite = true) ∧ ins.loopStart ≤ ins.loopEnd ∧
    ins.loopEnd < ins.vol.length ∧ ins.sustain < ins.vol.length ∧ ins.vol.length ≤ Config.hw.maxNodes

/-- InstrLoadReplacesTheMemory: a note; no note and Ibad; no note and 16 records of I0. OnlyInstrLoadWritesTheMemory: 17
records. -/
theorem witness_InstrLoadReplacesTheMemory :
    (∃ c, (playing.chan c).env ≠ none) ∧ (∀ c, (State.reset.chan c).env = none) ∧
      ¬(∀ ins ∈ [ibad], admitted ins) ∧
      ((List.replicate 16 i0).length ≤ 16 ∧ ∀ ins ∈ List.replicate 16 i0, admitted ins) ∧
      16 < (List.replicate 17 i0).length := by
  refine ⟨⟨.c4, by decide +kernel⟩, fun c => by cases c <;> rfl, fun h => ?_, ⟨by decide +kernel, fun ins h => ?_⟩,
    by decide +kernel⟩
  · exact absurd (h ibad (by simp)).2.2.2.1 (by decide +kernel)
  · rw [List.eq_of_mem_replicate h]
    exact ⟨rfl, by decide +kernel, by decide +kernel, by decide +kernel, by decide +kernel, Config.hw.maxNodes_pos⟩

/-- CellDoesVolumeThenNoteThenEffect: a word with every field, with a resolving instrument, and with the sentinel, on a
state that meets the invariant (`witness_inv`). -/
theorem witness_CellDoesVolumeThenNoteThenEffect :
    playing.Inv ∧ decodeCell 0xF303F037 = ⟨some 12, some 0, some 63, some 0x037⟩ ∧
      (0#4).toNat < playing.mem.length ∧ decodeCell 0x8FC00000 = ⟨some 63, none, none, none⟩ :=
  ⟨witness_inv.1, by decide +kernel, by decide +kernel, by decide +kernel⟩

/-- CellActionsComplete: with and without a note; the last loaded slot and the first that is not. -/
theorem witness_CellActionsComplete :
    playing.Inv ∧ (62#6).toNat < 63 ∧ (0#4).toNat < playing.mem.length ∧ playing.mem.length ≤ (1#4).toNat ∧
      (playing.chan .c4).env = some heldNote ∧ (playing.chan .c0).env = none :=
  ⟨witness_inv.1, by decide +kernel, by decide +kernel, by decide +kernel, rfl, rfl⟩

/-- BareActionsAgreeWithTheirCommand. -/
theorem witness_BareActionsAgreeWithTheirCommand : (62#6) ≠ 63 := by decide +kernel

/-- A state whose channel 1 has a bookmark (2, 1). -/
def marked : State := one [] .c1 { Channel.reset plusOne with bookmark := some ⟨2, 1⟩ }

/-- LoopSetMovesTheBookmark: no bookmark, and a bookmark. -/
theorem witness_LoopSetMovesTheBookmark :
    (marked.chan .c0).bookmark = none ∧ (marked.chan .c1).bookmark = some ⟨2, 1⟩ := ⟨rfl, rfl⟩

/-- LoopRepeatCountsAndJumps: no bookmark; a bookmark with its count one below arg2, and equal to it. -/
theorem witness_LoopRepeatCountsAndJumps :
    ((marked.chan .c0).bookmark = none ∧ (⟨0, 0⟩ : Bookmark).count < (1#4).toNat) ∧
      ((marked.chan .c1).bookmark = some ⟨2, 1⟩ ∧ 1 < (2#4).toNat ∧ (1#4).toNat ≤ 1 ∧ (1#4) ≠ 0) := by decide +kernel

/-- LoopEndRepeatsExactly: a bookmark with count 0, and the largest arg2. -/
theorem witness_LoopEndRepeatsExactly :
    ((one [] .c1 { Channel.reset plusOne with bookmark := some ⟨2, 0⟩ }).chan .c1).bookmark = some ⟨2, 0⟩ ∧
      (15#4) ≠ 0 := by decide +kernel

/-- RequestKindsAskTheHost: a state after the teardown of a channel with no effect. -/
theorem witness_RequestKindsAskTheHost :
    playing.setChan .c4 (fxTeardown Config.hw (playing.chan .c4)) = playing := rfl

/-- ReservedKindsOnlyTearDown: a channel with Arpeggio and a base note, and one with neither. -/
theorem witness_ReservedKindsOnlyTearDown :
    (((noisy (.arpeggio 4 7) 13).chan .c4).fx = .arpeggio 4 7 ∧
        ((noisy (.arpeggio 4 7) 13).chan .c4).baseNote = some 5) ∧
      (((noisy (.arpeggio 4 7) 13).chan .c0).fx = .none) := by decide +kernel

/-- JumpedMarksTheJumps: a next state that drives a jump, one that drives another request, one that drives none. -/
theorem witness_JumpedMarksTheJumps :
    (∃ t, exec (.fxRowJump .c0 5) State.reset = .next t ∧ t.ports.req = some (.rowJump 5)) ∧
      (∃ t, exec (.fxSongBps .c0 5) State.reset = .next t ∧ t.ports.req = some (.setBps 5)) ∧
      ∃ t, exec (.noteEnd .c0) State.reset = .next t ∧ t.ports.req = none :=
  ⟨⟨_, rfl, rfl⟩, ⟨_, rfl, rfl⟩, ⟨_, rfl, rfl⟩⟩

/-- ChannelSampleIsTheProduct: no note; a held note on the Tick clock. -/
theorem witness_ChannelSampleIsTheProduct :
    (playing.chan .c0).env = none ∧ (playing.chan .c4).env = some heldNote ∧
      envSample Config.spec [i0] heldNote = .ok (.one, heldNote) := by decide +kernel

/-- A released note traversing I0. -/
def releasedNote : EnvelopeNote := { heldNote with live := false }

/-- EnvelopeSampleValue: both clocks; past the end at the first index, held, and traversing the last index. -/
theorem witness_EnvelopeSampleValue :
    (Config.spec.envCountClock = .tick ∧ ({ envCountClock := .sample } : Config).envCountClock = .sample) ∧
      (envCountdown [i0] pastNote = .ok pastNote ∧ i0.nodes ≤ pastNote.idx) ∧
      (envCountdown [i0] heldNote = .ok heldNote ∧ heldNote.live = true ∧ heldNote.idx = i0.sustain ∧
        heldNote.idx < i0.nodes ∧ i0.vol[heldNote.idx]? = some .one) ∧
      (envCountdown [i0] { releasedNote with dur := .count 2 } = .ok { releasedNote with dur := .count 1 } ∧
        releasedNote.idx < i0.nodes ∧ ¬(releasedNote.live = true ∧ releasedNote.idx = i0.sustain)) := by decide +kernel

/-- ChannelTickCountsDownThenSteps: no note; the Sample clock; the Tick clock with a note; no effect. -/
theorem witness_ChannelTickCountsDownThenSteps :
    (playing.chan .c0).env = none ∧ ({ envCountClock := .sample } : Config).envCountClock = .sample ∧
      (Config.spec.envCountClock = .tick ∧ (playing.chan .c4).env = some heldNote ∧
        envCountdown [i0] heldNote = .ok heldNote) ∧ (playing.chan .c4).fx = .none := by decide +kernel

/-- ArpeggioStepRetunes: with and without a base note, on the three residues, the largest tick among them. -/
theorem witness_ArpeggioStepRetunes :
    (((noisy (.arpeggio 4 7) 6).chan .c4).fx = .arpeggio 4 7 ∧
        ((noisy (.arpeggio 4 7) 6).chan .c4).baseNote = some 5) ∧
      ((0xFFFFFFFF#32).toNat % 3 = 0 ∧ (1#32).toNat % 3 = 1 ∧ (2#32).toNat % 3 = 2) ∧
      (({ Channel.reset plusOne with fx := .arpeggio 4 7 } : Channel).baseNote = none) := by decide +kernel

/-- RetriggerStepRestarts: arg2 = 0; arg2 = 1 on tick 0 with a note; arg2 = 2 on tick 1; no note. -/
theorem witness_RetriggerStepRestarts :
    ((noisy (.retrigger 0 1) 6).chan .c4).fx = .retrigger 0 1 ∧
      ((1#4) ≠ 0 ∧ (0#32).toNat % (1#4).toNat = 0 ∧ ((noisy (.retrigger 0 1) 6).chan .c4).env = some heldNote ∧
        [i0][heldNote.inst.toNat]? = some i0 ∧ i0.dur[0]? = some 0 ∧ i0.vol[0]? = some .one) ∧
      (1#32).toNat % (2#4).toNat ≠ 0 ∧
      ({ Channel.reset plusOne with fx := .retrigger 0 0 } : Channel).env = none := by decide +kernel

/-- DelayStepSilencesThenRestarts: tick 0 with arg2 = 1; ticks 0 and 1 equal to arg2; a tick that is neither; no
note. -/
theorem witness_DelayStepSilencesThenRestarts :
    ((noisy (.delay 0 1) 6).chan .c4).fx = .delay 0 1 ∧
      (((noisy (.delay 0 1) 6).chan .c4).env = some heldNote ∧ [i0][heldNote.inst.toNat]? = some i0 ∧
        i0.dur[0]? = some 0 ∧ i0.vol[0]? = some .one) ∧
      ((0#32).toNat = 0 ∧ (1#4) ≠ 0) ∧ (0#32).toNat = (0#4).toNat ∧ (1#32).toNat = (1#4).toNat ∧
      ((2#32).toNat ≠ 0 ∧ (2#32).toNat ≠ (1#4).toNat) ∧
      ({ Channel.reset plusOne with fx := .delay 0 1 } : Channel).env = none := by decide +kernel

/-- TransitionEntersTheNextNode: from the last node released (the index reaches N), from loopEnd live (it wraps to
node 0), and to a node in between. -/
theorem witness_TransitionEntersTheNextNode :
    (nextIdx i2 ⟨0, 2, .count 0, .zero, .zero, .zero, false⟩ = 3 ∧ i2.nodes ≤ 3) ∧
      (nextIdx i2 ⟨0, 1, .count 0, .one, .one, .one, true⟩ = 0 ∧ 0 < i2.nodes ∧ i2.vol[0]? = some .half ∧
        i2.dur[0]? = some 1) ∧
      (nextIdx i2 ⟨0, 1, .count 0, .one, .one, .one, false⟩ = 2 ∧ 2 < i2.nodes ∧ i2.vol[2]? = some .zero ∧
        i2.dur[2]? = some 1) := by decide +kernel

/-- NodeLeftAtItsLastCountdown: past the end; in sustain-hold; traversing with durations 0 and 2. -/
theorem witness_NodeLeftAtItsLastCountdown :
    [i0][pastNote.inst.toNat]? = some i0 ∧ i0.nodes ≤ pastNote.idx ∧
      (heldNote.live = true ∧ heldNote.idx = i0.sustain) ∧
      (releasedNote.idx < i0.nodes ∧ ¬(releasedNote.live = true ∧ releasedNote.idx = i0.sustain) ∧
        releasedNote.dur = .count (0 : Nat) ∧ ({ releasedNote with dur := .count 2 } : EnvelopeNote).dur = .count (2 : Nat)) := by
  decide +kernel

/-- OnlyReleasedNotesReachPastEnd: a live and a released note on the last node of I0, with duration 0. -/
theorem witness_OnlyReleasedNotesReachPastEnd :
    (instrumentValid Config.spec i0 = true ∧ heldNote.live = true) ∧
      (instrumentValid Config.spec i1 = true ∧ [i1][releasedNote.inst.toNat]? = some i1 ∧
        releasedNote.live = false ∧ releasedNote.idx < i1.nodes ∧ releasedNote.dur = .count (0 : Nat)) := by decide +kernel

/-- PhaseSampleReadsThenAdvances: at the last offset before the wrap, off 7 of len 8. -/
theorem witness_PhaseSampleReadsThenAdvances :
    Binary64.div (.ofBits 0x401C000000000000) eight = .ofBits 0x3FEC000000000000 ∧
      Binary64.add (.ofBits 0x401C000000000000) .one = eight ∧ Binary64.le eight eight = true ∧
      Binary64.sub eight eight = .zero := by decide +kernel

/-- NoiseSampleCountsThenSteps: one below the period, and at it. -/
theorem witness_NoiseSampleCountsThenSteps :
    (⟨1, 2, 0⟩ : NoiseGen).cnt + 1 < (⟨1, 2, 0⟩ : NoiseGen).per ∧
      (⟨1, 2, 1⟩ : NoiseGen).per ≤ (⟨1, 2, 1⟩ : NoiseGen).cnt + 1 := by decide +kernel

/-- WaveformsStayInRange: 0 and the largest value below 1. -/
theorem witness_WaveformsStayInRange :
    Binary64.zero.inPhase = true ∧ (Binary64.ofBits 0x3FEFFFFFFFFFFFFF).inPhase = true := by decide +kernel

/-- PhaseOffsetStaysBelowLength and PhaseOffsetStaysWithinLength: off 0 of len 1; the largest off below len 1; off equal
to len (the second statement only). -/
theorem witness_PhaseOffset :
    (∀ off ∈ [Binary64.zero, .ofBits 0x3FEFFFFFFFFFFFFF], Binary64.le .zero off = true ∧
        Binary64.lt off .one = true) ∧
      Binary64.le .one .one = true ∧ Binary64.one.isFinite = true ∧
      ¬(Binary64.one = .one ∧ Binary64.zero = .ofBits 0x3FEFFFFFFFFFFFFF) := by decide +kernel

/-- OtherChannelsAreUntouched, OnlyInstrLoadWritesTheMemory: an instruction that names a channel, and one that names
none and is neither SAMPLE nor TICK. -/
theorem witness_OtherChannelsAreUntouched :
    (Instr.channel (.channelReset .c4) = some .c4 ∧ (∃ t, exec (.channelReset .c4) playing = .next t) ∧
        Chan.c0 ≠ Chan.c4) ∧
      (Instr.channel (.songVolumeSet 0) = none ∧ (∃ t, exec (.songVolumeSet 0) playing = .next t)) := by
  exact ⟨⟨rfl, ⟨_, rfl⟩, by decide +kernel⟩, rfl, ⟨_, rfl⟩⟩

/-- VolumeWriters: steps that change the song volume and a channel's volume. -/
theorem witness_VolumeWriters :
    ((after (exec (.songVolumeSet 0) playing)).map (fun t => decide (t.songVol ≠ playing.songVol)) = some true) ∧
      ((after (exec (.volumeSet .c0 0) playing)).map
        (fun t => decide ((t.chan .c0).cvol ≠ (playing.chan .c0).cvol)) = some true) := by decide +kernel

/-- EffectSlotBaseNoteAndBookmarkWriters: steps that change each. -/
theorem witness_EffectSlotBaseNoteAndBookmarkWriters :
    ((after (exec (.fxDelay .c4 0 3) playing)).map
        (fun t => decide ((t.chan .c4).fx ≠ (playing.chan .c4).fx)) = some true) ∧
      ((after (exec (.notePlay .c4 7 0) playing)).map
        (fun t => decide ((t.chan .c4).baseNote ≠ (playing.chan .c4).baseNote)) = some true) ∧
      ((after (exec (.channelReset .c1) marked)).map
        (fun t => decide ((t.chan .c1).bookmark ≠ (marked.chan .c1).bookmark)) = some true) := by decide +kernel

/-- EnvelopeWriters, OscillatorWriters, OnlySampleWritesTheLfsr: steps that change a note and an oscillator. -/
theorem witness_EnvelopeWriters :
    ((after (exec (.noteEnd .c4) playing)).map
        (fun t => decide ((t.chan .c4).env ≠ (playing.chan .c4).env)) = some true) ∧
      ((after (exec (.oscNoteSet .c4 9) playing)).map
        (fun t => decide ((t.chan .c4).osc ≠ (playing.chan .c4).osc)) = some true) ∧
      Instr.oscNoteSet .c4 9 ≠ .sample := by decide +kernel

/-- RefusalChangesOnlyTheMark: a refused command, one that is not, and a step from a state with the mark set. -/
theorem witness_RefusalChangesOnlyTheMark :
    ((after (exec (.oscNoteSet .c4 78) playing)).map (fun t => t.ports.reason) = some (some .badOperand)) ∧
      ((after (exec (.oscNoteSet .c4 77) playing)).map (fun t => t.ports.reason) = some none) ∧
      ((after (step { noisy .none 2 with refused := true, inbox := [.command 0x44 0] })).map
        (fun t => t.refused) = some true) := by decide +kernel

/-- StepKeepsTheInvariant: a step from a state that meets the invariant. -/
theorem witness_StepKeepsTheInvariant :
    playing.Inv ∧ ∃ t, step { playing with inbox := [.command 0x44 0] } = .next t :=
  ⟨witness_inv.1, _, rfl⟩

/-- StartIsNeverObserved: two different states that differ only in a note's start. -/
theorem witness_StartIsNeverObserved :
    playing ≠ playing.setChan .c4
        { playing.chan .c4 with env := some { heldNote with start := .half } } ∧
      playing.forgetStart = (playing.setChan .c4
        { playing.chan .c4 with env := some { heldNote with start := .half } }).forgetStart := by
  exact ⟨by decide +kernel, rfl⟩

/-- SilentBlockDrivesZero: no note, and the song volumes 1 and 0. -/
theorem witness_SilentBlockDrivesZero :
    (∀ c, (marked.chan c).env = none) ∧ marked.songVol = .fin false ⟨4607182418800017408, by decide +kernel⟩ ∧
      (marked.setSongVol .zero).songVol = .fin false ⟨0, by decide +kernel⟩ :=
  ⟨fun c => by cases c <;> rfl, rfl, rfl⟩

/-- LoadSongCompletes: the table [I0], and no volume, 0 and 1. -/
theorem witness_LoadSongCompletes :
    Memory.wf Config.hw [i0] = true ∧ (Binary64.ofBits 0).inUnit = true ∧
      (Binary64.ofBits 0x3FF0000000000000).inUnit = true ∧
      (∀ x, (none : Option (BitVec 64)) = some x → (Binary64.ofBits x).inUnit = true) :=
  ⟨wf_i0, by decide +kernel, by decide +kernel, fun _ h => nomatch h⟩

end Sys2Proof.Tests
end

section
/-!
Encodings (30_encoding.md): the fields of a header, what `decode` reads from a command by its header, which bits of the
data word it looks at, and the fields of an effect code. With them the statements BadHeadersAreRefused (O5),
EffectCodesDecode (O9) and ReservedCommandIsRefused (O17).
-/

namespace Sys2Proof
open Machine

/-! ## The fields of a header (R70) -/

@[simp] theorem header_op (op : BitVec 4) (ch : BitVec 3) : (header op ch).extractLsb' 4 4 = op :=
  (BitVec.extractLsb'_append_eq_of_le (by decide)).trans BitVec.extractLsb'_append_eq_left

@[simp] theorem header_ch (op : BitVec 4) (ch : BitVec 3) : (header op ch).extractLsb' 0 3 = ch :=
  BitVec.extractLsb'_append_eq_right

@[simp] theorem header_rsv (op : BitVec 4) (ch : BitVec 3) : (header op ch)[3] = false := by
  show (op ++ 0#1 ++ ch).getLsbD 3 = false
  simp only [BitVec.getLsbD_append]
  rfl

theorem toNat_append_eq_add {m n : Nat} (x : BitVec m) (y : BitVec n) :
    (x ++ y).toNat = 2 ^ n * x.toNat + y.toNat := by
  rw [BitVec.toNat_append, ← Nat.shiftLeft_add_eq_or_of_lt y.isLt, Nat.shiftLeft_eq, Nat.mul_comm]

theorem header_toNat (op : BitVec 4) (ch : BitVec 3) : (header op ch).toNat = 16 * op.toNat + ch.toNat := by
  rw [header, toNat_append_eq_add, toNat_append_eq_add]
  simp; omega

@[simp] theorem header_toNat_div (op : BitVec 4) (ch : BitVec 3) : (header op ch).toNat / 16 = op.toNat := by
  rw [header_toNat]; omega

@[simp] theorem header_toNat_mod (op : BitVec 4) (ch : BitVec 3) : (header op ch).toNat % 8 = ch.toNat := by
  rw [header_toNat]; omega

/-- A header with `rsv` clear is the encoding of its two fields. -/
theorem exists_header {h : BitVec 8} (hrsv : h.getLsbD 3 = false) : ∃ op ch, h = header op ch := by
  refine ⟨h.extractLsb' 4 4, h.extractLsb' 0 3, ?_⟩
  have hbit : h.toNat / 8 % 2 = 0 := by
    simpa [BitVec.getLsbD, Nat.testBit_eq_decide_div_mod_eq] using hrsv
  apply BitVec.eq_of_toNat_eq
  rw [header_toNat, BitVec.extractLsb'_toNat, BitVec.extractLsb'_toNat, Nat.shiftRight_eq_div_pow]
  simp only [Nat.shiftRight_zero]
  omega

/-! ## Commands by their header, in the order of R244 -/

theorem decode_of_rsv {h : BitVec 8} (hrsv : h.getLsbD 3 = true) (d : BitVec 64) :
    decode (.command h d) = .error .reservedBit := by
  simp [decode, decodeCommand, hrsv]

theorem decode_reservedOp {op : BitVec 4} (hop : 12 ≤ op.toNat) (ch : BitVec 3) (d : BitVec 64) :
    decode (.command (header op ch) d) = .ok (.reservedCmd (op.extractLsb' 0 2) ch) := by
  simp [decode, decodeCommand, hop]

/-- SAMPLE, TICK and SONG_VOLUME_SET: the operation codes that name no channel (R71). -/
def SongOp (op : BitVec 4) : Prop := op = 0#4 ∨ op = 1#4 ∨ op = 8#4

theorem songOp_iff {op : BitVec 4} : SongOp op ↔ op.toNat = 0 ∨ op.toNat = 1 ∨ op.toNat = 8 := by
  simp [SongOp, BitVec.toNat_eq]

/-- The operation codes that name a channel (R71). -/
def ChannelOp (op : BitVec 4) : Prop := op.toNat < 12 ∧ ¬SongOp op

theorem decode_songOp_badChannel {op : BitVec 4} (hop : SongOp op) {ch : BitVec 3} (hch : ch ≠ 0#3) (d : BitVec 64) :
    decode (.command (header op ch) d) = .error .badChannel := by
  rcases hop with rfl | rfl | rfl <;> simp [decode, decodeCommand, hch]

theorem decode_channelOp {op : BitVec 4} (hop : ChannelOp op) (ch : BitVec 3) (d : BitVec 64) :
    decode (.command (header op ch) d) =
      (Chan.ofBits ch).elim (.error .badChannel) fun c => decodeChannelOp op c d := by
  obtain ⟨hlt, hsong⟩ := hop
  obtain ⟨h0, h1, h8⟩ : op ≠ 0#4 ∧ op ≠ 1#4 ∧ op ≠ 8#4 := by simpa [SongOp] using hsong
  have hge : ¬12 ≤ op.toNat := by omega
  cases hc : Chan.ofBits ch <;> simp [decode, decodeCommand, hge, h0, h1, h8, hc]

theorem Chan.ofBits_eq_none_iff : ∀ ch : BitVec 3, Chan.ofBits ch = none ↔ 4 < ch.toNat := by decide

theorem decode_channelOp_badChannel {op : BitVec 4} (hop : ChannelOp op) {ch : BitVec 3} (hch : 4 < ch.toNat)
    (d : BitVec 64) : decode (.command (header op ch) d) = .error .badChannel := by
  rw [decode_channelOp hop, (Chan.ofBits_eq_none_iff ch).mpr hch]; rfl

theorem exec_reservedCmd (op : BitVec 2) (ch : BitVec 3) (s : State) :
    exec (.reservedCmd op ch) s = .next (s.refuse .reservedOp) := rfl

/-! ## The data bits an operand names (R73, R75) -/

/-- A field every bit of which stands in a mask is read alike before and after the mask. -/
theorem extractLsb'_and_mask {w start len : Nat} {m : BitVec w} (hm : m.extractLsb' start len = BitVec.allOnes len)
    (d : BitVec w) : (d &&& m).extractLsb' start len = d.extractLsb' start len := by
  rw [BitVec.extractLsb'_and, hm, BitVec.and_allOnes]

theorem and_fullMask (d : BitVec 64) : d &&& 0xFFFFFFFFFFFFFFFF#64 = d := BitVec.and_allOnes

theorem decodeChannelOp_and_dataMask {op : BitVec 4} (hop : ChannelOp op) (c : Chan) (d : BitVec 64) :
    decodeChannelOp op c (d &&& dataMask op) = decodeChannelOp op c d := by
  have hops : op = 2 ∨ op = 3 ∨ op = 4 ∨ op = 5 ∨ op = 6 ∨ op = 7 ∨ op = 9 ∨ op = 10 ∨ op = 11 := by
    obtain ⟨hlt, hsong⟩ := hop
    unfold SongOp at hsong
    bv_omega
  rcases hops with rfl | rfl | rfl | rfl | rfl | rfl | rfl | rfl | rfl <;>
    simp (disch := decide) [decodeChannelOp, dataMask, extractLsb'_and_mask, and_fullMask]

theorem decode_songOp_and_dataMask {op : BitVec 4} (hop : SongOp op) (ch : BitVec 3) (d : BitVec 64) :
    decode (.command (header op ch) (d &&& dataMask op)) = decode (.command (header op ch) d) := by
  rcases hop with rfl | rfl | rfl <;>
    simp (disch := decide) [decode, decodeCommand, dataMask, extractLsb'_and_mask, and_fullMask]

/-- The decoder looks at no data bit outside the mask of the header's operation code. -/
theorem decode_and_dataMask (h : BitVec 8) (d : BitVec 64) :
    decode (.command h (d &&& dataMask (h.extractLsb' 4 4))) = decode (.command h d) := by
  cases hrsv : h.getLsbD 3 with
  | true => rw [decode_of_rsv hrsv, decode_of_rsv hrsv]
  | false =>
    obtain ⟨op, ch, rfl⟩ := exists_header hrsv
    rw [header_op]
    by_cases hres : 12 ≤ op.toNat
    · rw [decode_reservedOp hres, decode_reservedOp hres]
    · by_cases hsong : SongOp op
      · exact decode_songOp_and_dataMask hsong ch d
      · have hop : ChannelOp op := ⟨by omega, hsong⟩
        simp only [decode_channelOp hop, decodeChannelOp_and_dataMask hop]

/-! ## The fields of an effect code (R83, R84) -/

theorem effectCode_kind (k a b : BitVec 4) : (k ++ a ++ b).extractLsb' 8 4 = k :=
  (BitVec.extractLsb'_append_eq_of_le (by decide)).trans BitVec.extractLsb'_append_eq_left

theorem effectCode_arg1 (k a b : BitVec 4) : (k ++ a ++ b).extractLsb' 4 4 = a :=
  (BitVec.extractLsb'_append_eq_of_le (by decide)).trans BitVec.extractLsb'_append_eq_right

theorem effectCode_arg2 (k a b : BitVec 4) : (k ++ a ++ b).extractLsb' 0 4 = b :=
  BitVec.extractLsb'_append_eq_right

theorem byteOp_eq (a b : BitVec 4) :
    (a.setWidth 8 <<< 4) ||| b.setWidth 8 = BitVec.ofNat 8 (16 * a.toNat + b.toNat) := by
  have happ : (a.setWidth 8 <<< 4) ||| b.setWidth 8 = a ++ b := by
    rw [BitVec.append_def, BitVec.shiftLeftZeroExtend_eq, BitVec.setWidth'_eq]
  apply BitVec.eq_of_toNat_eq
  rw [happ, toNat_append_eq_add, BitVec.toNat_ofNat]
  omega

/-! ## The statements -/

/-- Settles O17: the operation code has its two high bits set, so it is reserved, and its run is the refusal. -/
theorem reservedCommandIsRefused : Obligations.ReservedCommandIsRefused := by
  intro op ch d s
  have hop : 12 ≤ (3#2 ++ op).toNat := by
    rw [toNat_append_eq_add]
    simp
  have hlow : (3#2 ++ op).extractLsb' 0 2 = op := BitVec.extractLsb'_append_eq_right
  exact ⟨by rw [decode_reservedOp hop, hlow], exec_reservedCmd op ch s⟩

/-- Settles O9: the three fields come back from the code, and the kinds are told apart by their numbers. -/
theorem effectCodesDecode : Obligations.EffectCodesDecode := by
  intro k a b
  simp only [decodeEffect, effectCode_kind, effectCode_arg1, effectCode_arg2, byteOp_eq, BitVec.toNat_eq, BitVec.ofNat_eq_ofNat,
    BitVec.toNat_ofNat, Nat.reducePow, Nat.reduceMod]

/-- Settles O5: the refusals by header, each from its case of the decoder (a header with `rsv` clear is
`header op ch`), and the data bits from `decode_and_dataMask`. -/
theorem badHeadersAreRefused : Obligations.BadHeadersAreRefused := by
  constructor
  · intro h d s
    refine ⟨fun hrsv => decode_of_rsv hrsv d, fun hrsv hop => ?_, fun hrsv hop hch => ?_,
      fun hrsv hlt h0 h1 h8 hch => ?_, ?_, ?_⟩
    · obtain ⟨op, ch, rfl⟩ := exists_header hrsv
      rw [header_toNat_div] at hop
      exact ⟨_, _, decode_reservedOp hop ch d, exec_reservedCmd _ _ s⟩
    · obtain ⟨op, ch, rfl⟩ := exists_header hrsv
      rw [header_toNat_div] at hop
      rw [header_toNat_mod] at hch
      exact decode_songOp_badChannel (songOp_iff.mpr hop) (by rintro rfl; exact hch rfl) d
    · obtain ⟨op, ch, rfl⟩ := exists_header hrsv
      rw [header_toNat_div] at hlt h0 h1 h8
      rw [header_toNat_mod] at hch
      exact decode_channelOp_badChannel ⟨hlt, by simp [songOp_iff, h0, h1, h8]⟩ hch d
    · rintro rfl
      rfl
    · rintro (rfl | rfl | rfl) <;> rfl
  · intro h d d' hdata
    rw [← decode_and_dataMask h d, hdata, decode_and_dataMask]

end Sys2Proof
end

section
/-!
Oscillators (40_oscillators.md): what each operation does to the noise register, what the oscillator commands decode to
and do, and one sample of the noise oscillator. With them the statements OnlySampleWritesTheLfsr (O54),
OscNoteSetRetunes (O14), OscSetFrequencyRetunes (O15), OscSetDutyMovesThePhase (O16) and NoiseSampleCountsThenSteps
(O43).
-/

namespace Sys2Proof

/-! ## Commands on a channel (R71, R72) -/

@[simp] theorem Chan.ofBits_toBits (c : Chan) : Chan.ofBits c.toBits = some c := by
  cases c <;> rfl

theorem decode_channelOp_toBits {op : BitVec 4} (hop : ChannelOp op) (c : Chan) (d : BitVec 64) :
    decode (.command (header op c.toBits) d) = decodeChannelOp op c d := by
  rw [decode_channelOp hop, Chan.ofBits_toBits]; rfl

/-- An operation code that names a channel is decoded channel by channel, and refused on 5 to 7. -/
theorem Commands.onChannels_of_decodeChannelOp {op : BitVec 4} (hop : ChannelOp op) {d : BitVec 64}
    {i : Chan → Instr} (h : ∀ c, decodeChannelOp op c d = .ok (i c)) : Commands.onChannels op d i :=
  ⟨fun c => by rw [decode_channelOp_toBits hop, h], fun _ hch => decode_channelOp_badChannel hop hch d⟩

theorem channelOp_oscNoteSet : ChannelOp 0x9 := by unfold ChannelOp SongOp; decide

theorem channelOp_oscSetFrequency : ChannelOp 0xA := by unfold ChannelOp SongOp; decide

theorem channelOp_oscSetDuty : ChannelOp 0xB := by unfold ChannelOp SongOp; decide

theorem decodeChannelOp_oscSetFrequency (c : Chan) (f : BitVec 64) :
    decodeChannelOp 0xA c f =
      if Config.waveform c = .noise then .error .wrongOscillator else .ok (.oscSetFrequency c f) := rfl

theorem decodeChannelOp_oscSetDuty (c : Chan) (d : BitVec 64) :
    decodeChannelOp 0xB c d =
      if Config.waveform c = .square then .ok (.oscSetDuty c d) else .error .wrongOscillator := rfl

/-! ## The admitted range of a volume and of a duty (R132, R178) -/

theorem Binary64.inUnit_iff {x : Binary64} :
    x.inUnit = true ↔ x.isFinite = true ∧ Binary64.le .zero x = true ∧ Binary64.le x .one = true := by
  simp [Binary64.inUnit, and_assoc]

namespace Machine

/-! ## What a completed channel operation writes -/

section
variable {cfg : Config} {m : Memory} {ch ch' : Channel}

/-- A note-on that completes leaves the channel alone or starts a note on it (R174, R175). -/
theorem noteOn_eq_ok {n : Fin 63} {k : BitVec 4} (h : noteOn cfg m n k ch = .ok ch') :
    ch' = ch ∨ ∃ e, envCreate m k (carriedVolume ch) = .ok e ∧
      ch' = { ch with fx := .none, baseNote := some n, osc := ch.osc.noteSet cfg n.val, env := some e } := by
  unfold noteOn at h
  split at h
  · obtain ⟨e, he, hch⟩ := except_bind_ok.mp h
    exact .inr ⟨e, he, (Except.ok.inj hch).symm⟩
  · exact .inl (Except.ok.inj h).symm

/-- An action on the EnvelopeNote that completes writes nothing else of the channel. -/
theorem onEnv_eq_ok {f : EnvelopeNote → Except Fault EnvelopeNote} (h : onEnv f ch = .ok ch') :
    ∃ env, ch' = { ch with env := env } := by
  unfold onEnv at h
  split at h
  · exact ⟨ch.env, (Except.ok.inj h).symm⟩
  · obtain ⟨e', -, hch⟩ := except_bind_ok.mp h
    exact ⟨some e', (Except.ok.inj hch).symm⟩

theorem onEnvIf_eq_ok {cond : Prop} [Decidable cond] {f : EnvelopeNote → Except Fault EnvelopeNote}
    (h : onEnvIf cond f ch = .ok ch') : ∃ env, ch' = { ch with env := env } := by
  unfold onEnvIf at h
  split at h
  · exact onEnv_eq_ok h
  · exact ⟨ch.env, (Except.ok.inj h).symm⟩

/-- An effect step that completes retunes the oscillator or writes the EnvelopeNote only (R188 to R191). -/
theorem fxStep_eq_ok {t : BitVec 32} (h : fxStep cfg m t ch = .ok ch') :
    (∃ n, ch' = { ch with osc := ch.osc.noteSet cfg n }) ∨ ∃ env, ch' = { ch with env := env } := by
  unfold fxStep at h
  split at h
  · exact .inr ⟨ch.env, (Except.ok.inj h).symm⟩
  · split at h
    · exact .inl ⟨_, (Except.ok.inj h).symm⟩
    · exact .inr ⟨ch.env, (Except.ok.inj h).symm⟩
  · exact .inr (onEnvIf_eq_ok h)
  · obtain ⟨ch₁, h₁, h₂⟩ := except_bind_ok.mp h
    obtain ⟨env₁, rfl⟩ := onEnvIf_eq_ok h₁
    obtain ⟨env₂, rfl⟩ := onEnvIf_eq_ok h₂
    exact .inr ⟨env₂, rfl⟩

/-! ## The noise register of a channel (R124) -/

@[simp] theorem Osc.lfsr?_noteSet (n : Nat) (o : Osc) : (o.noteSet cfg n).lfsr? = o.lfsr? := by
  cases o <;> rfl

theorem noteOn_lfsr? {n : Fin 63} {k : BitVec 4} (h : noteOn cfg m n k ch = .ok ch') :
    ch'.osc.lfsr? = ch.osc.lfsr? := by
  rcases noteOn_eq_ok h with rfl | ⟨e, -, rfl⟩
  · rfl
  · exact Osc.lfsr?_noteSet _ _

theorem chTick_lfsr? {t : BitVec 32} (h : chTick cfg m t ch = .ok ch') : ch'.osc.lfsr? = ch.osc.lfsr? := by
  obtain ⟨ch₁, h₁, h₂⟩ := except_bind_ok.mp h
  obtain ⟨env₁, rfl⟩ := onEnv_eq_ok h₁
  rcases fxStep_eq_ok h₂ with ⟨n, rfl⟩ | ⟨env₂, rfl⟩
  · exact Osc.lfsr?_noteSet _ _
  · rfl

theorem fxTeardown_lfsr? (cfg : Config) (ch : Channel) : (fxTeardown cfg ch).osc.lfsr? = ch.osc.lfsr? := by
  unfold fxTeardown
  split
  · rfl
  · exact Osc.lfsr?_noteSet _ _
  · rfl

@[simp] theorem noteEnd_osc (ch : Channel) : (noteEnd ch).osc = ch.osc := by
  unfold noteEnd; split <;> rfl

@[simp] theorem loopSet_osc (r : BitVec 32) (ch : Channel) : (loopSet r ch).osc = ch.osc := by
  unfold loopSet; split <;> rfl

@[simp] theorem loopRepeat_osc (b : BitVec 4) (ch : Channel) : (loopRepeat b ch).1.osc = ch.osc := by
  unfold loopRepeat; dsimp only; split <;> rfl

end

/-! ## The noise registers of a state (R124) -/

/-- Two states hold the same noise register, channel by channel. -/
def SameLfsr (s t : State) : Prop := ∀ c, (t.chan c).osc.lfsr? = (s.chan c).osc.lfsr?

theorem SameLfsr.refl (s : State) : SameLfsr s s := fun _ => rfl

theorem SameLfsr.trans {s t u : State} (h₁ : SameLfsr s t) (h₂ : SameLfsr t u) : SameLfsr s u :=
  fun c => (h₂ c).trans (h₁ c)

theorem SameLfsr.setChan {s : State} {c : Chan} {x : Channel} (h : x.osc.lfsr? = (s.chan c).osc.lfsr?) :
    SameLfsr s (s.setChan c x) := by
  intro d
  rw [State.chan_setChan]
  split
  next hd => rw [h, hd]
  next => rfl

theorem effectAct_sameLfsr (s : State) (c : Chan) (r : BitVec 32) (op : EffectOp) :
    SameLfsr s (effectAct s c r op).1 := by
  cases op with
  | arpeggio | retrigger | delay => exact .setChan rfl
  | loopSet => exact .setChan (by rw [loopSet_osc])
  | loopRepeat => exact .setChan (by rw [loopRepeat_osc])
  | patternJump | rowJump | songVolume | songBps | songTpb | reserved => exact .refl s

theorem dispatch_sameLfsr (cfg : Config) (s : State) (c : Chan) (r : BitVec 32) (op : EffectOp) :
    SameLfsr s (dispatch cfg s c r op).1 :=
  .trans (.setChan (fxTeardown_lfsr? cfg _)) (effectAct_sameLfsr _ c r op)

theorem runEffect_sameLfsr {c : Chan} {r : BitVec 32} {op : EffectOp} {s t : State}
    (h : runEffect c r op s = .next t) : SameLfsr s t := by
  cases h
  exact dispatch_sameLfsr Config.hw s c r op

theorem cellAct_sameLfsr {cfg : Config} {c : Chan} {r : BitVec 32} {s : State} {a : CellAction}
    {y : State × Request} (h : cellAct cfg c r s a = .ok y) : SameLfsr s y.1 := by
  cases a with
  | volume v => cases h; exact .setChan rfl
  | noteStop => cases h; exact .setChan (by rw [noteEnd_osc])
  | noteOn n k =>
    by_cases hn : n.toNat < 63
    · rw [cellAct, dif_pos hn] at h
      obtain ⟨ch, hch, hy⟩ := except_bind_ok.mp h
      cases hy
      exact .setChan (noteOn_lfsr? hch)
    · rw [cellAct, dif_neg hn] at h
      cases h; exact .refl s
  | effect e => cases h; exact dispatch_sameLfsr cfg s c r _

theorem cellRun_sameLfsr {cfg : Config} {c : Chan} {r : BitVec 32} {l : List CellAction} {x y : State × Request}
    (h : cellRun cfg c r x l = .ok y) : SameLfsr x.1 y.1 := by
  induction l generalizing x with
  | nil => cases h; exact .refl _
  | cons a rest ih =>
    obtain ⟨z, hz, hrest⟩ := except_bind_ok.mp h
    exact (cellAct_sameLfsr hz).trans (ih hrest)

theorem exec_cellVolume (c : Chan) (v : BitVec 6) (s : State) :
    exec (.cellVolume c v) s = cellApply Config.hw c 0 s [.volume v] := rfl

theorem exec_cellNoteStop (c : Chan) (s : State) :
    exec (.cellNoteStop c) s = cellApply Config.hw c 0 s [.noteStop] := rfl

theorem exec_cellNoteOn (c : Chan) (n : BitVec 6) (k : BitVec 4) (s : State) :
    exec (.cellNoteOn c n k) s = cellApply Config.hw c 0 s [.noteOn n k] := rfl

theorem exec_cellEffect (c : Chan) (e : BitVec 12) (r : BitVec 32) (s : State) :
    exec (.cellEffect c e r) s = cellApply Config.hw c r s [.effect e] := rfl

/-- A cell that completes ran its actions and then drove the request. -/
theorem cellApply_eq_next {cfg : Config} {c : Chan} {r : BitVec 32} {s t : State} {l : List CellAction} :
    cellApply cfg c r s l = .next t ↔ ∃ y, cellRun cfg c r (s, .none) l = .ok y ∧ driveResult y = t := by
  unfold cellApply
  cases cellRun cfg c r (s, .none) l <;> simp [Except.map]

theorem cellApply_sameLfsr {cfg : Config} {c : Chan} {r : BitVec 32} {s t : State} {l : List CellAction}
    (h : cellApply cfg c r s l = .next t) : SameLfsr s t := by
  obtain ⟨y, hy, rfl⟩ := cellApply_eq_next.mp h
  exact cellRun_sameLfsr hy

theorem tickFrom_lfsr? {cfg : Config} {m : Memory} {u : BitVec 32} {l : List Chan} {cs cs' : Channels}
    (h : tickFrom cfg m u l cs = .ok cs') (d : Chan) : (cs'.get d).osc.lfsr? = (cs.get d).osc.lfsr? := by
  induction l generalizing cs with
  | nil => cases h; rfl
  | cons c rest ih =>
    obtain ⟨ch, hch, hrest⟩ := except_bind_ok.mp h
    rw [ih hrest, Channels.get_set]
    split
    next hd => rw [chTick_lfsr? hch, hd]
    next => rfl

theorem execTick_sameLfsr {u : BitVec 32} {s t : State} (h : execTick u s = .next t) : SameLfsr s t := by
  obtain ⟨cs, hcs, ht⟩ := except_bind_ok.mp (finish_eq_next.mp h)
  cases ht
  exact tickFrom_lfsr? hcs

theorem execNotePlay_sameLfsr {c : Chan} {n : BitVec 6} {k : BitVec 4} {s t : State}
    (h : execNotePlay c n k s = .next t) : SameLfsr s t := by
  have h := finish_eq_next.mp h
  unfold notePlayWith at h
  split at h
  · obtain ⟨ch, hch, ht⟩ := except_bind_ok.mp h
    cases ht
    exact .setChan (noteOn_lfsr? hch)
  · cases h; exact .refl s

theorem oscNoteSetWith_sameLfsr (cfg : Config) (c : Chan) (n : BitVec 7) (s : State) :
    SameLfsr s (oscNoteSetWith cfg c n s) := by
  unfold oscNoteSetWith
  split
  · exact .setChan (Osc.lfsr?_noteSet _ _)
  · exact .refl s

theorem execOscSetFrequency_sameLfsr {c : Chan} {f : BitVec 64} {s t : State}
    (h : execOscSetFrequency c f s = .next t) : SameLfsr s t := by
  unfold execOscSetFrequency at h
  split at h
  · cases h; exact .refl s
  next hosc =>
    split at h <;> cases h
    · exact .setChan (by rw [hosc]; rfl)
    · exact .refl s

theorem oscSetDutyWith_sameLfsr (cfg : Config) (c : Chan) (d : BitVec 64) (s : State) :
    SameLfsr s (oscSetDutyWith cfg c d s) := by
  unfold oscSetDutyWith
  split
  next hosc =>
    split
    · exact .setChan (by rw [hosc]; rfl)
    · exact .refl s
  · exact .refl s

theorem execVolumeSet_sameLfsr {c : Chan} {v : BitVec 64} {s t : State} (h : execVolumeSet c v s = .next t) :
    SameLfsr s t := by
  unfold execVolumeSet at h
  split at h <;> cases h
  · exact .setChan rfl
  · exact .refl s

theorem execSongVolumeSet_sameLfsr {v : BitVec 64} {s t : State} (h : execSongVolumeSet v s = .next t) :
    SameLfsr s t := by
  unfold execSongVolumeSet at h
  split at h <;> cases h <;> exact .refl s

theorem instrLoadWith_sameLfsr (cfg : Config) (table : List Instrument) (s : State) :
    SameLfsr s (instrLoadWith cfg table s) := by
  unfold instrLoadWith
  split
  · exact .refl s
  · split <;> exact .refl s

/-- Settles O54: each instruction but SAMPLE leaves every noise register as it was; a retune writes the period only. -/
theorem onlySampleWritesTheLfsr : Obligations.OnlySampleWritesTheLfsr := by
  intro i c s t h hi
  suffices hsame : SameLfsr s t from hsame c
  cases i with
  | sample => exact absurd rfl hi
  | tick => exact execTick_sameLfsr h
  | notePlay => exact execNotePlay_sameLfsr h
  | noteEnd => cases h; exact .setChan (by rw [noteEnd_osc])
  | volumeSet => exact execVolumeSet_sameLfsr h
  | channelReset => cases h; exact .setChan rfl
  | songVolumeSet => exact execSongVolumeSet_sameLfsr h
  | oscNoteSet => cases h; exact oscNoteSetWith_sameLfsr _ _ _ s
  | oscSetFrequency => exact execOscSetFrequency_sameLfsr h
  | oscSetDuty => cases h; exact oscSetDutyWith_sameLfsr _ _ _ s
  | instrLoad => cases h; exact instrLoadWith_sameLfsr _ _ s
  | reservedCmd | cellEmpty => cases h; exact .refl s
  | cell => exact cellApply_sameLfsr h
  | cellVolume => rw [exec_cellVolume] at h; exact cellApply_sameLfsr h
  | cellNoteStop => rw [exec_cellNoteStop] at h; exact cellApply_sameLfsr h
  | cellNoteOn => rw [exec_cellNoteOn] at h; exact cellApply_sameLfsr h
  | cellEffect => rw [exec_cellEffect] at h; exact cellApply_sameLfsr h
  | effect | fxArpeggio | fxLoopSet | fxLoopRepeat | fxPatternJump | fxRowJump | fxRetrigger | fxDelay
  | fxSongVolume | fxSongBps | fxSongTpb | fxReserved9 | fxReserved10 | fxReserved11 | fxReserved12
  | fxReserved13 | fxReserved14 | fxReserved15 => exact runEffect_sameLfsr h

/-! ## The oscillator commands (R130 to R132) -/

/-- OSC_NOTE_SET on a note in range. -/
theorem exec_oscNoteSet_of_le {n : BitVec 7} (h : n.toNat ≤ 77) (c : Chan) (s : State) :
    exec (.oscNoteSet c n) s =
      .next (s.setChan c { s.chan c with osc := (s.chan c).osc.noteSet Config.hw n.toNat }).quiet :=
  congrArg Host.Outcome.next (if_pos h)

theorem exec_oscNoteSet_refused {n : BitVec 7} (h : 77 < n.toNat) (c : Chan) (s : State) :
    exec (.oscNoteSet c n) s = .next (s.refuse .badOperand) :=
  congrArg Host.Outcome.next (if_neg (Nat.not_le.mpr h))

theorem exec_oscSetFrequency_phase {c : Chan} {s : State} {sh : Shape} {a : PhaseAcc}
    (hosc : (s.chan c).osc = .phase sh a) (f : BitVec 64) :
    exec (.oscSetFrequency c f) s =
      if freqAdmitted (.ofBits f) = true then
        .next (s.setChan c { s.chan c with osc := .phase sh (a.setFrequency (.ofBits f)) }).quiet
      else .next (s.refuse .badOperand) := by
  simp only [exec, execOscSetFrequency, hosc]

theorem exec_oscSetDuty_square {c : Chan} {s : State} {duty : Binary64} {a : PhaseAcc}
    (hosc : (s.chan c).osc = .phase (.square duty) a) (d : BitVec 64) :
    exec (.oscSetDuty c d) s =
      if (Binary64.ofBits d).inUnit = true then
        .next (s.setChan c { s.chan c with
          osc := .phase (.square (.ofBits d)) (a.setDuty Config.hw duty (.ofBits d)) }).quiet
      else .next (s.refuse .badOperand) := by
  simp only [exec, execOscSetDuty, oscSetDutyWith, hosc]
  split <;> rfl

/-- `setDuty` with DUTY_PHASE_POLICY written out (R109, R110). -/
theorem PhaseAcc.setDuty_eq (cfg : Config) (a : PhaseAcc) (dOld dNew : Binary64) :
    a.setDuty cfg dOld dNew =
      ⟨wrapOff (Binary64.mul
        (if cfg.dutyWindow dOld a.phase = true ∧ cfg.dutyWindow dNew a.phase = true
          then cfg.dutyBoundary dNew else .zero) a.len) a.len, a.len⟩ := by
  simp only [PhaseAcc.setDuty, dutyPhasePolicy, Bool.and_eq_true]

/-- Settles O14: above 77 refused; else `noteSet`, which is `retune` on a phase accumulator and writes `per` on the
noise oscillator. -/
theorem oscNoteSetRetunes : Obligations.OscNoteSetRetunes := by
  refine ⟨fun d => Commands.onChannels_of_decodeChannelOp channelOp_oscNoteSet fun c => rfl,
    fun c n s => ⟨fun hn => exec_oscNoteSet_refused hn c s, fun hn g hosc => ?_, ?_⟩⟩
  · rw [exec_oscNoteSet_of_le hn, hosc]; rfl
  · rintro hn sh a hosc len off rfl rfl
    rw [exec_oscNoteSet_of_le hn, hosc]; rfl

/-- Settles O15: the decoder refuses by `WAVEFORM`; on a phase accumulator an admitted frequency retunes it. -/
theorem oscSetFrequencyRetunes : Obligations.OscSetFrequencyRetunes := by
  refine fun f => ⟨⟨fun c hc => ?_, fun c hc => ?_,
    fun ch hch => decode_channelOp_badChannel channelOp_oscSetFrequency hch f⟩, fun c s sh a hosc => ⟨fun hf => ?_, ?_⟩⟩
  · rw [decode_channelOp_toBits channelOp_oscSetFrequency, decodeChannelOp_oscSetFrequency, if_neg hc]
  · rw [decode_channelOp_toBits channelOp_oscSetFrequency, decodeChannelOp_oscSetFrequency, if_pos hc]
  · rw [exec_oscSetFrequency_phase hosc, if_neg (mt freqAdmitted_iff.mp hf)]
  · rintro hfin hpos hmax hlen len off rfl rfl
    rw [exec_oscSetFrequency_phase hosc, if_pos (freqAdmitted_iff.mpr ⟨hfin, hpos, hmax, hlen⟩)]
    rfl

/-- Settles O16: the decoder refuses by `WAVEFORM`; on a Square an admitted duty is stored and the phase moved. -/
theorem oscSetDutyMovesThePhase : Obligations.OscSetDutyMovesThePhase := by
  refine fun d => ⟨⟨fun c hc => ?_, fun c hc => ?_,
    fun ch hch => decode_channelOp_badChannel channelOp_oscSetDuty hch d⟩, fun c s duty a hosc => ⟨fun hd => ?_, ?_⟩⟩
  · rw [decode_channelOp_toBits channelOp_oscSetDuty, decodeChannelOp_oscSetDuty, if_pos hc]
  · rw [decode_channelOp_toBits channelOp_oscSetDuty, decodeChannelOp_oscSetDuty, if_neg hc]
  · rw [exec_oscSetDuty_square hosc, if_neg (mt Binary64.inUnit_iff.mp hd)]
  · rintro hfin hnonneg hle p off rfl rfl
    rw [exec_oscSetDuty_square hosc, if_pos (Binary64.inUnit_iff.mpr ⟨hfin, hnonneg, hle⟩), PhaseAcc.setDuty_eq]
    rfl

/-! ## One sample of the noise oscillator (R120 to R122) -/

theorem NoiseGen.advance_below {g : NoiseGen} (h : g.cnt + 1 < g.per) :
    g.advance = { g with cnt := g.cnt + 1 } := if_neg (Nat.not_le.mpr h)

theorem NoiseGen.advance_full {g : NoiseGen} (h : g.per ≤ g.cnt + 1) :
    g.advance = { g with lfsr := lfsrStep g.lfsr, cnt := 0 } := if_pos h

theorem Osc.sample_noise (cfg : Config) (g : NoiseGen) :
    (Osc.noise g).sample cfg = (noiseOut g.advance.lfsr, .noise g.advance) := rfl

/-- Settles O43: the two cases of the advance, then the step bit by bit from `lfsrStep_getLsbD`. -/
theorem noiseSampleCountsThenSteps : Obligations.NoiseSampleCountsThenSteps := by
  refine ⟨fun cfg g => ⟨fun h => ?_, fun h => ?_⟩, fun r => ⟨?_, fun j hj => ?_⟩, by decide⟩
  · rw [Osc.sample_noise, NoiseGen.advance_below h]; rfl
  · rw [Osc.sample_noise, NoiseGen.advance_full h]; rfl
  · rw [lfsrStep_getLsbD]; simp
  · rw [lfsrStep_getLsbD]; simp [hj.ne]

end Machine
end Sys2Proof
end

section
/-!
The EnvelopeNote (41_envelope.md): the flags of R28 refuted, the node a transition enters, countdown events in sequence,
and the countdown before a sample's value. With them the statements EnvelopeSampleValue (O33),
TransitionEntersTheNextNode (O39) and NodeLeftAtItsLastCountdown (O40).
-/

namespace Sys2Proof
namespace Machine

variable {cfg : Config} {m : Memory} {e : EnvelopeNote} {ins : Instrument}

/-! ## The flags of R28, refuted -/

theorem pastEnd_eq_false_iff : pastEnd ins e = false ↔ e.idx < ins.nodes := by simp [pastEnd]

theorem holding_eq_false_iff : holding ins e = false ↔ ¬(e.live = true ∧ e.idx = ins.sustain) := by
  rw [← holding_iff, Bool.not_eq_true]

/-! ## The node transition (R144 to R146) -/

theorem nextIdx_eq (ins : Instrument) (e : EnvelopeNote) :
    nextIdx ins e = if e.live = true ∧ ins.loopEnd < e.idx + 1 then ins.loopStart else e.idx + 1 := by
  simp [nextIdx]

/-- A node with a volume and a duration is entered with them; the record need not be admitted. -/
theorem envTransition_of_node {g : Binary64} {d : Nat} (h : nextIdx ins e < ins.nodes)
    (hg : ins.vol[nextIdx ins e]? = some g) (hd : ins.dur[nextIdx ins e]? = some d) :
    envTransition ins e = .ok { e with idx := nextIdx ins e, start := e.vol, goal := g, dur := .count d } := by
  simp [envTransition, not_le.mpr h, Memory.nodeVol_eq_ok.mpr hg, Memory.nodeDur_eq_ok.mpr ⟨d, hd, rfl⟩]

/-- Settles O39: the index is `nextIdx`, and the two clauses are `envTransition` past the end and on a node. -/
theorem transitionEntersTheNextNode : Obligations.TransitionEntersTheNextNode := by
  intro ins e i hi
  rw [← nextIdx_eq] at hi
  subst hi
  exact ⟨envTransition_past, fun g d hlt hg hd => envTransition_of_node hlt hg hd⟩

/-! ## Countdown events (R143) -/

/-- One event on a note that is neither past the end nor held, with a finite duration. -/
theorem envCountdown_count (hi : m[e.inst.toNat]? = some ins) (hlt : e.idx < ins.nodes)
    (hheld : ¬(e.live = true ∧ e.idx = ins.sustain)) (n : Int) :
    envCountdown m { e with dur := .count n } =
      if n ≤ 1 then envTransition ins { e with dur := .count (n - 1) }
      else .ok { e with dur := .count (n - 1) } := by
  have hexp : n - 1 ≤ 0 ↔ n ≤ 1 := by omega
  rw [envCountdown_run (e := { e with dur := .count n }) hi (pastEnd_eq_false_iff.mpr hlt)
    (holding_eq_false_iff.mpr hheld)]
  simp only [Dur.decrement, Dur.expired, decide_eq_true_eq, hexp]

/-- A sequence of events can be taken apart at its last one. -/
theorem countdowns_succ_of_ok {k : Nat} {e' : EnvelopeNote} (h : countdowns m k e = .ok e') :
    countdowns m (k + 1) e = envCountdown m e' := by
  induction k generalizing e with
  | zero =>
    obtain rfl : e = e' := Except.ok.inj h
    rw [countdowns]
    cases envCountdown m e <;> rfl
  | succ k ih =>
    rw [countdowns] at h ⊢
    cases hc : envCountdown m e with
    | ok e₁ => rw [hc] at h; exact ih h
    | error f => rw [hc] at h; cases h

/-- Before the max(1, d)-th event only the remaining duration has changed. -/
theorem countdowns_before_last (hi : m[e.inst.toNat]? = some ins) (hlt : e.idx < ins.nodes)
    (hheld : ¬(e.live = true ∧ e.idx = ins.sustain)) {d : Nat} (hd : e.dur = .count d) {k : Nat}
    (hk : k < max 1 d) : countdowns m k e = .ok { e with dur := .count ((d : Int) - k) } := by
  induction k with
  | zero => simp [countdowns, ← hd]
  | succ k ih =>
    have hleft : ¬((d : Int) - k ≤ 1) := by omega
    rw [countdowns_succ_of_ok (ih (by omega)), envCountdown_count hi hlt hheld, if_neg hleft]
    simp [sub_sub]

/-- The max(1, d)-th event makes the transition. -/
theorem countdowns_last (hi : m[e.inst.toNat]? = some ins) (hlt : e.idx < ins.nodes)
    (hheld : ¬(e.live = true ∧ e.idx = ins.sustain)) {d : Nat} (hd : e.dur = .count d) :
    countdowns m (max 1 d) e = envTransition ins { e with dur := .count ((d : Int) - (max 1 d : Nat)) } := by
  obtain ⟨k, hk⟩ : ∃ k, max 1 d = k + 1 := ⟨max 1 d - 1, by omega⟩
  have hleft : (d : Int) - k ≤ 1 := by omega
  rw [hk, countdowns_succ_of_ok (countdowns_before_last hi hlt hheld hd (by omega)),
    envCountdown_count hi hlt hheld, if_pos hleft]
  simp [sub_sub]

/-- Settles O40: frozen by the two flags, and otherwise an induction on the number of events. -/
theorem nodeLeftAtItsLastCountdown : Obligations.NodeLeftAtItsLastCountdown := by
  intro m e ins hi
  refine ⟨fun hfrozen => envCountdown_frozen hi (hfrozen.imp pastEnd_iff.mpr holding_iff.mpr), ?_⟩
  intro d hlt hheld hd
  exact ⟨fun k hk => countdowns_before_last hi hlt hheld hd hk, countdowns_last hi hlt hheld hd⟩

/-! ## The value of one sample (R149 to R151) -/

/-- The countdown of the Sample clock, from its two cases (R142). -/
theorem countdownOn_sample_eq_ok {e' : EnvelopeNote} (htick : cfg.envCountClock = .tick → e' = e)
    (hsample : cfg.envCountClock = .sample → envCountdown m e = .ok e') :
    countdownOn cfg .sample m e = .ok e' := by
  unfold countdownOn
  cases hclk : cfg.envCountClock with
  | tick => rw [htick hclk]; rfl
  | sample => exact hsample hclk

theorem envSample_eq_envOutput {e' : EnvelopeNote} (h : countdownOn cfg .sample m e = .ok e') :
    envSample cfg m e = envOutput m e' := by
  rw [envSample, h]; rfl

theorem volumeStep_count {n : Int} (hd : e.dur = .count n) :
    volumeStep e =
      Binary64.add e.vol (Binary64.div (Binary64.sub e.goal e.vol) (.ofNat (max 1 n.toNat))) := by
  have hmax : (max 1 n).toNat = max 1 n.toNat := by omega
  rw [volumeStep, hd, Dur.divisor, hmax]

/-- Settles O33: after the clock's countdown the value is `envOutput`'s, in its three cases. -/
theorem envelopeSampleValue : Obligations.EnvelopeSampleValue := by
  intro cfg m e e' ins htick hsample hi
  rw [envSample_eq_envOutput (countdownOn_sample_eq_ok htick hsample)]
  refine ⟨fun hpast => ?_, fun v hlive hidx hlt hv => ?_, fun n v hlt hheld hd hv => ?_⟩
  · exact envOutput_pastEnd hi (pastEnd_iff.mpr hpast)
  · exact envOutput_holding hi (pastEnd_eq_false_iff.mpr hlt) (holding_iff.mpr ⟨hlive, hidx⟩) hv
  · rw [envOutput_traversing hi (pastEnd_eq_false_iff.mpr hlt) (holding_eq_false_iff.mpr hheld),
      volumeStep_count hd, ← hv]

end Machine
end Sys2Proof
end

section
/-!
Channels and the mixer (42_channel_mixer.md): the direct commands on a channel, one step of an installed effect, and the
channels of SAMPLE and TICK in sequence. With them the statements SampleMixesTheChannels (O31), TickAdvancesEveryChannel
(O34), VolumeCommandsStoreOrRefuse (O10), ChannelResetDropsTheNote (O11), NoteEndReleasesTheNote (O12),
NotePlayStartsTheNote (O13), PersistentKindsInstall (O23), ChannelSampleIsTheProduct (O32),
ChannelTickCountsDownThenSteps (O35), ArpeggioStepRetunes (O36), RetriggerStepRestarts (O37) and
DelayStepSilencesThenRestarts (O38).
-/

namespace Sys2Proof

/-! ## Channels and the commands on them (R20, R71, R72) -/

/-- SAMPLE, TICK and SONG_VOLUME_SET are refused on every `ch` but 0. -/
theorem Commands.onZero_of_decode {op : BitVec 4} (hop : SongOp op) {d : BitVec 64} {i : Instr}
    (h : decode (.command (header op 0) d) = .ok i) : Commands.onZero op d i :=
  ⟨h, fun _ hch => decode_songOp_badChannel hop hch d⟩

theorem channelOp_notePlay : ChannelOp 0x3 := by unfold ChannelOp SongOp; decide

theorem channelOp_noteEnd : ChannelOp 0x4 := by unfold ChannelOp SongOp; decide

theorem channelOp_volumeSet : ChannelOp 0x5 := by unfold ChannelOp SongOp; decide

theorem channelOp_channelReset : ChannelOp 0x7 := by unfold ChannelOp SongOp; decide

theorem Chan.all_nodup : Chan.all.Nodup := by decide

namespace Machine

variable {cfg : Config} {m : Memory} {ch : Channel}

/-! ## The channels in sequence (R183, R186) -/

/-- Replacing a channel that a list does not name leaves those it names. -/
theorem Channels.get_set_of_mem {c d : Chan} {l : List Chan} (hc : c ∉ l) (hd : d ∈ l) (cs : Channels) (x : Channel) :
    (cs.set c x).get d = cs.get d := by
  rw [Channels.get_set, if_neg (ne_of_mem_of_not_mem hd hc)]

/-- Replacing each channel in turn replaces all five. -/
theorem Channels.foldl_set_all (f : Chan → Channel) (cs : Channels) :
    Chan.all.foldl (fun ds c => ds.set c (f c)) cs = ⟨f .c0, f .c1, f .c2, f .c3, f .c4⟩ := rfl

/-- Channels sampled one after the other, each once: their values are added to the sum in that order, and each is
replaced by what its own sample leaves. -/
theorem mixFrom_eq_foldl {o : Chan → Binary64} {f : Chan → Channel} {l : List Chan} (hl : l.Nodup)
    (sum : Binary64) {cs : Channels} (h : ∀ c ∈ l, chSample cfg m (cs.get c) = .ok (o c, f c)) :
    mixFrom cfg m l sum cs =
      .ok (l.foldl (fun acc c => Binary64.add acc (o c)) sum, l.foldl (fun ds c => ds.set c (f c)) cs) := by
  induction l generalizing sum cs with
  | nil => rfl
  | cons c rest ih =>
    obtain ⟨hc, hrest⟩ := List.nodup_cons.mp hl
    have hunmoved : ∀ d ∈ rest, chSample cfg m ((cs.set c (f c)).get d) = .ok (o d, f d) := by
      intro d hd
      rw [Channels.get_set_of_mem hc hd]
      exact h d (List.mem_cons_of_mem c hd)
    rw [mixFrom, h c List.mem_cons_self, except_ok_bind, ih hrest _ hunmoved]
    rfl

/-- Channels ticked one after the other, each once: each is replaced by what its own tick leaves. -/
theorem tickFrom_eq_foldl {t : BitVec 32} {f : Chan → Channel} {l : List Chan} (hl : l.Nodup) {cs : Channels}
    (h : ∀ c ∈ l, chTick cfg m t (cs.get c) = .ok (f c)) :
    tickFrom cfg m t l cs = .ok (l.foldl (fun ds c => ds.set c (f c)) cs) := by
  induction l generalizing cs with
  | nil => rfl
  | cons c rest ih =>
    obtain ⟨hc, hrest⟩ := List.nodup_cons.mp hl
    have hunmoved : ∀ d ∈ rest, chTick cfg m t ((cs.set c (f c)).get d) = .ok (f d) := by
      intro d hd
      rw [Channels.get_set_of_mem hc hd]
      exact h d (List.mem_cons_of_mem c hd)
    rw [tickFrom, h c List.mem_cons_self, except_ok_bind, ih hrest hunmoved]
    rfl

/-- Settles O31: the invariant lets each channel sample, and the five in sequence are `mixFrom_eq_foldl`. -/
theorem sampleMixesTheChannels : Obligations.SampleMixesTheChannels := by
  refine ⟨fun d => Commands.onZero_of_decode (.inl rfl) rfl, fun s hinv => ?_⟩
  choose o f hsample _ using fun c => chSample_ok (cfg := Config.hw) hinv.mem (hinv.chan c)
  have hmix := mixFrom_eq_foldl Chan.all_nodup .zero fun c _ => hsample c
  refine ⟨o, f, hsample, finish_eq_next.mpr ?_⟩
  rw [sampleWith, hmix, Channels.foldl_set_all]
  rfl

/-- Settles O34: the invariant lets each channel tick, and the five in sequence are `tickFrom_eq_foldl`. -/
theorem tickAdvancesEveryChannel : Obligations.TickAdvancesEveryChannel := by
  refine ⟨fun d => Commands.onZero_of_decode (.inr (.inl rfl)) rfl, fun t s hinv => ?_⟩
  choose f htick _ using fun c => chTick_ok (cfg := Config.hw) hinv.mem t (hinv.chan c)
  have hticks := tickFrom_eq_foldl Chan.all_nodup fun c _ => htick c
  refine ⟨f, htick, finish_eq_next.mpr ?_⟩
  rw [tickWith, hticks, Channels.foldl_set_all]
  rfl

/-! ## The direct commands (R171 to R179) -/

theorem exec_volumeSet (c : Chan) (v : BitVec 64) (s : State) :
    exec (.volumeSet c v) s =
      if (Binary64.ofBits v).inUnit = true then .next (s.setChan c { s.chan c with cvol := .ofBits v }).quiet
      else .next (s.refuse .badOperand) := rfl

theorem exec_songVolumeSet (v : BitVec 64) (s : State) :
    exec (.songVolumeSet v) s =
      if (Binary64.ofBits v).inUnit = true then .next (s.setSongVol (.ofBits v)).quiet
      else .next (s.refuse .badOperand) := rfl

theorem exec_channelReset (c : Chan) (s : State) :
    exec (.channelReset c) s = .next (s.setChan c (channelReset (s.chan c))).quiet := rfl

theorem exec_noteEnd (c : Chan) (s : State) :
    exec (.noteEnd c) s = .next (s.setChan c (noteEnd (s.chan c))).quiet := rfl

theorem noteEnd_some {e : EnvelopeNote} (h : ch.env = some e) : noteEnd ch = { ch with env := some (envCut e) } := by
  rw [noteEnd, h]

theorem noteEnd_none (h : ch.env = none) : noteEnd ch = ch := by rw [noteEnd, h]

/-- NOTE_PLAY of a note that can sound is the note-on of its channel. -/
theorem exec_notePlay_of_noteOn {c : Chan} {n : BitVec 6} {k : BitVec 4} {s : State} (hn : n.toNat < 63)
    (h : noteOn Config.hw s.mem ⟨n.toNat, hn⟩ k (s.chan c) = .ok ch) :
    exec (.notePlay c n k) s = .next (s.setChan c ch).quiet := by
  refine finish_eq_next.mpr ?_
  rw [notePlayWith, dif_pos hn, h]
  rfl

theorem exec_notePlay_stop (c : Chan) (k : BitVec 4) (s : State) :
    exec (.notePlay c 63 k) s = .next (s.refuse .badOperand) := rfl

/-- The volume a new note carries, from its two cases (R176). -/
theorem carriedVolume_eq {v : Binary64} (hsome : ∀ e, ch.env = some e → v = e.vol)
    (hnone : ch.env = none → v = .zero) : carriedVolume ch = v := by
  unfold carriedVolume
  split
  next e he => exact (hsome e he).symm
  next he => exact (hnone he).symm

/-- A record with a node 0 starts a note; it need not be admitted. -/
theorem envCreate_of_node {k : BitVec 4} {ins : Instrument} {d : Nat} {g : Binary64} (hk : m[k.toNat]? = some ins)
    (hd : ins.dur[0]? = some d) (hg : ins.vol[0]? = some g) (carried : Binary64) :
    envCreate m k carried = .ok ⟨k, 0, .count d, carried, g, carried, true⟩ := by
  simp [envCreate, Memory.record_eq hk, Memory.nodeDur_eq_ok.mpr ⟨d, hd, rfl⟩, Memory.nodeVol_eq_ok.mpr hg]

theorem noteOn_unresolved {k : BitVec 4} (hk : m.length ≤ k.toNat) (n : Fin 63) : noteOn cfg m n k ch = .ok ch :=
  if_neg (by simpa [resolves] using hk)

theorem noteOn_of_envCreate {k : BitVec 4} {ins : Instrument} {e : EnvelopeNote} (hk : m[k.toNat]? = some ins)
    (he : envCreate m k (carriedVolume ch) = .ok e) (n : Fin 63) :
    noteOn cfg m n k ch =
      .ok { ch with fx := .none, baseNote := some n, osc := ch.osc.noteSet cfg n.val, env := some e } := by
  rw [noteOn, if_pos (resolves_iff.mpr ⟨ins, hk⟩), notePlay, he]
  rfl

/-- Settles O10: both commands ask `inUnit`, which is the admitted range. -/
theorem volumeCommandsStoreOrRefuse : Obligations.VolumeCommandsStoreOrRefuse := by
  refine fun v => ⟨⟨Commands.onChannels_of_decodeChannelOp channelOp_volumeSet fun _ => rfl,
    Commands.onZero_of_decode (.inr (.inr rfl)) rfl⟩, fun c s => ⟨fun hfin hnonneg hle => ?_, fun hv => ?_⟩⟩
  · have hv := Binary64.inUnit_iff.mpr ⟨hfin, hnonneg, hle⟩
    rw [exec_volumeSet, exec_songVolumeSet, if_pos hv, if_pos hv]
    exact ⟨rfl, rfl⟩
  · have hv := mt Binary64.inUnit_iff.mp hv
    rw [exec_volumeSet, exec_songVolumeSet, if_neg hv, if_neg hv]
    exact ⟨rfl, rfl⟩

/-- Settles O11: the volume 1 of `reset()` is the NUM of the number 1. -/
theorem channelResetDropsTheNote : Obligations.ChannelResetDropsTheNote := by
  refine ⟨fun d => Commands.onChannels_of_decodeChannelOp channelOp_channelReset fun _ => rfl, fun c s => ?_⟩
  have hone : Binary64.ofNat 1 = .one := by decide +kernel
  rw [exec_channelReset, hone]
  rfl

/-- Settles O12: the release where there is a note, and a channel put back unchanged where there is none. -/
theorem noteEndReleasesTheNote : Obligations.NoteEndReleasesTheNote := by
  refine ⟨fun d => Commands.onChannels_of_decodeChannelOp channelOp_noteEnd fun _ => rfl,
    fun c s => ⟨fun e he => ?_, fun he => ?_⟩⟩
  · rw [exec_noteEnd, noteEnd_some he]; rfl
  · rw [exec_noteEnd, noteEnd_none he, State.setChan_chan]

/-- Settles O13: the stop sentinel, a note-on that is skipped, and one that creates its note from node 0. -/
theorem notePlayStartsTheNote : Obligations.NotePlayStartsTheNote := by
  refine ⟨fun d => Commands.onChannels_of_decodeChannelOp channelOp_notePlay fun _ => rfl,
    fun c n k s => ⟨?_, ?_, ?_⟩⟩
  · rintro rfl
    exact exec_notePlay_stop c k s
  · intro hn hk
    have hlt : n.toNat < 63 := by bv_omega
    rw [exec_notePlay_of_noteOn hlt (noteOn_unresolved hk _), State.setChan_chan]
  · intro hn ins d g carried hk hd hg hsome hnone
    have he := envCreate_of_node hk hd hg (carriedVolume (s.chan c))
    rw [exec_notePlay_of_noteOn hn (noteOn_of_envCreate hk he _), carriedVolume_eq hsome hnone]

/-! ## Installing an effect (R180, R207, R212, R213) -/

/-- An effect whose own action is to write a slot installs it in the channel that the teardown leaves. -/
theorem runEffect_of_setFx {c : Chan} {op : EffectOp} {fx : FxSlot}
    (h : ∀ u : State, effectAct u c 0 op = (u.setChan c { u.chan c with fx := fx }, .none)) (s : State) :
    runEffect c 0 op s =
      .next ((s.setChan c { fxTeardown Config.hw (s.chan c) with fx := fx }).driveReq .none) := by
  rw [runEffect, dispatch, h, driveResult, State.chan_setChan, if_pos rfl, State.setChan_setChan]

/-- Settles O23: the three kinds write the slot with their own effect. -/
theorem persistentKindsInstall : Obligations.PersistentKindsInstall := fun _ _ _ s =>
  ⟨runEffect_of_setFx (fun _ => rfl) s, runEffect_of_setFx (fun _ => rfl) s, runEffect_of_setFx (fun _ => rfl) s⟩

/-! ## One sample and one tick of a channel (R181, R182, R187) -/

/-- Settles O32: the two cases of `chSample`. -/
theorem channelSampleIsTheProduct : Obligations.ChannelSampleIsTheProduct :=
  fun _ _ _ => ⟨chSample_none, fun _ _ _ => chSample_some⟩

section
variable {f : EnvelopeNote → Except Fault EnvelopeNote}

theorem onEnv_none (h : ch.env = none) : onEnv f ch = .ok ch := by rw [onEnv, h]

theorem onEnv_some {e e' : EnvelopeNote} (h : ch.env = some e) (he : f e = .ok e') :
    onEnv f ch = .ok { ch with env := some e' } := by
  simp only [onEnv, h, he, except_ok_bind, except_pure]

/-- An action that leaves the note as it is leaves the channel as it is. -/
theorem onEnv_unchanged (h : ∀ e, f e = .ok e) : onEnv f ch = .ok ch := by
  cases he : ch.env with
  | none => exact onEnv_none he
  | some e => rw [onEnv_some he (h e), ← he]

variable {cond : Prop} [Decidable cond]

theorem onEnvIf_pos (hc : cond) : onEnvIf cond f ch = onEnv f ch := if_pos hc

theorem onEnvIf_neg (hc : ¬cond) : onEnvIf cond f ch = .ok ch := if_neg hc

theorem onEnvIf_none (h : ch.env = none) : onEnvIf cond f ch = .ok ch := by
  unfold onEnvIf
  split
  · exact onEnv_none h
  · rfl

end

/-- After the countdown part of a tick comes the effect step of the channel it leaves. -/
theorem chTick_of_onEnv {t : BitVec 32} {ch' : Channel} (h : onEnv (countdownOn cfg .tick m) ch = .ok ch') :
    chTick cfg m t ch = fxStep cfg m t ch' := by
  rw [chTick, h]; rfl

theorem countdownOn_tick (hclk : cfg.envCountClock = .tick) (e : EnvelopeNote) :
    countdownOn cfg .tick m e = envCountdown m e := if_pos hclk

theorem countdownOn_tick_of_sample (hclk : cfg.envCountClock = .sample) (e : EnvelopeNote) :
    countdownOn cfg .tick m e = .ok e := if_neg (by rw [hclk]; decide)

theorem fxStep_none {t : BitVec 32} (h : ch.fx = .none) : fxStep cfg m t ch = .ok ch := by rw [fxStep, h]

/-- Settles O35: what the countdown part of the tick leaves, clock by clock, and the empty slot. -/
theorem channelTickCountsDownThenSteps : Obligations.ChannelTickCountsDownThenSteps := by
  refine fun cfg m t ch => ⟨?_, fun e e' hclk he hcd => ?_, fxStep_none⟩
  · rintro (he | hclk)
    · exact chTick_of_onEnv (onEnv_none he)
    · exact chTick_of_onEnv (onEnv_unchanged (countdownOn_tick_of_sample hclk))
  · exact chTick_of_onEnv (onEnv_some he ((countdownOn_tick hclk e).trans hcd))

/-! ## One step of the Arpeggio (R188) -/

theorem fxStep_arpeggio_none {a b : BitVec 4} (hfx : ch.fx = .arpeggio a b) (hn : ch.baseNote = none) (t : BitVec 32) :
    fxStep cfg m t ch = .ok ch := by
  simp only [fxStep, hfx, hn]

theorem fxStep_arpeggio_some {a b : BitVec 4} {n : Fin 63} (hfx : ch.fx = .arpeggio a b) (hn : ch.baseNote = some n)
    (t : BitVec 32) :
    fxStep cfg m t ch = .ok { ch with osc := ch.osc.noteSet cfg (n.val + arpeggioOffset a b t) } := by
  simp only [fxStep, hfx, hn]

/-- Settles O36: the step retunes by `arpeggioOffset`, read off residue by residue. -/
theorem arpeggioStepRetunes : Obligations.ArpeggioStepRetunes := by
  refine fun cfg m t ch a b hfx => ⟨fun hn => fxStep_arpeggio_none hfx hn t, fun n hn => ?_⟩
  rw [fxStep_arpeggio_some hfx hn]
  refine ⟨fun ht => ?_, fun ht => ?_, fun ht => ?_⟩ <;> simp [arpeggioOffset, ht]

/-! ## One step of Retrigger and of Delay (R189, R190) -/

/-- A note whose instrument has a node 0 is put back there; the record need not be admitted. -/
theorem envRetrigger_of_node {e : EnvelopeNote} {ins : Instrument} {d : Nat} {g : Binary64}
    (hi : m[e.inst.toNat]? = some ins) (hd : ins.dur[0]? = some d) (hg : ins.vol[0]? = some g) :
    envRetrigger m e = .ok { e with idx := 0, dur := .count d, goal := g, vol := g, start := g } := by
  simp [envRetrigger, Memory.record_eq hi, Memory.nodeDur_eq_ok.mpr ⟨d, hd, rfl⟩, Memory.nodeVol_eq_ok.mpr hg]

theorem fxStep_retrigger {a b : BitVec 4} (hfx : ch.fx = .retrigger a b) (t : BitVec 32) :
    fxStep cfg m t ch = onEnvIf (b.toNat ≠ 0 ∧ t.toNat % b.toNat = 0) (envRetrigger m) ch := by
  simp only [fxStep, hfx]

/-- The restart test of a Delay meets the channel that its silence test leaves. -/
theorem fxStep_delay {a b : BitVec 4} {t : BitVec 32} {ch' : Channel} (hfx : ch.fx = .delay a b)
    (h : onEnvIf (t.toNat = 0) (envSilence m) ch = .ok ch') :
    fxStep cfg m t ch = onEnvIf (t.toNat = b.toNat) (envRetrigger m) ch' := by
  simp only [fxStep, hfx, h, except_ok_bind]

/-- Settles O37: the two cases of the retrigger test, and a channel with no note for it to act on. -/
theorem retriggerStepRestarts : Obligations.RetriggerStepRestarts := by
  intro cfg m t ch a b hfx
  rw [fxStep_retrigger hfx]
  refine ⟨?_, fun e ins d g hb ht he hi hd hg => ?_⟩
  · rintro (rfl | ht | he)
    · exact onEnvIf_neg fun h => h.1 rfl
    · exact onEnvIf_neg fun h => ht h.2
    · exact onEnvIf_none he
  · have hb : b.toNat ≠ 0 := by bv_omega
    rw [onEnvIf_pos ⟨hb, ht⟩]
    exact onEnv_some he (envRetrigger_of_node hi hd hg)

/-- Settles O38: the silence test and then the restart test, which on a note silenced by the same tick writes the
same fields. -/
theorem delayStepSilencesThenRestarts : Obligations.DelayStepSilencesThenRestarts := by
  intro cfg m t ch a b hfx
  refine ⟨fun he => ?_, fun e ins d g he hi hd hg => ?_⟩
  · rw [fxStep_delay hfx (onEnvIf_none he), onEnvIf_none he]
  have hzero (ht : t.toNat = 0) := (onEnvIf_pos ht).trans (onEnv_some he (envSilence_eq hi))
  have hlater (ht : t.toNat ≠ 0) : onEnvIf (t.toNat = 0) (envSilence m) ch = .ok ch := onEnvIf_neg ht
  refine ⟨fun ht hb => ?_, fun htb => ?_, fun ht htb => ?_⟩
  · have htb : t.toNat ≠ b.toNat := by bv_omega
    rw [fxStep_delay hfx (hzero ht), onEnvIf_neg htb]
  · by_cases ht : t.toNat = 0
    · rw [fxStep_delay hfx (hzero ht), onEnvIf_pos htb]
      exact onEnv_some rfl (envRetrigger_of_node hi hd hg)
    · rw [fxStep_delay hfx (hlater ht), onEnvIf_pos htb]
      exact onEnv_some he (envRetrigger_of_node hi hd hg)
  · rw [fxStep_delay hfx (hlater ht), onEnvIf_neg htb]

end Machine
end Sys2Proof
end

section
/-!
Cells and effects (43_cell_effects.md): what a dispatched effect makes of its channel, kind by kind, what each part of a
cell does in the run of its actions, and that `jumped` goes with the request. With them the statements
CellDoesVolumeThenNoteThenEffect (O19), JumpedMarksTheJumps (O30), EffectRunsDispatch (O22), LoopSetMovesTheBookmark
(O24), LoopRepeatCountsAndJumps (O25), RequestKindsAskTheHost (O27), SongVolumeEffectScales (O28) and
ReservedKindsOnlyTearDown (O29).
-/

namespace Sys2Proof

theorem channelOp_cell : ChannelOp 0x2 := by unfold ChannelOp SongOp; decide

theorem channelOp_effect : ChannelOp 0x6 := by unfold ChannelOp SongOp; decide

namespace Machine

variable {cfg : Config} {m : Memory} {ch : Channel} {c : Chan} {r : BitVec 32} {s : State}

/-! ## The parts of a cell in sequence (R202 to R204) -/

theorem exec_cell (c : Chan) (w r : BitVec 32) (s : State) :
    exec (.cell c w r) s = cellApply Config.hw c r s (cellActions (decodeCell w)) := rfl

/-- The actions of a cell run part by part. -/
theorem cellRun_append (x : State × Request) (l₁ l₂ : List CellAction) :
    cellRun cfg c r x (l₁ ++ l₂) = cellRun cfg c r x l₁ >>= fun y => cellRun cfg c r y l₂ := by
  induction l₁ generalizing x with
  | nil => rfl
  | cons a rest ih =>
    rw [List.cons_append, cellRun, cellRun]
    cases cellAct cfg c r x.1 a with
    | error f => rfl
    | ok y => exact ih y

/-- A cell of one action is that action. -/
theorem cellRun_singleton (x : State × Request) (a : CellAction) : cellRun cfg c r x [a] = cellAct cfg c r x.1 a := by
  rw [cellRun]
  cases cellAct cfg c r x.1 a <;> rfl

/-- What the volume field of a cell makes of its channel (R202, R204). -/
def Channel.withCellVolume (ch : Channel) : Option (BitVec 6) → Channel
  | some v => { ch with cvol := cellVolume v }
  | none => ch

theorem cellRun_volume (s : State) (vol : Option (BitVec 6)) :
    cellRun cfg c r (s, .none) (vol.map CellAction.volume).toList =
      .ok (s.setChan c ((s.chan c).withCellVolume vol), .none) := by
  cases vol with
  | none => rw [Channel.withCellVolume, State.setChan_chan]; rfl
  | some v => rfl

/-- A note-on plays where the index is below ninst, and leaves the channel alone elsewhere (R175). -/
theorem noteOn_eq_ok_iff {n : Fin 63} {k : BitVec 4} {ch' : Channel} :
    noteOn cfg m n k ch = .ok ch' ↔ if k.toNat < m.length then notePlay cfg m n k ch = .ok ch' else ch' = ch := by
  by_cases hk : k.toNat < m.length
  · rw [if_pos hk, noteOn, if_pos (show resolves m k = true from decide_eq_true hk)]
  · rw [if_neg hk, noteOn_unresolved (not_lt.mp hk), Except.ok.injEq, eq_comm]

/-- The channels that the note and instrument fields of a cell may leave (R202, R203): the one that ends or plays its
note, the same one where they select nothing. -/
def NoteLeaves (cfg : Config) (m : Memory) (ch ch' : Channel) : Option (BitVec 6) → Option (BitVec 4) → Prop
  | some n, some k =>
    if h : n.toNat < 63 then
      (if k.toNat < m.length then notePlay cfg m ⟨n.toNat, h⟩ k ch = .ok ch' else ch' = ch)
    else ch' = noteEnd ch
  | some n, none => if n.toNat < 63 then ch' = ch else ch' = noteEnd ch
  | none, _ => ch' = ch

theorem cellRun_noteStop (s : State) :
    cellRun cfg c r (s, .none) [.noteStop] = .ok (s.setChan c (noteEnd (s.chan c)), .none) := rfl

theorem cellRun_noteOn {n : BitVec 6} {k : BitVec 4} {ch' : Channel} (hn : n.toNat < 63)
    (h : noteOn cfg s.mem ⟨n.toNat, hn⟩ k (s.chan c) = .ok ch') :
    cellRun cfg c r (s, .none) [.noteOn n k] = .ok (s.setChan c ch', .none) := by
  rw [cellRun_singleton, cellAct, dif_pos hn, h]
  rfl

theorem noteActions_stop (inst : Option (BitVec 4)) : noteActions (some 63) inst = [.noteStop] := rfl

theorem noteActions_play {n : BitVec 6} (hn : n.toNat < 63) (inst : Option (BitVec 4)) :
    noteActions (some n) inst = (inst.map (CellAction.noteOn n)).toList := by
  have hne : n ≠ 63 := by bv_omega
  cases inst <;> exact if_neg hne

/-- The note part of a cell completes over a canonical memory, and drives no request. -/
theorem cellRun_noteActions (hw : Memory.wf cfg s.mem = true) (note : Option (BitVec 6)) (inst : Option (BitVec 4)) :
    ∃ ch', NoteLeaves cfg s.mem (s.chan c) ch' note inst ∧
      cellRun cfg c r (s, .none) (noteActions note inst) = .ok (s.setChan c ch', .none) := by
  have hsame : cellRun cfg c r (s, .none) [] = .ok (s.setChan c (s.chan c), .none) := by
    rw [State.setChan_chan]; rfl
  cases note with
  | none => exact ⟨s.chan c, rfl, hsame⟩
  | some n =>
    by_cases hn : n.toNat < 63
    · rw [noteActions_play hn]
      cases inst with
      | none => exact ⟨s.chan c, (if_pos hn).mpr rfl, hsame⟩
      | some k =>
        obtain ⟨ch', hplay⟩ : ∃ ch', noteOn cfg s.mem ⟨n.toNat, hn⟩ k (s.chan c) = .ok ch' := by
          rcases noteOn_cases hw ⟨n.toNat, hn⟩ k (s.chan c) with ⟨-, h⟩ | ⟨-, e, -, -, h⟩ <;> exact ⟨_, h⟩
        exact ⟨ch', (dif_pos hn).mpr (noteOn_eq_ok_iff.mp hplay), cellRun_noteOn hn hplay⟩
    · obtain rfl : n = 63 := by bv_omega
      rw [noteActions_stop]
      refine ⟨noteEnd (s.chan c), ?_, cellRun_noteStop s⟩
      cases inst <;> rfl

theorem cellRun_effect (s : State) (eff : Option (BitVec 12)) :
    cellRun cfg c r (s, .none) (eff.map CellAction.effect).toList =
      .ok (eff.elim (s, .none) fun e => dispatch cfg s c r (decodeEffect e)) := by
  cases eff <;> rfl

/-- The three parts in sequence: the note part reads the channel that the volume leaves, the effect the one that the note
leaves, and only the effect returns a request. -/
theorem cellRun_cellActions {f : CellFields} {ch' : Channel}
    (hnote : cellRun cfg c r (s.setChan c ((s.chan c).withCellVolume f.vol), .none) (noteActions f.note f.inst) =
      .ok (s.setChan c ch', .none)) :
    cellRun cfg c r (s, .none) (cellActions f) =
      .ok (f.eff.elim (s.setChan c ch', .none) fun e => dispatch cfg (s.setChan c ch') c r (decodeEffect e)) := by
  rw [cellActions, cellRun_append, cellRun_append, cellRun_volume, except_ok_bind, hnote, except_ok_bind,
    cellRun_effect]

/-- Settles O19: the note part completes from the channel that the volume leaves, and with it the whole cell. -/
theorem cellDoesVolumeThenNoteThenEffect : Obligations.CellDoesVolumeThenNoteThenEffect := by
  refine ⟨fun d => Commands.onChannels_of_decodeChannelOp channelOp_cell fun _ => rfl, ?_⟩
  intro c w r s hinv f ch₁ hf hch₁
  obtain rfl : ch₁ = (s.chan c).withCellVolume f.vol := hch₁
  obtain ⟨ch₂, hleaves, hnote⟩ := cellRun_noteActions (cfg := Config.hw) (c := c) (r := r)
    (s := s.setChan c ((s.chan c).withCellVolume f.vol)) hinv.mem f.note f.inst
  rw [State.chan_setChan, if_pos rfl] at hleaves
  rw [State.setChan_setChan] at hnote
  refine ⟨ch₂, hleaves, ?_⟩
  rw [exec_cell, ← hf, cellApply_eq_next]
  exact ⟨_, cellRun_cellActions hnote, by cases f.eff <;> rfl⟩

/-! ## `jumped` beside the request (R37, R218) -/

/-- `jumped` is driven with the request, and holds what it says of the cursor. -/
def JumpedOfReq (t : State) : Prop := t.ports.jumped = t.ports.req.map Request.isJump

theorem jumpedOfReq_quiet (s : State) : JumpedOfReq s.quiet := rfl

theorem jumpedOfReq_driveOut (s : State) (v : Binary64) : JumpedOfReq (s.driveOut v) := rfl

theorem jumpedOfReq_driveReq (s : State) (q : Request) : JumpedOfReq (s.driveReq q) := rfl

theorem jumpedOfReq_refuse (s : State) (reason : RefuseReason) : JumpedOfReq (s.refuse reason) := rfl

theorem cellApply_jumpedOfReq {l : List CellAction} {t : State} (h : cellApply cfg c r s l = .next t) :
    JumpedOfReq t := by
  obtain ⟨y, -, rfl⟩ := cellApply_eq_next.mp h
  exact jumpedOfReq_driveReq _ _

theorem runEffect_jumpedOfReq {op : EffectOp} {t : State} (h : runEffect c r op s = .next t) : JumpedOfReq t := by
  cases h
  exact jumpedOfReq_driveReq _ _

theorem execNotePlay_jumpedOfReq {n : BitVec 6} {k : BitVec 4} {t : State} (h : execNotePlay c n k s = .next t) :
    JumpedOfReq t := by
  have h := finish_eq_next.mp h
  unfold notePlayWith at h
  split at h
  · obtain ⟨x, -, ht⟩ := except_bind_ok.mp h
    cases ht; exact jumpedOfReq_quiet _
  · cases h; exact jumpedOfReq_refuse _ _

theorem execVolumeSet_jumpedOfReq {v : BitVec 64} {t : State} (h : execVolumeSet c v s = .next t) : JumpedOfReq t := by
  unfold execVolumeSet at h
  split at h <;> cases h
  · exact jumpedOfReq_quiet _
  · exact jumpedOfReq_refuse _ _

theorem execSongVolumeSet_jumpedOfReq {v : BitVec 64} {t : State} (h : execSongVolumeSet v s = .next t) :
    JumpedOfReq t := by
  unfold execSongVolumeSet at h
  split at h <;> cases h
  · exact jumpedOfReq_quiet _
  · exact jumpedOfReq_refuse _ _

theorem oscNoteSetWith_jumpedOfReq (n : BitVec 7) : JumpedOfReq (oscNoteSetWith cfg c n s) := by
  unfold oscNoteSetWith
  split
  · exact jumpedOfReq_quiet _
  · exact jumpedOfReq_refuse _ _

theorem execOscSetFrequency_jumpedOfReq {f : BitVec 64} {t : State} (h : execOscSetFrequency c f s = .next t) :
    JumpedOfReq t := by
  unfold execOscSetFrequency at h
  split at h
  · cases h; exact jumpedOfReq_refuse _ _
  · split at h <;> cases h
    · exact jumpedOfReq_quiet _
    · exact jumpedOfReq_refuse _ _

theorem oscSetDutyWith_jumpedOfReq (d : BitVec 64) : JumpedOfReq (oscSetDutyWith cfg c d s) := by
  unfold oscSetDutyWith
  split
  · split
    · exact jumpedOfReq_quiet _
    · exact jumpedOfReq_refuse _ _
  · exact jumpedOfReq_refuse _ _

theorem instrLoadWith_jumpedOfReq (table : List Instrument) : JumpedOfReq (instrLoadWith cfg table s) := by
  unfold instrLoadWith
  split
  · exact jumpedOfReq_refuse _ _
  · split
    · exact jumpedOfReq_quiet _
    · exact jumpedOfReq_refuse _ _

/-- Every instruction ends by driving its ports, `jumped` with the request. -/
theorem exec_jumpedOfReq {i : Instr} {t : State} (h : exec i s = .next t) : JumpedOfReq t := by
  cases i with
  | sample =>
    obtain ⟨x, -, ht⟩ := except_bind_ok.mp (finish_eq_next.mp h)
    cases ht; exact jumpedOfReq_driveOut _ _
  | tick =>
    obtain ⟨cs, -, ht⟩ := except_bind_ok.mp (finish_eq_next.mp h)
    cases ht; exact jumpedOfReq_quiet _
  | notePlay => exact execNotePlay_jumpedOfReq h
  | volumeSet => exact execVolumeSet_jumpedOfReq h
  | noteEnd | channelReset => cases h; exact jumpedOfReq_quiet _
  | songVolumeSet => exact execSongVolumeSet_jumpedOfReq h
  | oscNoteSet => cases h; exact oscNoteSetWith_jumpedOfReq _
  | oscSetFrequency => exact execOscSetFrequency_jumpedOfReq h
  | oscSetDuty => cases h; exact oscSetDutyWith_jumpedOfReq _
  | reservedCmd => cases h; exact jumpedOfReq_refuse _ _
  | instrLoad => cases h; exact instrLoadWith_jumpedOfReq _
  | cellEmpty => cases h; exact jumpedOfReq_driveReq _ _
  | cell => exact cellApply_jumpedOfReq h
  | cellVolume => rw [exec_cellVolume] at h; exact cellApply_jumpedOfReq h
  | cellNoteStop => rw [exec_cellNoteStop] at h; exact cellApply_jumpedOfReq h
  | cellNoteOn => rw [exec_cellNoteOn] at h; exact cellApply_jumpedOfReq h
  | cellEffect => rw [exec_cellEffect] at h; exact cellApply_jumpedOfReq h
  | effect | fxArpeggio | fxLoopSet | fxLoopRepeat | fxPatternJump | fxRowJump | fxRetrigger | fxDelay
  | fxSongVolume | fxSongBps | fxSongTpb | fxReserved9 | fxReserved10 | fxReserved11 | fxReserved12
  | fxReserved13 | fxReserved14 | fxReserved15 => exact runEffect_jumpedOfReq h

theorem Request.isJump_iff (q : Request) :
    q.isJump = true ↔ (∃ row, q = .loopJump row) ∨ (∃ p, q = .patternJump p) ∨ ∃ row, q = .rowJump row := by
  cases q <;> simp [Request.isJump]

/-- Settles O30: `jumped` is `isJump` of the request that is driven. -/
theorem jumpedMarksTheJumps : Obligations.JumpedMarksTheJumps := by
  intro i s t h
  rw [show t.ports.jumped = t.ports.req.map Request.isJump from exec_jumpedOfReq h]
  cases t.ports.req with
  | none => simp
  | some q => simpa using q.isJump_iff

/-! ## A dispatched effect, kind by kind (R205 to R217) -/

/-- Settles O22: `dispatch` is the meaning of EFFECT, which decodes on the five channels. -/
theorem effectRunsDispatch : Obligations.EffectRunsDispatch :=
  ⟨fun _ => Commands.onChannels_of_decodeChannelOp channelOp_effect fun _ => rfl, fun _ _ _ _ => rfl⟩

/-- An effect whose own action writes nothing changes nothing after the teardown. -/
theorem runEffect_of_request {op : EffectOp} {q : Request} (h : ∀ u : State, effectAct u c 0 op = (u, q)) (s : State) :
    runEffect c 0 op s = .next ((s.setChan c (fxTeardown Config.hw (s.chan c))).driveReq q) := by
  rw [runEffect, dispatch, h, driveResult]

/-- Settles O27: the four kinds return their request and write nothing. -/
theorem requestKindsAskTheHost : Obligations.RequestKindsAskTheHost := by
  rintro c p a b s _ rfl
  exact ⟨runEffect_of_request (fun _ => rfl) s, runEffect_of_request (fun _ => rfl) s,
    runEffect_of_request (fun _ => rfl) s, runEffect_of_request (fun _ => rfl) s⟩

/-- Settles O28: the action of kind 6 after the teardown, and the two quotients at the ends of its range. -/
theorem songVolumeEffectScales : Obligations.SongVolumeEffectScales :=
  ⟨fun _ _ _ => rfl, by decide +kernel, by decide +kernel⟩

theorem fxTeardown_arpeggio {a b : BitVec 4} {n : Fin 63} (hfx : ch.fx = .arpeggio a b) (hn : ch.baseNote = some n) :
    fxTeardown cfg ch = { ch with fx := .none, osc := ch.osc.noteSet cfg n.val } := by
  simp only [fxTeardown, hfx, hn]

/-- Without an Arpeggio on a base note the teardown only clears the slot. -/
theorem fxTeardown_clears (h : ∀ a b n, ch.fx = .arpeggio a b → ch.baseNote = some n → False) :
    fxTeardown cfg ch = { ch with fx := .none } := by
  unfold fxTeardown
  split
  next hfx => rw [← hfx]
  next hfx hn => exact (h _ _ _ hfx hn).elim
  next => rfl

/-- Settles O29: the action of a reserved kind is empty, and the teardown is read off case by case. -/
theorem reservedKindsOnlyTearDown : Obligations.ReservedKindsOnlyTearDown := by
  rintro c a b s _ ch hch rfl
  have hdown : ch = fxTeardown Config.hw (s.chan c) := by
    rw [hch]
    split
    next hfx hn => exact (fxTeardown_arpeggio hfx hn).symm
    next h => exact (fxTeardown_clears h).symm
  rw [hdown]
  have hreserved (kind : BitVec 4) := runEffect_of_request (c := c) (op := .reserved kind a b) (fun _ => rfl) s
  exact ⟨hreserved 9, hreserved 10, hreserved 11, hreserved 12, hreserved 13, hreserved 14, hreserved 15⟩

/-! ## The loop effects (R208, R209) -/

theorem fxTeardown_bookmark (cfg : Config) (ch : Channel) : (fxTeardown cfg ch).bookmark = ch.bookmark := by
  obtain ⟨osc, h⟩ := fxTeardown_eq cfg ch
  rw [h]

/-- An effect whose own action writes only its channel writes the one that the teardown leaves. -/
theorem runEffect_of_setChan {op : EffectOp} {f : Channel → Channel × Request}
    (h : ∀ u : State, effectAct u c r op = (u.setChan c (f (u.chan c)).1, (f (u.chan c)).2)) (s : State) :
    runEffect c r op s =
      .next ((s.setChan c (f (fxTeardown Config.hw (s.chan c))).1).driveReq
        (f (fxTeardown Config.hw (s.chan c))).2) := by
  rw [runEffect, dispatch, h, driveResult, State.chan_setChan, if_pos rfl, State.setChan_setChan]

theorem exec_fxLoopSet (c : Chan) (a : BitVec 4) (r : BitVec 32) (s : State) :
    exec (.fxLoopSet c a r) s =
      .next ((s.setChan c (loopSet r (fxTeardown Config.hw (s.chan c)))).driveReq .none) :=
  runEffect_of_setChan (op := .loopSet a) (f := fun ch => (loopSet r ch, .none)) (fun _ => rfl) s

theorem exec_fxLoopRepeat (c : Chan) (a b : BitVec 4) (s : State) :
    exec (.fxLoopRepeat c a b) s =
      .next ((s.setChan c (loopRepeat b (fxTeardown Config.hw (s.chan c))).1).driveReq
        (loopRepeat b (fxTeardown Config.hw (s.chan c))).2) :=
  runEffect_of_setChan (op := .loopRepeat a b) (f := loopRepeat b) (fun _ => rfl) s

theorem loopSet_none (h : ch.bookmark = none) : loopSet r ch = { ch with bookmark := some ⟨r, 0⟩ } := by
  rw [loopSet, h]

theorem loopSet_some {bm : Bookmark} (h : ch.bookmark = some bm) :
    loopSet r ch = { ch with bookmark := some ⟨r, bm.count⟩ } := by
  rw [loopSet, h]

theorem loopRepeat_of_lt {b : BitVec 4} (h : (bookmarkOrNew ch).count < b.toNat) :
    loopRepeat b ch =
      ({ ch with bookmark := some ⟨(bookmarkOrNew ch).row, (bookmarkOrNew ch).count + 1⟩ },
        .loopJump (bookmarkOrNew ch).row) := if_pos h

theorem loopRepeat_of_le {b : BitVec 4} (h : b.toNat ≤ (bookmarkOrNew ch).count) :
    loopRepeat b ch = ({ ch with bookmark := none }, .none) := if_neg (not_lt.mpr h)

/-- Settles O24: the teardown leaves the bookmark, so `loopSet` meets the old one. -/
theorem loopSetMovesTheBookmark : Obligations.LoopSetMovesTheBookmark := by
  intro c a r s
  have hkept := fxTeardown_bookmark Config.hw (s.chan c)
  rw [exec_fxLoopSet]
  refine ⟨fun h => ?_, fun bm h => ?_⟩
  · rw [loopSet_none (hkept.trans h)]
  · rw [loopSet_some (hkept.trans h)]

/-- Settles O25: the teardown leaves the bookmark, so `bookmarkOrNew` gives the one the statement names. -/
theorem loopRepeatCountsAndJumps : Obligations.LoopRepeatCountsAndJumps := by
  intro c a b s bm _ hbm
  have hnew : bookmarkOrNew (fxTeardown Config.hw (s.chan c)) = bm := by
    rw [bookmarkOrNew, fxTeardown_bookmark]
    rcases hbm with h | ⟨h, rfl⟩ <;> rw [h] <;> rfl
  subst hnew
  rw [exec_fxLoopRepeat]
  refine ⟨fun hlt => ?_, fun hle => ?_⟩
  · rw [loopRepeat_of_lt hlt]
  · rw [loopRepeat_of_le hle]

end Machine
end Sys2Proof
end

section
/-!
Refusals (60_exceptions.md R243, R244): a delivery that completes is a refusal of the state it ran on, or reports no
reason and leaves the mark alone. With it the statement RefusalChangesOnlyTheMark (O55).
-/

namespace Sys2Proof.Machine

/-- What a delivery that completes can do to the mark: it is refused, or it reports no reason and keeps the mark. -/
inductive RefusedOrKeepsMark (s : State) : State → Prop
  | refused (reason : RefuseReason) : RefusedOrKeepsMark s (s.refuse reason)
  | keepsMark {t : State} (hreason : t.ports.reason = none) (hmark : t.refused = s.refused) : RefusedOrKeepsMark s t

section
variable {cfg : Config} {c : Chan} {r : BitVec 32} {s t : State}

/-- The mark is sticky: a refusal sets it, and no other outcome clears it. -/
theorem RefusedOrKeepsMark.mark_sticky (h : RefusedOrKeepsMark s t) (hs : s.refused = true) : t.refused = true := by
  cases h with
  | refused reason => rfl
  | keepsMark _ hmark => exact hmark.trans hs

/-! ## Cells and effects: never refused (R201, R205) -/

theorem dispatch_refused (cfg : Config) (s : State) (c : Chan) (r : BitVec 32) (op : EffectOp) :
    (dispatch cfg s c r op).1.refused = s.refused :=
  (dispatch_frame cfg s c r op).2.1

theorem cellAct_refused {a : CellAction} {y : State × Request} (h : cellAct cfg c r s a = .ok y) :
    y.1.refused = s.refused := by
  cases a with
  | volume | noteStop => cases h; rfl
  | effect => cases h; exact dispatch_refused cfg s c r _
  | noteOn n k =>
    by_cases hn : n.toNat < 63
    · rw [cellAct, dif_pos hn] at h
      obtain ⟨ch, -, hy⟩ := except_bind_ok.mp h
      cases hy; rfl
    · rw [cellAct, dif_neg hn] at h
      cases h; rfl

theorem cellRun_refused {l : List CellAction} {x y : State × Request} (h : cellRun cfg c r x l = .ok y) :
    y.1.refused = x.1.refused := by
  induction l generalizing x with
  | nil => cases h; rfl
  | cons a rest ih =>
    obtain ⟨z, hz, hrest⟩ := except_bind_ok.mp h
    exact (ih hrest).trans (cellAct_refused hz)

theorem cellApply_refusedOrKeepsMark {l : List CellAction} (h : cellApply cfg c r s l = .next t) :
    RefusedOrKeepsMark s t := by
  obtain ⟨y, hy, rfl⟩ := cellApply_eq_next.mp h
  exact .keepsMark rfl (cellRun_refused hy)

theorem runEffect_refusedOrKeepsMark {op : EffectOp} (h : runEffect c r op s = .next t) : RefusedOrKeepsMark s t := by
  cases h
  exact .keepsMark rfl (dispatch_refused Config.hw s c r op)

/-! ## The commands that check an operand (R130 to R132, R173, R178, R179) and the memory port (R53) -/

theorem execNotePlay_refusedOrKeepsMark {n : BitVec 6} {k : BitVec 4} (h : execNotePlay c n k s = .next t) :
    RefusedOrKeepsMark s t := by
  have h := finish_eq_next.mp h
  unfold notePlayWith at h
  split at h
  · obtain ⟨ch, -, ht⟩ := except_bind_ok.mp h
    cases ht; exact .keepsMark rfl rfl
  · cases h; exact .refused _

theorem execVolumeSet_refusedOrKeepsMark {v : BitVec 64} (h : execVolumeSet c v s = .next t) :
    RefusedOrKeepsMark s t := by
  unfold execVolumeSet at h
  split at h <;> cases h
  · exact .keepsMark rfl rfl
  · exact .refused _

theorem execSongVolumeSet_refusedOrKeepsMark {v : BitVec 64} (h : execSongVolumeSet v s = .next t) :
    RefusedOrKeepsMark s t := by
  unfold execSongVolumeSet at h
  split at h <;> cases h
  · exact .keepsMark rfl rfl
  · exact .refused _

theorem oscNoteSetWith_refusedOrKeepsMark (n : BitVec 7) : RefusedOrKeepsMark s (oscNoteSetWith cfg c n s) := by
  unfold oscNoteSetWith
  split
  · exact .keepsMark rfl rfl
  · exact .refused _

theorem execOscSetFrequency_refusedOrKeepsMark {f : BitVec 64} (h : execOscSetFrequency c f s = .next t) :
    RefusedOrKeepsMark s t := by
  unfold execOscSetFrequency at h
  split at h
  · cases h; exact .refused _
  · split at h <;> cases h
    · exact .keepsMark rfl rfl
    · exact .refused _

theorem oscSetDutyWith_refusedOrKeepsMark (d : BitVec 64) : RefusedOrKeepsMark s (oscSetDutyWith cfg c d s) := by
  unfold oscSetDutyWith
  split
  · split
    · exact .keepsMark rfl rfl
    · exact .refused _
  · exact .refused _

theorem instrLoadWith_refusedOrKeepsMark (table : List Instrument) :
    RefusedOrKeepsMark s (instrLoadWith cfg table s) := by
  unfold instrLoadWith
  split
  · exact .refused _
  · split
    · exact .keepsMark rfl rfl
    · exact .refused _

/-! ## Every instruction and every delivery -/

/-- Every instruction that completes is refused, or reports no reason and keeps the mark (R243). -/
theorem exec_refusedOrKeepsMark {i : Instr} (h : exec i s = .next t) : RefusedOrKeepsMark s t := by
  cases i with
  | sample | tick =>
    obtain ⟨x, -, ht⟩ := except_bind_ok.mp (finish_eq_next.mp h)
    cases ht; exact .keepsMark rfl rfl
  | noteEnd | channelReset | cellEmpty => cases h; exact .keepsMark rfl rfl
  | reservedCmd => cases h; exact .refused _
  | notePlay => exact execNotePlay_refusedOrKeepsMark h
  | volumeSet => exact execVolumeSet_refusedOrKeepsMark h
  | songVolumeSet => exact execSongVolumeSet_refusedOrKeepsMark h
  | oscNoteSet => cases h; exact oscNoteSetWith_refusedOrKeepsMark _
  | oscSetFrequency => exact execOscSetFrequency_refusedOrKeepsMark h
  | oscSetDuty => cases h; exact oscSetDutyWith_refusedOrKeepsMark _
  | instrLoad => cases h; exact instrLoadWith_refusedOrKeepsMark _
  | cell => exact cellApply_refusedOrKeepsMark h
  | cellVolume => rw [exec_cellVolume] at h; exact cellApply_refusedOrKeepsMark h
  | cellNoteStop => rw [exec_cellNoteStop] at h; exact cellApply_refusedOrKeepsMark h
  | cellNoteOn => rw [exec_cellNoteOn] at h; exact cellApply_refusedOrKeepsMark h
  | cellEffect => rw [exec_cellEffect] at h; exact cellApply_refusedOrKeepsMark h
  | effect | fxArpeggio | fxLoopSet | fxLoopRepeat | fxPatternJump | fxRowJump | fxRetrigger | fxDelay
  | fxSongVolume | fxSongBps | fxSongTpb | fxReserved9 | fxReserved10 | fxReserved11 | fxReserved12
  | fxReserved13 | fxReserved14 | fxReserved15 => exact runEffect_refusedOrKeepsMark h

/-- A refusal of the decoder is a refusal like any other (R89). -/
theorem runDecoded_refusedOrKeepsMark {x : Except RefuseReason Instr} (h : runDecoded x s = .next t) :
    RefusedOrKeepsMark s t := by
  cases x with
  | error reason => cases h; exact .refused reason
  | ok i => exact exec_refusedOrKeepsMark h

theorem step_keeps_mark (hs : s.refused = true) (h : step s = .next t) : t.refused = true := by
  unfold step at h
  split at h
  · cases h; exact hs
  · exact (runDecoded_refusedOrKeepsMark h).mark_sticky hs

end

/-- Settles O55: `exec_refusedOrKeepsMark` says which of its two outcomes an instruction has by the reason it reports,
and a step runs at most one delivery. -/
theorem refusalChangesOnlyTheMark : Obligations.RefusalChangesOnlyTheMark := by
  refine ⟨fun i s t h => ?_, fun _ _ => rfl, fun _ _ => step_keeps_mark⟩
  cases exec_refusedOrKeepsMark h with
  | refused reason => exact ⟨fun _ hr => by cases hr; rfl, fun hr => nomatch hr⟩
  | keepsMark hreason hmark => exact ⟨fun _ hr => absurd (hreason.symm.trans hr) nofun, fun _ => hmark⟩

end Sys2Proof.Machine
end

section
/-!
Reset (70_reset_and_hazards.md R261, R262): the NUMs the power-on values are written with, and the channels of the
power-on state. With them the statement ResetHoldsPowerOnValues (O1).
-/

namespace Sys2Proof

/-! ## The numbers 0, 1 and a half (R12) -/

theorem Binary64.ofNat_zero_eq : ofNat 0 = zero := by decide +kernel

theorem Binary64.ofNat_one_eq : ofNat 1 = one := by decide +kernel

theorem Binary64.one_div_two_eq : div (ofNat 1) (ofNat 2) = half := by decide +kernel

namespace Machine

/-! ## The channels at power-on (R262) -/

/-- The channels differ at power-on in their oscillator only. -/
theorem State.chan_reset_eq (c : Chan) : State.reset.chan c = Channel.reset (State.reset.chan c).osc := by
  cases c <;> rfl

/-- Settles O1: the fields beside the oscillator are those of `Channel.reset`, and the oscillator is read off channel by
channel. -/
theorem resetHoldsPowerOnValues : Obligations.ResetHoldsPowerOnValues := by
  unfold Obligations.ResetHoldsPowerOnValues
  rw [Binary64.one_div_two_eq, Binary64.ofNat_one_eq, Binary64.ofNat_zero_eq]
  refine ⟨rfl, rfl, rfl, fun c => ?_⟩
  rw [State.chan_reset_eq c]
  exact ⟨rfl, rfl, rfl, rfl, rfl, by cases c <;> rfl⟩

end Machine
end Sys2Proof
end

section
/-!
The encoding and its inverse (30_encoding.md): the fields of a cell word and of an effect code stand at places of their
own, so they come back from the word, and each case of the decoder checks what makes an instruction well formed. With
them the statements DecodeOfEncodeIsTheInstruction (O6), DecodedInstructionsAreWellFormed (O7),
CellFieldsComeBackFromTheWord (O8) and SpecWordsDecode (O4).
-/

namespace Sys2Proof
open Machine

/-! ## The parts of a cell word (R79, R80) -/

section
variable {n : Nat} {flag place : Nat} {o : Option (BitVec n)}

/-- One part of a cell word, bit by bit: its flag, and its value moved up (R79). -/
theorem getLsbD_cellPart {i : Nat} (hi : i < 32) :
    (cellPart flag place o).getLsbD i =
      ((o.isSome && decide (i = flag)) || (decide (place ≤ i) && (o.getD 0).getLsbD (i - place))) := by
  cases o with
  | none => simp [cellPart]
  | some v =>
    have hflag : (1#32 <<< flag).getLsbD i = decide (i = flag) := by
      rw [BitVec.getLsbD_shiftLeft, BitVec.getLsbD_one, Bool.eq_iff_iff]
      simp only [Bool.and_eq_true, Bool.not_eq_true', decide_eq_true_eq, decide_eq_false_iff_not]
      omega
    have hvalue : (v.setWidth 32 <<< place).getLsbD i = (decide (place ≤ i) && v.getLsbD (i - place)) := by
      have hlow : i - place < 32 := by omega
      simp only [BitVec.getLsbD_shiftLeft, BitVec.getLsbD_setWidth, hi, hlow, decide_true, Bool.true_and,
        ← decide_not, Nat.not_lt]
    rw [cellPart, BitVec.getLsbD_or, hflag, hvalue]
    rfl

theorem getLsbD_cellPart_flag (h : place + n ≤ flag) (hf : flag < 32) :
    (cellPart flag place o).getLsbD flag = o.isSome := by
  rw [getLsbD_cellPart hf, BitVec.getLsbD_of_ge _ _ (by omega)]
  simp

theorem getLsbD_cellPart_off {i : Nat} (hi : i < 32) (hflag : i ≠ flag) (h : i < place ∨ place + n ≤ i) :
    (cellPart flag place o).getLsbD i = false := by
  rw [getLsbD_cellPart hi, decide_eq_false hflag, Bool.and_false, Bool.false_or, Bool.and_eq_false_imp]
  intro hle
  exact BitVec.getLsbD_of_ge _ _ (by simp at hle; omega)

/-- The value of a present field is read at its place, and an absent one reads as 0. -/
theorem extract_cellPart (h : place + n ≤ flag) (hf : flag < 32) :
    (cellPart flag place o).extractLsb' place n = o.getD 0#n := by
  refine BitVec.eq_of_getLsbD_eq fun j hj => ?_
  rw [BitVec.getLsbD_extractLsb', getLsbD_cellPart (by omega), decide_eq_false (show place + j ≠ flag by omega)]
  simp [hj]

/-- A field below the flags and apart from a part's value reads none of its bits. -/
theorem extract_cellPart_off {start len : Nat} (hlen : start + len ≤ flag) (hf : flag < 32)
    (h : start + len ≤ place ∨ place + n ≤ start) : (cellPart flag place o).extractLsb' start len = 0#len := by
  refine BitVec.eq_of_getLsbD_eq fun j hj => ?_
  rw [BitVec.getLsbD_extractLsb', getLsbD_cellPart_off (by omega) (by omega) (by omega)]
  simp

theorem presentIf_isSome (o : Option (BitVec n)) : presentIf o.isSome (o.getD 0#n) = o := by
  cases o <;> rfl

end

/-- The flags and the values of a cell's fields stand at places of their own (R77, R79). -/
theorem decodeCell_encodeCell (f : CellFields) : decodeCell (encodeCell f) = f := by
  simp (disch := omega) only [decodeCell, encodeCell, BitVec.getLsbD_or, BitVec.extractLsb'_or, getLsbD_cellPart_flag,
    getLsbD_cellPart_off, extract_cellPart, extract_cellPart_off, Bool.or_false, Bool.false_or, BitVec.or_zero,
    BitVec.zero_or, presentIf_isSome]

/-! ## The fields of an effect code (R83 to R85) -/

/-- A kind and the two halves of a byte operand are an effect code's three fields. -/
theorem effectWord_append (kind a b : BitVec 4) : effectWord kind (a ++ b) = kind ++ a ++ b := by
  apply BitVec.eq_of_toNat_eq
  simp only [effectWord, toNat_append_eq_add]
  omega

theorem append_halves (p : BitVec 8) : p.extractLsb' 4 4 ++ p.extractLsb' 0 4 = p := by
  apply BitVec.eq_of_toNat_eq
  have hp := p.isLt
  simp only [toNat_append_eq_add, BitVec.extractLsb'_toNat, Nat.shiftRight_eq_div_pow]
  omega

theorem byteOp_append (a b : BitVec 4) : (a.setWidth 8 <<< 4) ||| b.setWidth 8 = a ++ b := by
  rw [BitVec.append_def, BitVec.shiftLeftZeroExtend_eq, BitVec.setWidth'_eq]

/-- The fields of an encoded effect. -/
theorem effectWord_fields (kind : BitVec 4) (p : BitVec 8) :
    (effectWord kind p).extractLsb' 8 4 = kind ∧ (effectWord kind p).extractLsb' 4 4 = p.extractLsb' 4 4 ∧
      (effectWord kind p).extractLsb' 0 4 = p.extractLsb' 0 4 := by
  rw [← append_halves p, effectWord_append, effectCode_kind, effectCode_arg1, effectCode_arg2, append_halves]
  exact ⟨rfl, rfl, rfl⟩

/-- The effects that an effect code stands for (R85): a repeat has arg2 > 0, and a reserved kind is 9 or more. -/
def EffectOp.Encodable : EffectOp → Prop
  | .loopRepeat _ b => b ≠ 0
  | .reserved kind _ _ => 9 ≤ kind.toNat
  | _ => True

theorem decodeEffect_encodeEffect {op : EffectOp} (h : op.Encodable) : decodeEffect (encodeEffect op) = op := by
  cases op with
  | arpeggio | loopSet | retrigger | delay | songTpb =>
    simp [decodeEffect, encodeEffect, effectWord_append, effectCode_kind, effectCode_arg1, effectCode_arg2]
  | patternJump p | rowJump p | songVolume p | songBps p =>
    simp [decodeEffect, encodeEffect, effectWord_fields, byteOp_append, append_halves]
  | loopRepeat a b =>
    have hb : b ≠ 0#4 := h
    simp [decodeEffect, encodeEffect, effectWord_append, effectCode_kind, effectCode_arg1, effectCode_arg2, hb]
  | reserved kind a b =>
    have hk : 9 ≤ kind.toNat := h
    simp only [decodeEffect, encodeEffect, effectWord_append, effectCode_kind, effectCode_arg1, effectCode_arg2]
    repeat rw [if_neg (by rintro rfl; revert hk; decide)]

/-- The packet of a bare effect decodes to the row that the effect selects. -/
theorem decode_effectPacket {op : EffectOp} {c : Chan} {r : BitVec 32} {i : Instr} (h : op.Encodable)
    (hrow : ∀ e, decodeEffect e = op → decodeEffectCode e c r = i) : decode (effectPacket c op r) = .ok i := by
  rw [effectPacket, decode, Chan.ofBits_toBits]
  exact congrArg Except.ok (hrow _ (decodeEffect_encodeEffect h))

/-! ## The operand words (R75) -/

theorem decode_cellPacket (c : Chan) (f : CellFields) (r : BitVec 32) :
    decode (cellPacket c f r) = .ok (decodeCellWord (encodeCell f) c r) := by
  rw [cellPacket, decode, Chan.ofBits_toBits]

theorem rowAbove_low (r w : BitVec 32) : (rowAbove r w).extractLsb' 0 32 = w := BitVec.extractLsb'_append_eq_right

theorem rowAbove_high (r w : BitVec 32) : (rowAbove r w).extractLsb' 32 32 = r := BitVec.extractLsb'_append_eq_left

/-- A field is read back from a wider word. -/
theorem extractLsb'_setWidth {n w : Nat} (h : n ≤ w) (v : BitVec n) : (v.setWidth w).extractLsb' 0 n = v := by
  apply BitVec.eq_of_toNat_eq
  have hv : v.toNat < 2 ^ w := v.isLt.trans_le (Nat.pow_le_pow_right (by decide) h)
  simp [BitVec.extractLsb'_toNat, Nat.mod_eq_of_lt hv, Nat.mod_eq_of_lt v.isLt]

/-- The operands of NOTE_PLAY come back from its data word (R75). -/
theorem notePlay_fields (n : BitVec 6) (k : BitVec 4) :
    (n.setWidth 64 ||| k.setWidth 64 <<< 8).extractLsb' 0 6 = n ∧
      (n.setWidth 64 ||| k.setWidth 64 <<< 8).extractLsb' 8 4 = k := by
  have hn := n.isLt
  have hk := k.isLt
  constructor <;> rw [BitVec.extractLsb'_or] <;> apply BitVec.eq_of_toNat_eq <;>
    simp only [BitVec.toNat_or, BitVec.extractLsb'_toNat, BitVec.toNat_shiftLeft, BitVec.toNat_setWidth,
      Nat.shiftLeft_eq, Nat.shiftRight_eq_div_pow]
  · have hnote : n.toNat % 2 ^ 64 / 2 ^ 0 % 2 ^ 6 = n.toNat := by omega
    have hinst : k.toNat % 2 ^ 64 * 2 ^ 8 % 2 ^ 64 / 2 ^ 0 % 2 ^ 6 = 0 := by omega
    rw [hnote, hinst, Nat.or_zero]
  · have hnote : n.toNat % 2 ^ 64 / 2 ^ 8 % 2 ^ 4 = 0 := by omega
    have hinst : k.toNat % 2 ^ 64 * 2 ^ 8 % 2 ^ 64 / 2 ^ 8 % 2 ^ 4 = k.toNat := by omega
    rw [hnote, hinst, Nat.zero_or]

theorem rowAbove_effect (r : BitVec 32) (e : BitVec 12) : (rowAbove r (e.setWidth 32)).extractLsb' 0 12 = e := by
  rw [rowAbove, BitVec.extractLsb'_append_eq_of_add_le (by decide), extractLsb'_setWidth (by decide)]

theorem noteActions_noteOn {n : BitVec 6} (hn : n ≠ 63) (k : BitVec 4) :
    noteActions (some n) (some k) = [.noteOn n k] := if_neg hn

/-! ## Decoding what was encoded -/

/-- Settles O8: each field reads its own part of the word. -/
theorem cellFieldsComeBackFromTheWord : Obligations.CellFieldsComeBackFromTheWord := decodeCell_encodeCell

/-- Settles O6: a command by its operand word, a bare cell action by its fields, a bare effect by its code's fields. -/
theorem decodeOfEncodeIsTheInstruction : Obligations.DecodeOfEncodeIsTheInstruction := by
  intro i hwf
  cases i with
  | sample | songVolumeSet | instrLoad => rfl
  | tick t =>
    show Except.ok (Instr.tick _) = _
    rw [extractLsb'_setWidth (by decide)]
  | cell c w r =>
    rw [encode, decode_channelOp_toBits channelOp_cell]
    show Except.ok (Instr.cell _ _ _) = _
    rw [rowAbove_low, rowAbove_high]
  | notePlay c n k =>
    rw [encode, decode_channelOp_toBits channelOp_notePlay]
    show Except.ok (Instr.notePlay _ _ _) = _
    rw [(notePlay_fields n k).1, (notePlay_fields n k).2]
  | noteEnd c => exact decode_channelOp_toBits channelOp_noteEnd c 0
  | volumeSet c v => exact decode_channelOp_toBits channelOp_volumeSet c v
  | channelReset c => exact decode_channelOp_toBits channelOp_channelReset c 0
  | effect c e r =>
    rw [encode, decode_channelOp_toBits channelOp_effect]
    show Except.ok (Instr.effect _ _ _) = _
    rw [rowAbove_effect, rowAbove_high]
  | oscNoteSet c n =>
    rw [encode, decode_channelOp_toBits channelOp_oscNoteSet]
    show Except.ok (Instr.oscNoteSet _ _) = _
    rw [extractLsb'_setWidth (by decide)]
  | oscSetFrequency c f =>
    have hkind : Config.waveform c ≠ .noise := by simpa [Instr.wellFormed] using hwf
    rw [encode, decode_channelOp_toBits channelOp_oscSetFrequency, decodeChannelOp_oscSetFrequency, if_neg hkind]
  | oscSetDuty c f =>
    have hkind : Config.waveform c = .square := by simpa [Instr.wellFormed] using hwf
    rw [encode, decode_channelOp_toBits channelOp_oscSetDuty, decodeChannelOp_oscSetDuty, if_pos hkind]
  | reservedCmd op ch => exact (reservedCommandIsRefused op ch 0 State.reset).1
  | cellEmpty c => rw [encode, decode_cellPacket, decodeCellWord, decodeCell_encodeCell]; rfl
  | cellVolume c v => rw [encode, decode_cellPacket, decodeCellWord, decodeCell_encodeCell]; rfl
  | cellNoteStop c => rw [encode, decode_cellPacket, decodeCellWord, decodeCell_encodeCell]; rfl
  | cellEffect c e r => rw [encode, decode_cellPacket, decodeCellWord, decodeCell_encodeCell]; rfl
  | cellNoteOn c n k =>
    have hn : n ≠ 63 := by simpa [Instr.wellFormed] using hwf
    rw [encode, decode_cellPacket, decodeCellWord, decodeCell_encodeCell, cellActions, noteActions_noteOn hn]; rfl
  | fxLoopRepeat c a b =>
    have hb : b ≠ 0 := by simpa [Instr.wellFormed] using hwf
    exact decode_effectPacket hb fun e he => by rw [decodeEffectCode, he]
  | fxArpeggio | fxLoopSet | fxPatternJump | fxRowJump | fxRetrigger | fxDelay | fxSongVolume | fxSongBps
  | fxSongTpb =>
    exact decode_effectPacket trivial fun e he => by rw [decodeEffectCode, he]
  | fxReserved9 | fxReserved10 | fxReserved11 | fxReserved12 | fxReserved13 | fxReserved14 | fxReserved15 =>
    exact decode_effectPacket (show 9 ≤ _ by decide) fun e he => by rw [decodeEffectCode, he]; rfl

/-! ## What the decoder accepts -/

theorem decodeChannelOp_wellFormed {op : BitVec 4} {c : Chan} {d : BitVec 64} {i : Instr}
    (h : decodeChannelOp op c d = .ok i) : i.wellFormed = true := by
  unfold decodeChannelOp at h
  split_ifs at h
  all_goals cases h
  all_goals simp [Instr.wellFormed, *]

theorem decodeCommand_wellFormed {header : BitVec 8} {d : BitVec 64} {i : Instr}
    (h : decodeCommand header d = .ok i) : i.wellFormed = true := by
  unfold decodeCommand at h
  dsimp only at h
  split_ifs at h
  case neg =>
    split at h
    · cases h
    · exact decodeChannelOp_wellFormed h
  all_goals cases h; rfl

theorem mem_noteActions {note : Option (BitVec 6)} {inst : Option (BitVec 4)} {a : CellAction}
    (h : a ∈ noteActions note inst) :
    (note = some 63 ∧ a = .noteStop) ∨ ∃ n k, note = some n ∧ inst = some k ∧ n ≠ 63 ∧ a = .noteOn n k := by
  unfold noteActions at h
  split at h
  next => cases h
  next n =>
    split_ifs at h with hn
    · exact .inl ⟨by rw [hn], List.mem_singleton.mp h⟩
    · cases inst with
      | none => cases h
      | some k => exact .inr ⟨n, k, rfl, rfl, hn, List.mem_singleton.mp h⟩

/-- Each action of a cell comes from a field of its word (R82). -/
theorem mem_cellActions {f : CellFields} {a : CellAction} (h : a ∈ cellActions f) :
    (∃ v, f.vol = some v ∧ a = .volume v) ∨ (f.note = some 63 ∧ a = .noteStop) ∨
      (∃ n k, f.note = some n ∧ f.inst = some k ∧ n ≠ 63 ∧ a = .noteOn n k) ∨
      ∃ e, f.eff = some e ∧ a = .effect e := by
  simp only [cellActions, List.mem_append, Option.mem_toList, Option.map_eq_some_iff] at h
  obtain (⟨v, hv, rfl⟩ | hnote) | ⟨e, he, rfl⟩ := h
  · exact .inl ⟨v, hv, rfl⟩
  · exact .inr ((mem_noteActions hnote).imp_right .inl)
  · exact .inr (.inr (.inr ⟨e, he, rfl⟩))

theorem decodeCellWord_wellFormed (w : BitVec 32) (c : Chan) (r : BitVec 32) :
    (decodeCellWord w c r).wellFormed = true := by
  unfold decodeCellWord
  split
  case h_1 => split <;> rfl
  case h_4 n k hact =>
    have hmem : .noteOn n k ∈ cellActions (decodeCell w) := by rw [hact]; exact List.mem_singleton_self _
    obtain ⟨_, _, h⟩ | ⟨_, h⟩ | ⟨_, _, _, _, hn, h⟩ | ⟨_, _, h⟩ := mem_cellActions hmem <;> cases h
    exact decide_eq_true hn
  all_goals rfl

theorem decodeEffect_encodable (e : BitVec 12) : (decodeEffect e).Encodable := by
  unfold decodeEffect
  generalize e.extractLsb' 8 4 = kind
  dsimp only
  split_ifs with h0 h1 hb
  case neg => exact hb
  case neg => simp only [EffectOp.Encodable]; bv_omega
  all_goals trivial

theorem decodeEffectCode_wellFormed (e : BitVec 12) (c : Chan) (r : BitVec 32) :
    (decodeEffectCode e c r).wellFormed = true := by
  have henc := decodeEffect_encodable e
  unfold decodeEffectCode
  cases hop : decodeEffect e with
  | loopRepeat a b => rw [hop] at henc; exact decide_eq_true henc
  | reserved kind a b => dsimp only; split_ifs <;> rfl
  | arpeggio | loopSet | patternJump | rowJump | retrigger | delay | songVolume | songBps | songTpb => rfl

/-- Settles O7: packet by packet, the decoder's own tests. -/
theorem decodedInstructionsAreWellFormed : Obligations.DecodedInstructionsAreWellFormed := by
  intro p i h
  cases p with
  | command header d => exact decodeCommand_wellFormed h
  | memoryPort table => cases h; rfl
  | cellWord w ch r =>
    rw [decode] at h
    split at h <;> cases h
    exact decodeCellWord_wellFormed _ _ _
  | effectCode e ch r =>
    rw [decode] at h
    split at h <;> cases h
    exact decodeEffectCode_wellFormed _ _ _

/-- Settles O4: the eight decodes, evaluated. -/
theorem specWordsDecode : Obligations.SpecWordsDecode := by
  unfold Obligations.SpecWordsDecode
  decide

end Sys2Proof
end

section
/-!
The state invariant, instruction by instruction (10_state.md R22 to R32, 20_memory.md R50, 41_envelope.md R148): each
answers a next state from a state that meets it, and that state meets it. With it the statements StepKeepsTheInvariant
(O56), NothingStopsTheBlock (O57), ResetMeetsTheInvariant (O2) and StepRunsTheDecodedInstruction (O3).
-/

namespace Sys2Proof.Machine

section
variable {c : Chan} {r : BitVec 32} {s : State}

/-! ## Every instruction answers and keeps the invariant -/

theorem execSample_inv (h : s.Inv) : ∃ t, execSample s = .next t ∧ t.Inv := by
  obtain ⟨v, cs, hmix, hcs⟩ := mixFrom_ok (cfg := Config.hw) h.mem Chan.all .zero s.chans h.chan
  exact ⟨_, by rw [execSample, sampleWith, hmix]; rfl, (h.setChans hcs).driveOut _⟩

theorem execTick_inv (h : s.Inv) (u : BitVec 32) : ∃ t, execTick u s = .next t ∧ t.Inv := by
  obtain ⟨cs, htick, hcs⟩ := tickFrom_ok (cfg := Config.hw) h.mem u Chan.all s.chans h.chan
  exact ⟨_, by rw [execTick, tickWith, htick]; rfl, (h.setChans hcs).quiet⟩

theorem cellApply_inv (h : s.Inv) (l : List CellAction) : ∃ t, cellApply Config.hw c r s l = .next t ∧ t.Inv := by
  obtain ⟨y, hy, hinv⟩ := cellRun_inv c r l (s, .none) h
  exact ⟨_, cellApply_eq_next.mpr ⟨y, hy, rfl⟩, hinv.driveReq _⟩

theorem runEffect_inv (h : s.Inv) (op : EffectOp) : ∃ t, runEffect c r op s = .next t ∧ t.Inv :=
  ⟨_, rfl, (dispatch_inv h _ c r op).driveReq _⟩

theorem execNotePlay_inv (h : s.Inv) (n : BitVec 6) (k : BitVec 4) :
    ∃ t, execNotePlay c n k s = .next t ∧ t.Inv := by
  by_cases hn : n.toNat < 63
  · obtain ⟨ch, hplay, hch⟩ := noteOn_ok (cfg := Config.hw) h.mem ⟨n.toNat, hn⟩ k (h.chan c)
    exact ⟨_, exec_notePlay_of_noteOn hn hplay, (h.setChan hch).quiet⟩
  · exact ⟨_, by rw [execNotePlay, notePlayWith, dif_neg hn]; rfl, h.refuse _⟩

theorem execVolumeSet_inv (h : s.Inv) (v : BitVec 64) : ∃ t, execVolumeSet c v s = .next t ∧ t.Inv := by
  unfold execVolumeSet
  split
  next hv => exact ⟨_, rfl, (h.setChan (Channel.ok_setCvol (h.chan c) hv)).quiet⟩
  next => exact ⟨_, rfl, h.refuse _⟩

theorem execSongVolumeSet_inv (h : s.Inv) (v : BitVec 64) : ∃ t, execSongVolumeSet v s = .next t ∧ t.Inv := by
  unfold execSongVolumeSet
  split
  next hv => exact ⟨_, rfl, (h.setSongVol hv).quiet⟩
  next => exact ⟨_, rfl, h.refuse _⟩

/-- A new oscillator of the same kind with its registers in their ranges. -/
theorem State.Inv.setOsc (h : s.Inv) {o : Osc} (hkind : o.kind = (s.chan c).osc.kind) (ho : o.ok) :
    (s.setChan c { s.chan c with osc := o }).Inv :=
  have hch := h.chan c
  h.setChan ⟨hkind.trans hch.kind, ho, hch.env, hch.cvol, hch.bookmark⟩

theorem oscNoteSetWith_inv (h : s.Inv) (cfg : Config) (n : BitVec 7) : (oscNoteSetWith cfg c n s).Inv := by
  unfold oscNoteSetWith
  split
  next hn => exact (h.setOsc (Osc.kind_noteSet _ _ _) (Osc.noteSet_ok cfg hn (h.chan c).osc)).quiet
  next => exact h.refuse _

theorem execOscSetFrequency_inv (h : s.Inv) (f : BitVec 64) : ∃ t, execOscSetFrequency c f s = .next t ∧ t.Inv := by
  unfold execOscSetFrequency
  split
  next => exact ⟨_, rfl, h.refuse _⟩
  next sh a hosc =>
    have hok : (Osc.phase sh a).ok := hosc ▸ (h.chan c).osc
    split
    next hf =>
      refine ⟨_, rfl, (h.setOsc ?_ (Osc.setFrequency_ok hf hok)).quiet⟩
      rw [hosc]; cases sh <;> rfl
    next => exact ⟨_, rfl, h.refuse _⟩

theorem oscSetDutyWith_inv (h : s.Inv) (cfg : Config) (d : BitVec 64) : (oscSetDutyWith cfg c d s).Inv := by
  unfold oscSetDutyWith
  split
  next duty a hosc =>
    have hok : (Osc.phase (.square duty) a).ok := hosc ▸ (h.chan c).osc
    split
    next hd => exact (h.setOsc (by rw [hosc]; rfl) (Osc.setDuty_ok cfg hok hd)).quiet
    next => exact h.refuse _
  next => exact h.refuse _

theorem State.anyNote_eq_false_iff : s.anyNote = false ↔ ∀ c, (s.chan c).env = none := by
  have hall (c : Chan) : c ∈ Chan.all := by cases c <;> decide
  simp [State.anyNote, hall]

/-- A table is loaded only while no channel has a note, so no note is left with another instrument (R53). -/
theorem instrLoadWith_inv (h : s.Inv) (table : List Instrument) : (instrLoadWith Config.hw table s).Inv := by
  unfold instrLoadWith
  split
  next => exact h.refuse _
  next hnote =>
    have hnone := State.anyNote_eq_false_iff.mp (Bool.eq_false_of_not_eq_true hnote)
    split
    next hwf =>
      refine ⟨hwf, fun c => ?_, h.songVol⟩
      have hch := h.chan c
      exact ⟨hch.kind, hch.osc, fun e he => absurd ((hnone c).symm.trans he) nofun, hch.cvol, hch.bookmark⟩
    next => exact h.refuse _

/-- From a state that meets the invariant every instruction answers a next state, which meets it too. -/
theorem exec_inv (h : s.Inv) (i : Instr) : ∃ t, exec i s = .next t ∧ t.Inv := by
  cases i with
  | sample => exact execSample_inv h
  | tick u => exact execTick_inv h u
  | notePlay c n k => exact execNotePlay_inv h n k
  | noteEnd c => exact ⟨_, rfl, (h.setChan (noteEnd_ok (h.chan c))).quiet⟩
  | channelReset c => exact ⟨_, rfl, (h.setChan (channelReset_ok (h.chan c))).quiet⟩
  | volumeSet c v => exact execVolumeSet_inv h v
  | songVolumeSet v => exact execSongVolumeSet_inv h v
  | oscNoteSet c n => exact ⟨_, rfl, oscNoteSetWith_inv h _ n⟩
  | oscSetFrequency c f => exact execOscSetFrequency_inv h f
  | oscSetDuty c d => exact ⟨_, rfl, oscSetDutyWith_inv h _ d⟩
  | reservedCmd => exact ⟨_, rfl, h.refuse _⟩
  | instrLoad table => exact ⟨_, rfl, instrLoadWith_inv h table⟩
  | cellEmpty => exact ⟨_, rfl, h.driveReq _⟩
  | cell => exact cellApply_inv h _
  | cellVolume => rw [exec_cellVolume]; exact cellApply_inv h _
  | cellNoteStop => rw [exec_cellNoteStop]; exact cellApply_inv h _
  | cellNoteOn => rw [exec_cellNoteOn]; exact cellApply_inv h _
  | cellEffect => rw [exec_cellEffect]; exact cellApply_inv h _
  | effect | fxArpeggio | fxLoopSet | fxLoopRepeat | fxPatternJump | fxRowJump | fxRetrigger | fxDelay
  | fxSongVolume | fxSongBps | fxSongTpb | fxReserved9 | fxReserved10 | fxReserved11 | fxReserved12
  | fxReserved13 | fxReserved14 | fxReserved15 => exact runEffect_inv h _

theorem runDecoded_inv (h : s.Inv) (x : Except RefuseReason Instr) : ∃ t, runDecoded x s = .next t ∧ t.Inv := by
  cases x with
  | error reason => exact ⟨_, rfl, h.refuse reason⟩
  | ok i => exact exec_inv h i

/-- The invariant does not speak of the host's stream (log 1). -/
theorem State.Inv.withInbox (h : s.Inv) (inbox : List Packet) : ({ s with inbox := inbox } : State).Inv :=
  ⟨h.mem, h.chan, h.songVol⟩

theorem step_inv (h : s.Inv) : ∃ t, step s = .next t ∧ t.Inv := by
  unfold step
  split
  next => exact ⟨s, rfl, h⟩
  next p rest _ => exact runDecoded_inv (h.withInbox rest) (decode p)

end

/-! ## The statements -/

/-- Settles O56: the next state is the one that `step_inv` gives. -/
theorem stepKeepsTheInvariant : Obligations.StepKeepsTheInvariant := by
  intro s t h hstep
  obtain ⟨t', hstep', ht'⟩ := step_inv h
  cases hstep.symm.trans hstep'
  exact ht'

/-- Settles O57: each instruction and each delivery answers from a state that meets the invariant. -/
theorem nothingStopsTheBlock : Obligations.NothingStopsTheBlock := fun _ h =>
  ⟨(step_inv h).imp fun _ ht => ht.1, fun i => (exec_inv h i).imp fun _ ht => ht.1⟩

/-- A phase accumulator at power-on has its registers in their ranges (R262). -/
theorem PhaseAcc.reset_ok : PhaseAcc.reset.ok := ⟨by decide, by decide, by decide, rfl⟩

/-- Settles O2: no note and no bookmark at power-on, and the oscillator is looked up channel by channel. -/
theorem resetMeetsTheInvariant : Obligations.ResetMeetsTheInvariant := by
  refine ⟨Memory.wf_reset _, fun c => ?_, by decide⟩
  have hosc : (State.reset.chan c).osc.kind = Config.waveform c ∧ (State.reset.chan c).osc.ok := by
    cases c with
    | c0 | c1 => exact ⟨rfl, PhaseAcc.reset_ok, by decide⟩
    | c2 | c3 => exact ⟨rfl, PhaseAcc.reset_ok⟩
    | c4 => exact ⟨rfl, (by decide : 1 ≤ 1 ∧ Config.lfsrSeed ≠ 0)⟩
  rw [State.chan_reset_eq c]
  exact ⟨hosc.1, hosc.2, nofun, (by decide : Binary64.one.inUnit = true), nofun⟩

/-- Settles O3: the three cases of `step`. -/
theorem stepRunsTheDecodedInstruction : Obligations.StepRunsTheDecodedInstruction := by
  refine ⟨fun s p rest i hs hp => ?_, fun s p rest reason hs hp => ?_, fun s hs => ?_⟩
  · rw [step, hs]; dsimp only; rw [hp]; rfl
  · rw [step, hs]; dsimp only; rw [hp]; rfl
  · rw [step, hs]

end Sys2Proof.Machine
end

section
/-!
Frames (10_state.md R21, R29 to R34): which places of the state each instruction writes, said once (`Instr.Writes`) and
proved once (`exec_writes`). Each statement about the writers of a register reads its own place off that list:
OtherChannelsAreUntouched (O48), OnlyInstrLoadWritesTheMemory (O49), VolumeWriters (O50),
EffectSlotBaseNoteAndBookmarkWriters (O51), EnvelopeWriters (O52) and OscillatorWriters (O53).
-/

namespace Sys2Proof
namespace Machine

/-! ## Places of the state, and which of them a step changed -/

/-- The registers of a channel (10_state.md R20). -/
inductive Field where
  | osc | env | cvol | fx | baseNote | bookmark

/-- What the frame rules speak of: a channel's registers, the song volume, the instrument memory, and the host's stream
(log 1). -/
inductive Place where
  | inbox | mem | songVol
  | chan (c : Chan) (f : Field)

/-- The register holds another value in the second channel. -/
def Field.Changed (ch ch' : Channel) : Field → Prop
  | .osc => ch'.osc ≠ ch.osc
  | .env => ch'.env ≠ ch.env
  | .cvol => ch'.cvol ≠ ch.cvol
  | .fx => ch'.fx ≠ ch.fx
  | .baseNote => ch'.baseNote ≠ ch.baseNote
  | .bookmark => ch'.bookmark ≠ ch.bookmark

/-- The place holds another value in the second state. -/
def Place.Changed (s t : State) : Place → Prop
  | .inbox => t.inbox ≠ s.inbox
  | .mem => t.mem ≠ s.mem
  | .songVol => t.songVol ≠ s.songVol
  | .chan c f => f.Changed (s.chan c) (t.chan c)

section
variable {cfg : Config} {m : Memory} {ch ch' ch'' : Channel} {f : Field} {s t u : State} {p : Place} {c d : Chan}
  {r : BitVec 32}

theorem Field.not_changed_self : ¬f.Changed ch ch := by
  cases f <;> exact fun h => h rfl

theorem Field.Changed.trans (h : f.Changed ch ch'') : f.Changed ch ch' ∨ f.Changed ch' ch'' := by
  by_contra hno
  rw [not_or] at hno
  cases f <;> exact h ((not_not.mp hno.2).trans (not_not.mp hno.1))

theorem Place.not_changed_self : ¬p.Changed s s := by
  cases p with
  | chan c f => exact Field.not_changed_self
  | inbox | mem | songVol => exact fun h => h rfl

theorem Place.Changed.trans (h : p.Changed s u) : p.Changed s t ∨ p.Changed t u := by
  cases p with
  | chan c f => exact Field.Changed.trans h
  | inbox | mem | songVol =>
    by_contra hno
    rw [not_or] at hno
    exact h ((not_not.mp hno.2).trans (not_not.mp hno.1))

/-- Driving the ports changes none of the places. -/
theorem Place.changed_quiet : p.Changed s t.quiet ↔ p.Changed s t := by cases p <;> rfl

theorem Place.changed_driveReq (q : Request) : p.Changed s (t.driveReq q) ↔ p.Changed s t := by cases p <;> rfl

theorem Place.changed_refuse (reason : RefuseReason) : p.Changed s (t.refuse reason) ↔ p.Changed s t := by
  cases p <;> rfl

theorem Place.not_changed_refuse (reason : RefuseReason) : ¬p.Changed s (s.refuse reason) := by
  rw [Place.changed_refuse]
  exact Place.not_changed_self

theorem Field.Changed.of_set {cs : Channels} {x : Channel} (h : f.Changed (cs.get d) ((cs.set c x).get d)) :
    d = c ∧ f.Changed (cs.get c) x := by
  rw [Channels.get_set] at h
  split at h
  next hd => subst hd; exact ⟨rfl, h⟩
  next => exact absurd h Field.not_changed_self

/-- Replacing a channel changes the registers that differ, on that channel only. -/
theorem Place.Changed.of_setChan {x : Channel} (h : p.Changed s (s.setChan c x)) :
    ∃ f, p = .chan c f ∧ f.Changed (s.chan c) x := by
  cases p with
  | inbox | mem | songVol => exact absurd rfl h
  | chan d f =>
    obtain ⟨rfl, hf⟩ := Field.Changed.of_set h
    exact ⟨f, rfl, hf⟩

end

/-! ## The writers -/

/-- The registers that a note-on writes (R174). -/
inductive Field.OfNoteOn : Field → Prop
  | osc : Field.OfNoteOn .osc
  | env : Field.OfNoteOn .env
  | fx : Field.OfNoteOn .fx
  | baseNote : Field.OfNoteOn .baseNote

/-- The registers that CHANNEL_RESET writes (R171). -/
inductive Field.OfReset : Field → Prop
  | env : Field.OfReset .env
  | cvol : Field.OfReset .cvol
  | bookmark : Field.OfReset .bookmark

/-- The registers that SAMPLE and TICK write (R183, R187). -/
inductive Field.OfClock : Field → Prop
  | osc : Field.OfClock .osc
  | env : Field.OfClock .env

end Machine

open Machine

/-- The places that a dispatched effect on channel c writes (R206 to R217). -/
inductive EffectOp.Writes (c : Chan) : EffectOp → Place → Prop
  | osc (op) : EffectOp.Writes c op (.chan c .osc)
  | fx (op) : EffectOp.Writes c op (.chan c .fx)
  | loopSet (a) : EffectOp.Writes c (.loopSet a) (.chan c .bookmark)
  | loopRepeat (a b) : EffectOp.Writes c (.loopRepeat a b) (.chan c .bookmark)
  | songVolume (v) : EffectOp.Writes c (.songVolume v) .songVol

/-- The places that an action of a cell on channel c writes (R202 to R206). -/
inductive CellAction.Writes (c : Chan) : CellAction → Place → Prop
  | volume (v) : CellAction.Writes c (.volume v) (.chan c .cvol)
  | noteStop : CellAction.Writes c .noteStop (.chan c .env)
  | noteOn (n k) {f} (hf : Field.OfNoteOn f) : CellAction.Writes c (.noteOn n k) (.chan c f)
  | effect (e) {p} (h : (decodeEffect e).Writes c p) : CellAction.Writes c (.effect e) p

/-- The places that an instruction writes. -/
inductive Instr.Writes : Instr → Place → Prop
  | sample (c) {f} (hf : Field.OfClock f) : Instr.Writes .sample (.chan c f)
  | tick (u c) {f} (hf : Field.OfClock f) : Instr.Writes (.tick u) (.chan c f)
  | notePlay (c n k) {f} (hf : Field.OfNoteOn f) : Instr.Writes (.notePlay c n k) (.chan c f)
  | noteEnd (c) : Instr.Writes (.noteEnd c) (.chan c .env)
  | volumeSet (c v) : Instr.Writes (.volumeSet c v) (.chan c .cvol)
  | channelReset (c) {f} (hf : Field.OfReset f) : Instr.Writes (.channelReset c) (.chan c f)
  | songVolumeSet (v) : Instr.Writes (.songVolumeSet v) .songVol
  | oscNoteSet (c n) : Instr.Writes (.oscNoteSet c n) (.chan c .osc)
  | oscSetFrequency (c x) : Instr.Writes (.oscSetFrequency c x) (.chan c .osc)
  | oscSetDuty (c x) : Instr.Writes (.oscSetDuty c x) (.chan c .osc)
  | instrLoad (table) : Instr.Writes (.instrLoad table) .mem
  | cellVolume (c v) : Instr.Writes (.cellVolume c v) (.chan c .cvol)
  | cellNoteStop (c) : Instr.Writes (.cellNoteStop c) (.chan c .env)
  | cellNoteOn (c n k) {f} (hf : Field.OfNoteOn f) : Instr.Writes (.cellNoteOn c n k) (.chan c f)
  | cellWithVolume (c w r) (hvol : (decodeCell w).vol ≠ none) : Instr.Writes (.cell c w r) (.chan c .cvol)
  | cellWithNote (c w r) (hnote : (decodeCell w).note ≠ none) : Instr.Writes (.cell c w r) (.chan c .env)
  | cellPlaying (c w r) {f} (hnote : (decodeCell w).note ≠ none) (hinst : (decodeCell w).inst ≠ none)
      (hf : Field.OfNoteOn f) : Instr.Writes (.cell c w r) (.chan c f)
  | effect {i c op p} (hi : i.effectOn c = some op) (h : op.Writes c p) : Instr.Writes i p

namespace Machine

section
variable {cfg : Config} {m : Memory} {ch ch' ch'' : Channel} {f : Field} {s t u : State} {p : Place} {c d : Chan}
  {r : BitVec 32}

/-! ## What each channel operation writes -/

theorem noteOn_changed {n : Fin 63} {k : BitVec 4} (h : noteOn cfg m n k ch = .ok ch') (hf : f.Changed ch ch') :
    f.OfNoteOn := by
  rcases noteOn_eq_ok h with rfl | ⟨e, -, rfl⟩
  · exact absurd hf Field.not_changed_self
  · cases f with
    | cvol | bookmark => exact absurd rfl hf
    | osc => exact .osc
    | env => exact .env
    | fx => exact .fx
    | baseNote => exact .baseNote

theorem noteEnd_changed (hf : f.Changed ch (noteEnd ch)) : f = .env := by
  cases he : ch.env with
  | none => rw [noteEnd_none he] at hf; exact absurd hf Field.not_changed_self
  | some e =>
    rw [noteEnd_some he] at hf
    cases f with
    | env => rfl
    | osc | cvol | fx | baseNote | bookmark => exact absurd rfl hf

theorem channelReset_changed (hf : f.Changed ch (channelReset ch)) : f.OfReset := by
  cases f with
  | osc | fx | baseNote => exact absurd rfl hf
  | env => exact .env
  | cvol => exact .cvol
  | bookmark => exact .bookmark

theorem withOsc_changed {o : Osc} (hf : f.Changed ch { ch with osc := o }) : f = .osc := by
  cases f with
  | osc => rfl
  | env | cvol | fx | baseNote | bookmark => exact absurd rfl hf

theorem withEnv_changed {env : Option EnvelopeNote} (hf : f.Changed ch { ch with env := env }) : f = .env := by
  cases f with
  | env => rfl
  | osc | cvol | fx | baseNote | bookmark => exact absurd rfl hf

theorem withCvol_changed {v : Binary64} (hf : f.Changed ch { ch with cvol := v }) : f = .cvol := by
  cases f with
  | cvol => rfl
  | osc | env | fx | baseNote | bookmark => exact absurd rfl hf

theorem withFx_changed {fx : FxSlot} (hf : f.Changed ch { ch with fx := fx }) : f = .fx := by
  cases f with
  | fx => rfl
  | osc | env | cvol | baseNote | bookmark => exact absurd rfl hf

theorem withBookmark_changed {b : Option Bookmark} (hf : f.Changed ch { ch with bookmark := b }) : f = .bookmark := by
  cases f with
  | bookmark => rfl
  | osc | env | cvol | fx | baseNote => exact absurd rfl hf

theorem onEnv_changed {g : EnvelopeNote → Except Fault EnvelopeNote} (h : onEnv g ch = .ok ch')
    (hf : f.Changed ch ch') : f = .env := by
  obtain ⟨env, rfl⟩ := onEnv_eq_ok h
  exact withEnv_changed hf

theorem fxStep_changed {n : BitVec 32} (h : fxStep cfg m n ch = .ok ch') (hf : f.Changed ch ch') : f.OfClock := by
  rcases fxStep_eq_ok h with ⟨_, rfl⟩ | ⟨_, rfl⟩
  · rw [withOsc_changed hf]; exact .osc
  · rw [withEnv_changed hf]; exact .env

theorem chTick_changed {n : BitVec 32} (h : chTick cfg m n ch = .ok ch') (hf : f.Changed ch ch') : f.OfClock := by
  obtain ⟨ch₁, h₁, h₂⟩ := except_bind_ok.mp h
  rcases hf.trans with hf | hf
  · rw [onEnv_changed h₁ hf]; exact .env
  · exact fxStep_changed h₂ hf

theorem chSample_changed {v : Binary64} (h : chSample cfg m ch = .ok (v, ch')) (hf : f.Changed ch ch') :
    f.OfClock := by
  cases he : ch.env with
  | none =>
    rw [chSample_none he] at h
    cases h; exact absurd hf Field.not_changed_self
  | some e =>
    unfold chSample at h
    rw [he] at h
    obtain ⟨r, -, hr⟩ := except_bind_ok.mp h
    cases hr
    cases f with
    | osc => exact .osc
    | env => exact .env
    | cvol | fx | baseNote | bookmark => exact absurd rfl hf

theorem fxTeardown_changed (hf : f.Changed ch (fxTeardown cfg ch)) : f = .osc ∨ f = .fx := by
  obtain ⟨o, h⟩ := fxTeardown_eq cfg ch
  rw [h] at hf
  cases f with
  | osc => exact .inl rfl
  | fx => exact .inr rfl
  | env | cvol | baseNote | bookmark => exact absurd rfl hf

theorem loopSet_changed (hf : f.Changed ch (loopSet r ch)) : f = .bookmark := by
  unfold loopSet at hf
  split at hf <;> exact withBookmark_changed hf

theorem loopRepeat_changed {b : BitVec 4} (hf : f.Changed ch (loopRepeat b ch).1) : f = .bookmark := by
  unfold loopRepeat at hf
  dsimp only at hf
  split at hf <;> exact withBookmark_changed hf

/-! ## What the parts of a step write -/

theorem effectAct_writes {op : EffectOp} (h : p.Changed s (effectAct s c r op).1) : op.Writes c p := by
  cases op with
  | arpeggio | retrigger | delay =>
    obtain ⟨f, rfl, hf⟩ := h.of_setChan
    rw [withFx_changed hf]; exact .fx _
  | loopSet a =>
    obtain ⟨f, rfl, hf⟩ := h.of_setChan
    rw [loopSet_changed hf]; exact .loopSet a
  | loopRepeat a b =>
    obtain ⟨f, rfl, hf⟩ := h.of_setChan
    rw [loopRepeat_changed hf]; exact .loopRepeat a b
  | songVolume v =>
    cases p with
    | songVol => exact .songVolume v
    | inbox | mem => exact absurd rfl h
    | chan d f => exact absurd h Field.not_changed_self
  | patternJump | rowJump | songBps | songTpb | reserved => exact absurd h Place.not_changed_self

theorem dispatch_writes {op : EffectOp} (h : p.Changed s (dispatch cfg s c r op).1) : op.Writes c p := by
  rcases h.trans (t := s.setChan c (fxTeardown cfg (s.chan c))) with h | h
  · obtain ⟨f, rfl, hf⟩ := h.of_setChan
    rcases fxTeardown_changed hf with rfl | rfl
    · exact .osc op
    · exact .fx op
  · exact effectAct_writes h

theorem runEffect_writes {op : EffectOp} (h : runEffect c r op s = .next t) (hp : p.Changed s t) : op.Writes c p := by
  cases h
  exact dispatch_writes ((Place.changed_driveReq _).mp hp)

theorem cellAct_writes {a : CellAction} {y : State × Request} (h : cellAct cfg c r s a = .ok y)
    (hp : p.Changed s y.1) : a.Writes c p := by
  cases a with
  | volume v =>
    cases h
    obtain ⟨f, rfl, hf⟩ := hp.of_setChan
    rw [withCvol_changed hf]; exact .volume v
  | noteStop =>
    cases h
    obtain ⟨f, rfl, hf⟩ := hp.of_setChan
    rw [noteEnd_changed hf]; exact .noteStop
  | noteOn n k =>
    by_cases hn : n.toNat < 63
    · rw [cellAct, dif_pos hn] at h
      obtain ⟨ch, hch, hy⟩ := except_bind_ok.mp h
      cases hy
      obtain ⟨f, rfl, hf⟩ := hp.of_setChan
      exact .noteOn n k (noteOn_changed hch hf)
    · rw [cellAct, dif_neg hn] at h
      cases h; exact absurd hp Place.not_changed_self
  | effect e => cases h; exact .effect e (dispatch_writes hp)

theorem cellRun_writes {l : List CellAction} {x y : State × Request} (h : cellRun cfg c r x l = .ok y)
    (hp : p.Changed x.1 y.1) : ∃ a ∈ l, a.Writes c p := by
  induction l generalizing x with
  | nil => cases h; exact absurd hp Place.not_changed_self
  | cons a rest ih =>
    obtain ⟨z, hz, hrest⟩ := except_bind_ok.mp h
    rcases hp.trans with hp | hp
    · exact ⟨a, List.mem_cons_self, cellAct_writes hz hp⟩
    · obtain ⟨b, hb, hw⟩ := ih hrest hp
      exact ⟨b, List.mem_cons_of_mem a hb, hw⟩

theorem cellApply_writes {l : List CellAction} (h : cellApply cfg c r s l = .next t) (hp : p.Changed s t) :
    ∃ a ∈ l, a.Writes c p := by
  obtain ⟨y, hy, rfl⟩ := cellApply_eq_next.mp h
  exact cellRun_writes hy ((Place.changed_driveReq _).mp hp)

theorem cellApply_singleton_writes {a : CellAction} (h : cellApply cfg c r s [a] = .next t) (hp : p.Changed s t) :
    a.Writes c p := by
  obtain ⟨b, hb, hw⟩ := cellApply_writes h hp
  exact List.mem_singleton.mp hb ▸ hw

theorem mixFrom_changed {l : List Chan} {sum : Binary64} {cs : Channels} {x : Binary64 × Channels}
    (h : mixFrom cfg m l sum cs = .ok x) (hf : f.Changed (cs.get d) (x.2.get d)) : f.OfClock := by
  induction l generalizing sum cs with
  | nil => cases h; exact absurd hf Field.not_changed_self
  | cons c rest ih =>
    obtain ⟨y, hy, hrest⟩ := except_bind_ok.mp h
    rcases hf.trans (ch' := (cs.set c y.2).get d) with hf | hf
    · exact chSample_changed hy hf.of_set.2
    · exact ih hrest hf

theorem tickFrom_changed {n : BitVec 32} {l : List Chan} {cs cs' : Channels}
    (h : tickFrom cfg m n l cs = .ok cs') (hf : f.Changed (cs.get d) (cs'.get d)) : f.OfClock := by
  induction l generalizing cs with
  | nil => cases h; exact absurd hf Field.not_changed_self
  | cons c rest ih =>
    obtain ⟨y, hy, hrest⟩ := except_bind_ok.mp h
    rcases hf.trans (ch' := (cs.set c y).get d) with hf | hf
    · exact chTick_changed hy hf.of_set.2
    · exact ih hrest hf

/-! ## What each instruction writes -/

theorem execNotePlay_writes {n : BitVec 6} {k : BitVec 4} (h : execNotePlay c n k s = .next t)
    (hp : p.Changed s t) : (Instr.notePlay c n k).Writes p := by
  have h := finish_eq_next.mp h
  unfold notePlayWith at h
  split at h
  · obtain ⟨ch, hch, ht⟩ := except_bind_ok.mp h
    cases ht
    obtain ⟨f, rfl, hf⟩ := (Place.changed_quiet.mp hp).of_setChan
    exact .notePlay c n k (noteOn_changed hch hf)
  · cases h; exact absurd hp (Place.not_changed_refuse _)

theorem execVolumeSet_writes {v : BitVec 64} (h : execVolumeSet c v s = .next t) (hp : p.Changed s t) :
    (Instr.volumeSet c v).Writes p := by
  unfold execVolumeSet at h
  split at h <;> cases h
  · obtain ⟨f, rfl, hf⟩ := (Place.changed_quiet.mp hp).of_setChan
    rw [withCvol_changed hf]; exact .volumeSet c v
  · exact absurd hp (Place.not_changed_refuse _)

theorem execSongVolumeSet_writes {v : BitVec 64} (h : execSongVolumeSet v s = .next t) (hp : p.Changed s t) :
    (Instr.songVolumeSet v).Writes p := by
  unfold execSongVolumeSet at h
  split at h <;> cases h
  · cases p with
    | songVol => exact .songVolumeSet v
    | inbox | mem => exact absurd rfl hp
    | chan d f => exact absurd hp Field.not_changed_self
  · exact absurd hp (Place.not_changed_refuse _)

theorem changed_setOsc {o : Osc} (hp : p.Changed s (s.setChan c { s.chan c with osc := o }).quiet) :
    p = .chan c .osc := by
  obtain ⟨f, rfl, hf⟩ := (Place.changed_quiet.mp hp).of_setChan
  rw [withOsc_changed hf]

theorem oscNoteSetWith_writes {n : BitVec 7} (hp : p.Changed s (oscNoteSetWith cfg c n s)) : p = .chan c .osc := by
  unfold oscNoteSetWith at hp
  split at hp
  · exact changed_setOsc hp
  · exact absurd hp (Place.not_changed_refuse _)

theorem execOscSetFrequency_writes {x : BitVec 64} (h : execOscSetFrequency c x s = .next t) (hp : p.Changed s t) :
    p = .chan c .osc := by
  unfold execOscSetFrequency at h
  split at h
  · cases h; exact absurd hp (Place.not_changed_refuse _)
  · split at h <;> cases h
    · exact changed_setOsc hp
    · exact absurd hp (Place.not_changed_refuse _)

theorem oscSetDutyWith_writes {x : BitVec 64} (hp : p.Changed s (oscSetDutyWith cfg c x s)) : p = .chan c .osc := by
  unfold oscSetDutyWith at hp
  split at hp
  · split at hp
    · exact changed_setOsc hp
    · exact absurd hp (Place.not_changed_refuse _)
  · exact absurd hp (Place.not_changed_refuse _)

theorem instrLoadWith_writes {table : List Instrument} (hp : p.Changed s (instrLoadWith cfg table s)) : p = .mem := by
  unfold instrLoadWith at hp
  split at hp
  · exact absurd hp (Place.not_changed_refuse _)
  · split at hp
    · cases p with
      | mem => rfl
      | inbox | songVol => exact absurd rfl hp
      | chan d f => exact absurd hp Field.not_changed_self
    · exact absurd hp (Place.not_changed_refuse _)

/-- A cell writes what the fields of its word select (R202). -/
theorem execCell_writes {w : BitVec 32} (h : execCell c w r s = .next t) (hp : p.Changed s t) :
    (Instr.cell c w r).Writes p := by
  obtain ⟨a, ha, hw⟩ := cellApply_writes h hp
  obtain ⟨v, hvol, rfl⟩ | ⟨hnote, rfl⟩ | ⟨n, k, hnote, hinst, -, rfl⟩ | ⟨e, heff, rfl⟩ := mem_cellActions ha <;>
    cases hw
  case volume => exact .cellWithVolume c w r (by rw [hvol]; exact nofun)
  case noteStop => exact .cellWithNote c w r (by rw [hnote]; exact nofun)
  case noteOn hf => exact .cellPlaying c w r (by rw [hnote]; exact nofun) (by rw [hinst]; exact nofun) hf
  case effect he =>
    have hon : (Instr.cell c w r).effectOn c = some (decodeEffect e) := by simp [Instr.effectOn, heff]
    exact .effect hon he

/-- Every change that an instruction makes is one of those listed in `Instr.Writes` (R21). -/
theorem exec_writes {i : Instr} (h : exec i s = .next t) (hp : p.Changed s t) : i.Writes p := by
  cases i with
  | sample =>
    obtain ⟨x, hx, ht⟩ := except_bind_ok.mp (finish_eq_next.mp h)
    cases ht
    cases p with
    | chan c f => exact .sample c (mixFrom_changed hx hp)
    | inbox | mem | songVol => exact absurd rfl hp
  | tick n =>
    obtain ⟨cs, hcs, ht⟩ := except_bind_ok.mp (finish_eq_next.mp h)
    cases ht
    cases p with
    | chan c f => exact .tick n c (tickFrom_changed hcs hp)
    | inbox | mem | songVol => exact absurd rfl hp
  | notePlay c n k => exact execNotePlay_writes h hp
  | noteEnd c =>
    cases h
    obtain ⟨f, rfl, hf⟩ := (Place.changed_quiet.mp hp).of_setChan
    rw [noteEnd_changed hf]; exact .noteEnd c
  | volumeSet c v => exact execVolumeSet_writes h hp
  | channelReset c =>
    cases h
    obtain ⟨f, rfl, hf⟩ := (Place.changed_quiet.mp hp).of_setChan
    exact .channelReset c (channelReset_changed hf)
  | songVolumeSet v => exact execSongVolumeSet_writes h hp
  | oscNoteSet c n => cases h; rw [oscNoteSetWith_writes hp]; exact .oscNoteSet c n
  | oscSetFrequency c x => rw [execOscSetFrequency_writes h hp]; exact .oscSetFrequency c x
  | oscSetDuty c x => cases h; rw [oscSetDutyWith_writes hp]; exact .oscSetDuty c x
  | reservedCmd => cases h; exact absurd hp (Place.not_changed_refuse _)
  | instrLoad table => cases h; rw [instrLoadWith_writes hp]; exact .instrLoad table
  | cellEmpty c => cases h; exact absurd ((Place.changed_driveReq _).mp hp) Place.not_changed_self
  | cell c w r => exact execCell_writes h hp
  | cellVolume c v =>
    rw [exec_cellVolume] at h
    cases cellApply_singleton_writes h hp; exact .cellVolume c v
  | cellNoteStop c =>
    rw [exec_cellNoteStop] at h
    cases cellApply_singleton_writes h hp; exact .cellNoteStop c
  | cellNoteOn c n k =>
    rw [exec_cellNoteOn] at h
    cases cellApply_singleton_writes h hp with
    | noteOn _ _ hf => exact .cellNoteOn c n k hf
  | cellEffect c e r =>
    rw [exec_cellEffect] at h
    cases cellApply_singleton_writes h hp with
    | effect _ he => exact .effect (if_pos rfl) he
  | effect | fxArpeggio | fxLoopSet | fxLoopRepeat | fxPatternJump | fxRowJump | fxRetrigger | fxDelay
  | fxSongVolume | fxSongBps | fxSongTpb | fxReserved9 | fxReserved10 | fxReserved11 | fxReserved12
  | fxReserved13 | fxReserved14 | fxReserved15 => exact .effect (if_pos rfl) (runEffect_writes h hp)

/-- An effect is dispatched on the channel that its instruction names. -/
theorem channel_of_effectOn {i : Instr} {op : EffectOp} (h : i.effectOn c = some op) : i.channel = some c := by
  cases i <;> simp_all [Instr.effectOn, Instr.channel]

/-- Of a channel's registers an instruction writes only those of the channel it names, but for SAMPLE and TICK. -/
theorem channel_of_writes {i : Instr} (h : i.Writes (.chan c f)) :
    i.channel = some c ∨ i = .sample ∨ ∃ n, i = .tick n := by
  cases h with
  | sample => exact .inr (.inl rfl)
  | tick n => exact .inr (.inr ⟨n, rfl⟩)
  | effect hi h => cases h <;> exact .inl (channel_of_effectOn hi)
  | notePlay | noteEnd | volumeSet | channelReset | oscNoteSet | oscSetFrequency | oscSetDuty | cellVolume
  | cellNoteStop | cellNoteOn | cellWithVolume | cellWithNote | cellPlaying => exact .inl rfl

theorem Channel.eq_of_unchanged (h : ∀ f : Field, ¬f.Changed ch ch') : ch' = ch := by
  cases ch; cases ch'
  simp only [Channel.mk.injEq]
  exact ⟨not_not.mp (h .osc), not_not.mp (h .env), not_not.mp (h .cvol), not_not.mp (h .fx),
    not_not.mp (h .bookmark), not_not.mp (h .baseNote)⟩

end

/-! ## The statements -/

/-- Settles O48: no register of a channel that is not named is written. -/
theorem otherChannelsAreUntouched : Obligations.OtherChannelsAreUntouched := by
  intro i c d s t hi h hdc
  refine Channel.eq_of_unchanged fun f hf => ?_
  rcases channel_of_writes (exec_writes (p := .chan d f) h hf) with hd | rfl | ⟨n, rfl⟩
  · exact hdc (Option.some.inj (hd.symm.trans hi))
  · cases hi
  · cases hi

/-- A table of more than 16 records is not canonical. -/
theorem instrLoad_of_long {table : List Instrument} (h : 16 < table.length) (s : State) :
    ∃ reason, exec (.instrLoad table) s = .next (s.refuse reason) := by
  have hwf : Memory.wf Config.hw table ≠ true := fun hwf => absurd (Memory.wf_iff.mp hwf).1 (not_le.mpr h)
  show ∃ reason, Host.Outcome.next (instrLoadWith Config.hw table s) = _
  rw [instrLoadWith, if_neg hwf]
  split
  · exact ⟨_, rfl⟩
  · exact ⟨_, rfl⟩

/-- Settles O49: nothing writes the stream, INSTR_LOAD alone the memory, and a channel's writers name it. -/
theorem onlyInstrLoadWritesTheMemory : Obligations.OnlyInstrLoadWritesTheMemory := by
  intro i s t h
  refine ⟨?_, fun hi => ?_, ?_, fun hi hsample htick => ?_⟩
  · by_contra hne
    cases exec_writes (p := .inbox) h hne with
    | effect _ hw => cases hw
  · by_contra hne
    cases exec_writes (p := .mem) h hne with
    | instrLoad table => exact hi table rfl
    | effect _ hw => cases hw
  · rintro table rfl hlong
    obtain ⟨reason, ht⟩ := instrLoad_of_long hlong s
    cases h.symm.trans ht
    exact ⟨rfl, rfl⟩
  · refine Channels.ext_get fun c => Channel.eq_of_unchanged fun f hf => ?_
    rcases channel_of_writes (exec_writes (p := .chan c f) h hf) with hc | rfl | ⟨n, rfl⟩
    · cases hi.symm.trans hc
    · exact hsample rfl
    · exact htick n rfl

/-- Settles O50: the writers of the two volumes in `Instr.Writes`. -/
theorem volumeWriters : Obligations.VolumeWriters := by
  intro i s t h
  refine ⟨fun hne => ?_, fun c hne => ?_⟩
  · cases exec_writes (p := .songVol) h hne with
    | songVolumeSet v => simp
    | effect hi hw => cases hw; exact .inr ⟨_, _, hi⟩
  · cases exec_writes (p := .chan c .cvol) h hne with
    | volumeSet | channelReset | cellVolume => simp
    | cellWithVolume _ w r hvol => simp [hvol]
    | effect _ hw => cases hw
    | sample _ hf | tick _ _ hf | notePlay _ _ _ hf | cellNoteOn _ _ _ hf | cellPlaying _ _ _ _ _ hf => cases hf

/-- Settles O51: the writers of the three registers in `Instr.Writes`. -/
theorem effectSlotBaseNoteAndBookmarkWriters : Obligations.EffectSlotBaseNoteAndBookmarkWriters := by
  intro i c s t h
  refine ⟨fun hne => ?_, fun hne => ?_, fun hne => ?_⟩
  · cases exec_writes (p := .chan c .fx) h hne with
    | notePlay | cellNoteOn => simp
    | cellPlaying _ w r hnote hinst => simp [hnote, hinst]
    | effect hi hw => cases hw; simp [hi]
    | sample _ hf | tick _ _ hf | channelReset _ hf => cases hf
  · cases exec_writes (p := .chan c .baseNote) h hne with
    | notePlay | cellNoteOn => simp
    | cellPlaying _ w r hnote hinst => simp [hnote, hinst]
    | effect _ hw => cases hw
    | sample _ hf | tick _ _ hf | channelReset _ hf => cases hf
  · cases exec_writes (p := .chan c .bookmark) h hne with
    | channelReset => simp
    | effect hi hw => cases hw <;> simp [hi]
    | sample _ hf | tick _ _ hf | notePlay _ _ _ hf | cellNoteOn _ _ _ hf | cellPlaying _ _ _ _ _ hf => cases hf

/-- Settles O52: the writers of `env` in `Instr.Writes`, which holds no effect. -/
theorem envelopeWriters : Obligations.EnvelopeWriters := by
  intro i c s t h hne
  cases exec_writes (p := .chan c .env) h hne with
  | effect _ hw => cases hw
  | cellWithNote _ w r hnote | cellPlaying _ w r hnote => simp [hnote]
  | sample | tick | notePlay | noteEnd | channelReset | cellNoteStop | cellNoteOn => simp

/-- Settles O53: the writers of `osc` in `Instr.Writes`. -/
theorem oscillatorWriters : Obligations.OscillatorWriters := by
  intro i c s t h hne
  cases exec_writes (p := .chan c .osc) h hne with
  | channelReset _ hf => cases hf
  | effect hi hw => cases hw; simp [hi]
  | cellPlaying _ w r hnote hinst => simp [hnote, hinst]
  | sample | tick | notePlay | cellNoteOn | oscNoteSet | oscSetFrequency | oscSetDuty => simp

end Machine
end Sys2Proof
end

section
/-!
The field `start` (10_state.md R29): every operation answers alike on data that differ in it only (`Blind`), from the
EnvelopeNote up to the instructions. With it the statement StartIsNeverObserved (O58).
-/

namespace Sys2Proof.Machine

/-! ## Operations that do not observe what a projection wipes -/

/-- An operation that answers alike, up to what the second projection wipes, on data that differ only in what the first
one wipes. -/
def Blind {α β : Type} (p : α → α) (q : β → β) (f : α → Except Fault β) : Prop :=
  ∀ x y, p x = p y → (f x).map q = (f y).map q

section
variable {α β γ : Type} {p : α → α} {q : β → β} {w : γ → γ} {f : α → Except Fault β}

/-- Two computations that agree up to a projection end in the same fault, or both answer and their answers agree. -/
theorem map_eq_map_cases {x y : Except Fault β} (h : x.map q = y.map q) :
    (∃ e, x = .error e ∧ y = .error e) ∨ ∃ a b, x = .ok a ∧ y = .ok b ∧ q a = q b := by
  cases x <;> cases y <;> simp_all [Except.map]

/-- Computations that agree, continued alike on answers that agree. -/
theorem bind_map_eq {x y : Except Fault β} {g h : β → Except Fault γ} (hxy : x.map q = y.map q)
    (hgh : ∀ a b, q a = q b → (g a).map w = (h b).map w) : (x >>= g).map w = (y >>= h).map w := by
  obtain ⟨e, rfl, rfl⟩ | ⟨a, b, rfl, rfl, hab⟩ := map_eq_map_cases hxy
  · rfl
  · exact hgh a b hab

theorem bind_map_congr {x : Except Fault β} {g h : β → Except Fault γ} (hgh : ∀ a, (g a).map w = (h a).map w) :
    (x >>= g).map w = (x >>= h).map w :=
  bind_map_eq (q := id) rfl fun a _ hab => (id hab : a = _) ▸ hgh a

/-- It is enough to compare a datum with its wiped form. -/
theorem Blind.of_wiped (h : ∀ x, (f (p x)).map q = (f x).map q) : Blind p q f := fun x y hxy => by
  rw [← h x, hxy, h y]

end

/-! ## The EnvelopeNote without `start` -/

/-- An EnvelopeNote with its `start` wiped. -/
def EnvelopeNote.forgetStart (e : EnvelopeNote) : EnvelopeNote := { e with start := .zero }

section
variable {cfg : Config} {m : Memory} {ins : Instrument}

theorem envTransition_blind : Blind EnvelopeNote.forgetStart EnvelopeNote.forgetStart (envTransition ins) := by
  refine .of_wiped fun e => ?_
  have hidx : nextIdx ins e.forgetStart = nextIdx ins e := rfl
  unfold envTransition
  dsimp only
  rw [hidx]
  split
  · rfl
  · exact bind_map_congr fun goal => bind_map_congr fun dur => rfl

theorem envCountdown_blind : Blind EnvelopeNote.forgetStart EnvelopeNote.forgetStart (envCountdown m) := by
  refine .of_wiped fun e => bind_map_congr fun ins => ?_
  have hpast : pastEnd ins e.forgetStart = pastEnd ins e := rfl
  have hheld : holding ins e.forgetStart = holding ins e := rfl
  rw [hpast, hheld]
  split
  · rfl
  · dsimp only
    have hdur : e.forgetStart.dur = e.dur := rfl
    rw [hdur]
    split
    · exact envTransition_blind _ _ rfl
    · rfl

theorem countdownOn_blind (clock : CountClock) :
    Blind EnvelopeNote.forgetStart EnvelopeNote.forgetStart (countdownOn cfg clock m) := by
  unfold countdownOn
  split
  · exact envCountdown_blind
  · exact .of_wiped fun e => rfl

/-- The value of a sample and the note after it, its `start` wiped. -/
theorem envOutput_blind : Blind EnvelopeNote.forgetStart (Prod.map id EnvelopeNote.forgetStart) (envOutput m) := by
  refine .of_wiped fun e => bind_map_congr fun ins => ?_
  have hpast : pastEnd ins e.forgetStart = pastEnd ins e := rfl
  have hheld : holding ins e.forgetStart = holding ins e := rfl
  rw [hpast, hheld]
  split
  · rfl
  · split
    · exact bind_map_congr fun v => rfl
    · rfl

theorem envSample_blind : Blind EnvelopeNote.forgetStart (Prod.map id EnvelopeNote.forgetStart) (envSample cfg m) :=
  fun _ _ h => bind_map_eq (countdownOn_blind .sample _ _ h) fun _ _ h' => envOutput_blind _ _ h'

theorem envRetrigger_blind : Blind EnvelopeNote.forgetStart EnvelopeNote.forgetStart (envRetrigger m) :=
  .of_wiped fun _ => bind_map_congr fun _ => bind_map_congr fun _ => bind_map_congr fun _ => rfl

theorem envSilence_blind : Blind EnvelopeNote.forgetStart EnvelopeNote.forgetStart (envSilence m) :=
  .of_wiped fun _ => bind_map_congr fun _ => rfl

theorem EnvelopeNote.forgetStart_forgetStart (e : EnvelopeNote) : e.forgetStart.forgetStart = e.forgetStart := rfl

/-! ## Channels -/

theorem Channel.forgetStart_forgetStart (ch : Channel) : ch.forgetStart.forgetStart = ch.forgetStart := by
  cases he : ch.env <;> simp [Channel.forgetStart, he]

theorem Channel.forgetStart_env_none {ch : Channel} (he : ch.env = none) : ch.forgetStart = ch := by
  cases ch; cases he; rfl

theorem Channel.forgetStart_env_some {ch : Channel} {e : EnvelopeNote} (he : ch.env = some e) :
    ch.forgetStart = { ch with env := some e.forgetStart } := by
  cases ch; cases he; rfl

theorem onEnv_blind {f : EnvelopeNote → Except Fault EnvelopeNote}
    (hf : Blind EnvelopeNote.forgetStart EnvelopeNote.forgetStart f) :
    Blind Channel.forgetStart Channel.forgetStart (onEnv f) := by
  refine .of_wiped fun ch => ?_
  cases he : ch.env with
  | none => rw [Channel.forgetStart_env_none he]
  | some e =>
    rw [Channel.forgetStart_env_some he]
    simp only [onEnv, he]
    refine bind_map_eq (hf _ e e.forgetStart_forgetStart) fun a b hab => ?_
    exact congrArg (fun x => Except.ok ({ ch with env := some x } : Channel)) hab

theorem onEnvIf_blind {cond : Prop} [Decidable cond] {f : EnvelopeNote → Except Fault EnvelopeNote}
    (hf : Blind EnvelopeNote.forgetStart EnvelopeNote.forgetStart f) :
    Blind Channel.forgetStart Channel.forgetStart (onEnvIf cond f) := by
  unfold onEnvIf
  split
  · exact onEnv_blind hf
  · exact fun _ _ h => congrArg Except.ok h

theorem fxStep_blind (t : BitVec 32) : Blind Channel.forgetStart Channel.forgetStart (fxStep cfg m t) := by
  refine .of_wiped fun ch => ?_
  have hidem := ch.forgetStart_forgetStart
  have hfx : ch.forgetStart.fx = ch.fx := rfl
  have hbase : ch.forgetStart.baseNote = ch.baseNote := rfl
  unfold fxStep
  rw [hfx, hbase]
  split
  · exact congrArg Except.ok hidem
  · split
    · exact congrArg Except.ok (Channel.forgetStart_forgetStart { ch with osc := _ })
    · exact congrArg Except.ok hidem
  · exact onEnvIf_blind envRetrigger_blind _ _ hidem
  · exact bind_map_eq (onEnvIf_blind envSilence_blind _ _ hidem) fun _ _ h => onEnvIf_blind envRetrigger_blind _ _ h

theorem chTick_blind (t : BitVec 32) : Blind Channel.forgetStart Channel.forgetStart (chTick cfg m t) :=
  fun _ _ h => bind_map_eq (onEnv_blind (countdownOn_blind .tick) _ _ h) fun _ _ h' => fxStep_blind t _ _ h'

theorem carriedVolume_forgetStart (ch : Channel) : carriedVolume ch.forgetStart = carriedVolume ch := by
  cases he : ch.env <;> simp [carriedVolume, Channel.forgetStart, he]

theorem noteOn_blind (n : Fin 63) (k : BitVec 4) :
    Blind Channel.forgetStart Channel.forgetStart (noteOn cfg m n k) := by
  refine .of_wiped fun ch => ?_
  unfold noteOn notePlay
  rw [carriedVolume_forgetStart]
  split
  · exact bind_map_congr fun _ => rfl
  · exact congrArg Except.ok ch.forgetStart_forgetStart

theorem chSample_blind : Blind Channel.forgetStart (Prod.map id Channel.forgetStart) (chSample cfg m) := by
  refine .of_wiped fun ch => ?_
  cases he : ch.env with
  | none => rw [Channel.forgetStart_env_none he]
  | some e =>
    rw [Channel.forgetStart_env_some he]
    simp only [chSample, he]
    refine bind_map_eq (envSample_blind _ e e.forgetStart_forgetStart) fun a b hab => ?_
    obtain ⟨hv, henv⟩ := Prod.mk.inj hab
    rw [show a.1 = b.1 from hv]
    exact congrArg (fun x => Except.ok (_, ({ ch with osc := (ch.osc.sample cfg).2, env := some x } : Channel))) henv

theorem noteEnd_forgetStart (ch : Channel) : noteEnd ch.forgetStart = (noteEnd ch).forgetStart := by
  cases he : ch.env with
  | none => rw [Channel.forgetStart_env_none he, noteEnd_none he, Channel.forgetStart_env_none he]
  | some e => rw [Channel.forgetStart_env_some he, noteEnd_some rfl, noteEnd_some he]; rfl

theorem fxTeardown_forgetStart (ch : Channel) : fxTeardown cfg ch.forgetStart = (fxTeardown cfg ch).forgetStart := by
  obtain ⟨osc, env, cvol, fx, bookmark, baseNote⟩ := ch
  cases fx <;> cases baseNote <;> rfl

theorem loopSet_forgetStart (r : BitVec 32) (ch : Channel) : loopSet r ch.forgetStart = (loopSet r ch).forgetStart := by
  obtain ⟨osc, env, cvol, fx, bookmark, baseNote⟩ := ch
  cases bookmark <;> rfl

theorem loopRepeat_forgetStart (b : BitVec 4) (ch : Channel) :
    loopRepeat b ch.forgetStart = ((loopRepeat b ch).1.forgetStart, (loopRepeat b ch).2) := by
  have hnew : bookmarkOrNew ch.forgetStart = bookmarkOrNew ch := rfl
  unfold loopRepeat
  rw [hnew]
  dsimp only
  split <;> rfl

/-! ## The five channels -/

/-- The channels with every `start` wiped. -/
def Channels.forgetStart (cs : Channels) : Channels :=
  ⟨cs.ch0.forgetStart, cs.ch1.forgetStart, cs.ch2.forgetStart, cs.ch3.forgetStart, cs.ch4.forgetStart⟩

theorem Channels.get_forgetStart (cs : Channels) (c : Chan) : cs.forgetStart.get c = (cs.get c).forgetStart := by
  cases c <;> rfl

theorem Channels.set_forgetStart (cs : Channels) (c : Chan) (x : Channel) :
    (cs.set c x).forgetStart = cs.forgetStart.set c x.forgetStart := by
  cases c <;> rfl

theorem Channels.get_forgetStart_eq {cs ds : Channels} (h : cs.forgetStart = ds.forgetStart) (c : Chan) :
    (cs.get c).forgetStart = (ds.get c).forgetStart := by
  rw [← Channels.get_forgetStart, h, Channels.get_forgetStart]

theorem Channels.forgetStart_forgetStart (cs : Channels) : cs.forgetStart.forgetStart = cs.forgetStart := by
  simp only [Channels.forgetStart, Channel.forgetStart_forgetStart]

theorem mixFrom_blind (l : List Chan) (sum : Binary64) :
    Blind Channels.forgetStart (Prod.map id Channels.forgetStart) (mixFrom cfg m l sum) := by
  induction l generalizing sum with
  | nil => exact fun cs ds h => congrArg (fun x => Except.ok (sum, x)) h
  | cons c rest ih =>
    intro cs ds h
    refine bind_map_eq (chSample_blind _ _ (Channels.get_forgetStart_eq h c)) fun a b hab => ?_
    obtain ⟨hv, hch⟩ := Prod.mk.inj hab
    rw [show a.1 = b.1 from hv]
    exact ih _ _ _ (by rw [Channels.set_forgetStart, Channels.set_forgetStart, h, hch])

theorem tickFrom_blind (t : BitVec 32) (l : List Chan) :
    Blind Channels.forgetStart Channels.forgetStart (tickFrom cfg m t l) := by
  induction l with
  | nil => exact fun cs ds h => congrArg Except.ok h
  | cons c rest ih =>
    intro cs ds h
    refine bind_map_eq (chTick_blind t _ _ (Channels.get_forgetStart_eq h c)) fun a b hab => ?_
    exact ih _ _ (by rw [Channels.set_forgetStart, Channels.set_forgetStart, h, hab])

/-! ## The state -/

theorem State.chan_forgetStart (s : State) (c : Chan) : s.forgetStart.chan c = (s.chan c).forgetStart := by
  cases c <;> rfl

theorem State.forgetStart_setChan (s : State) (c : Chan) (x : Channel) :
    (s.setChan c x).forgetStart = s.forgetStart.setChan c x.forgetStart := by
  cases c <;> rfl

theorem State.forgetStart_forgetStart (s : State) : s.forgetStart.forgetStart = s.forgetStart := by
  simp only [State.forgetStart, Channel.forgetStart_forgetStart]

theorem State.osc_forgetStart (s : State) (c : Chan) : (s.forgetStart.chan c).osc = (s.chan c).osc := by
  rw [State.chan_forgetStart]; rfl

/-- Channels that differ only in `start`, put into states that differ only there. -/
theorem State.setChan_forgetStart_eq {s : State} {c : Chan} {x y : Channel} (h : x.forgetStart = y.forgetStart) :
    (s.forgetStart.setChan c x).forgetStart = (s.setChan c y).forgetStart := by
  rw [State.forgetStart_setChan, State.forgetStart_setChan, State.forgetStart_forgetStart, h]

theorem effectAct_forgetStart (s : State) (c : Chan) (r : BitVec 32) (op : EffectOp) :
    effectAct s.forgetStart c r op = ((effectAct s c r op).1.forgetStart, (effectAct s c r op).2) := by
  cases op with
  | arpeggio | retrigger | delay =>
    simp only [effectAct, State.forgetStart_setChan, State.chan_forgetStart]; rfl
  | loopSet => simp only [effectAct, State.forgetStart_setChan, State.chan_forgetStart, loopSet_forgetStart]
  | loopRepeat => simp only [effectAct, State.forgetStart_setChan, State.chan_forgetStart, loopRepeat_forgetStart]
  | patternJump | rowJump | songVolume | songBps | songTpb | reserved => rfl

theorem dispatch_forgetStart (s : State) (c : Chan) (r : BitVec 32) (op : EffectOp) :
    dispatch cfg s.forgetStart c r op = ((dispatch cfg s c r op).1.forgetStart, (dispatch cfg s c r op).2) := by
  rw [dispatch, State.chan_forgetStart, fxTeardown_forgetStart, ← State.forgetStart_setChan, effectAct_forgetStart]
  rfl

/-- A state and a request, `start` wiped. -/
def forgetStartOfResult : State × Request → State × Request := Prod.map State.forgetStart id

theorem cellAct_blind (c : Chan) (r : BitVec 32) (a : CellAction) :
    Blind State.forgetStart forgetStartOfResult (fun s => cellAct cfg c r s a) := by
  refine .of_wiped fun s => ?_
  have hchan := s.chan_forgetStart c
  have hidem := (s.chan c).forgetStart_forgetStart
  have hres {x y : State} {q : Request} (h : x.forgetStart = y.forgetStart) :
      (Except.ok (x, q) : Except Fault _).map forgetStartOfResult = (Except.ok (y, q)).map forgetStartOfResult :=
    congrArg (fun z => Except.ok (z, q)) h
  cases a with
  | volume v =>
    simp only [cellAct, hchan]
    exact hres (State.setChan_forgetStart_eq (Channel.forgetStart_forgetStart { s.chan c with cvol := cellVolume v }))
  | noteStop =>
    simp only [cellAct, hchan, noteEnd_forgetStart]
    exact hres (State.setChan_forgetStart_eq (Channel.forgetStart_forgetStart _))
  | noteOn n k =>
    by_cases hn : n.toNat < 63
    · simp only [cellAct, dif_pos hn, hchan]
      exact bind_map_eq (noteOn_blind _ k _ _ hidem) fun _ _ h => hres (State.setChan_forgetStart_eq h)
    · simp only [cellAct, dif_neg hn]
      exact hres s.forgetStart_forgetStart
  | effect e =>
    simp only [cellAct, dispatch_forgetStart]
    exact hres (State.forgetStart_forgetStart _)

theorem cellRun_blind (c : Chan) (r : BitVec 32) (l : List CellAction) :
    Blind forgetStartOfResult forgetStartOfResult (fun x => cellRun cfg c r x l) := by
  induction l with
  | nil => exact fun x y h => congrArg Except.ok h
  | cons a rest ih =>
    intro x y h
    exact bind_map_eq (cellAct_blind c r a _ _ (congrArg Prod.fst h)) fun _ _ h' => ih _ _ h'

theorem sampleWith_blind : Blind State.forgetStart State.forgetStart (sampleWith cfg) := by
  refine .of_wiped fun s => ?_
  refine bind_map_eq (mixFrom_blind Chan.all .zero _ _ s.chans.forgetStart_forgetStart) fun a b hab => ?_
  exact congrArg (fun x => Except.ok ((s.setChans x.2).driveOut (Binary64.mul x.1 s.songVol))) hab

theorem tickWith_blind (t : BitVec 32) : Blind State.forgetStart State.forgetStart (tickWith cfg t) := by
  refine .of_wiped fun s => ?_
  refine bind_map_eq (tickFrom_blind t Chan.all _ _ s.chans.forgetStart_forgetStart) fun a b hab => ?_
  exact congrArg (fun cs => Except.ok (s.setChans cs).quiet) hab

theorem notePlayWith_blind (c : Chan) (n : BitVec 6) (k : BitVec 4) :
    Blind State.forgetStart State.forgetStart (notePlayWith cfg c n k) := by
  refine .of_wiped fun s => ?_
  unfold notePlayWith
  split
  · rw [State.chan_forgetStart]
    refine bind_map_eq (noteOn_blind _ k _ _ (s.chan c).forgetStart_forgetStart) fun a b hab => ?_
    exact congrArg (fun t : State => Except.ok t.quiet) (State.setChan_forgetStart_eq hab)
  · exact congrArg (fun t : State => Except.ok (t.refuse .badOperand)) s.forgetStart_forgetStart

/-! ## Every instruction -/

/-- An outcome with every `start` of its next state wiped. -/
def forgetStartOfOutcome : Host.Outcome State Fault Refusal → Host.Outcome State Fault Refusal
  | .next t => .next t.forgetStart
  | .fault f => .fault f
  | .refused r => .refused r

theorem forgetStart_next_eq {s t : State} (h : s.forgetStart = t.forgetStart) :
    forgetStartOfOutcome (.next s) = forgetStartOfOutcome (.next t) := congrArg Host.Outcome.next h

theorem forgetStart_finish_eq {x y : Except Fault State} (h : x.map State.forgetStart = y.map State.forgetStart) :
    forgetStartOfOutcome (finish x) = forgetStartOfOutcome (finish y) := by
  obtain ⟨e, rfl, rfl⟩ | ⟨a, b, rfl, rfl, hab⟩ := map_eq_map_cases h
  · rfl
  · exact forgetStart_next_eq hab

theorem cellApply_forgetStart (c : Chan) (r : BitVec 32) (s : State) (l : List CellAction) :
    forgetStartOfOutcome (cellApply cfg c r s.forgetStart l) = forgetStartOfOutcome (cellApply cfg c r s l) := by
  refine forgetStart_finish_eq ?_
  have hrun : (cellRun cfg c r (s.forgetStart, .none) l).map forgetStartOfResult =
      (cellRun cfg c r (s, .none) l).map forgetStartOfResult :=
    cellRun_blind c r l _ _ (congrArg (·, Request.none) s.forgetStart_forgetStart)
  obtain ⟨e, hx, hy⟩ | ⟨x, y, hx, hy, hxy⟩ := map_eq_map_cases hrun
  · rw [hx, hy]
  · rw [hx, hy]
    exact congrArg (fun z => Except.ok (driveResult z)) hxy

theorem runEffect_forgetStart (c : Chan) (r : BitVec 32) (op : EffectOp) (s : State) :
    forgetStartOfOutcome (runEffect c r op s.forgetStart) = forgetStartOfOutcome (runEffect c r op s) := by
  rw [runEffect, dispatch_forgetStart]
  exact congrArg (fun t : State => Host.Outcome.next (t.driveReq _)) (State.forgetStart_forgetStart _)

theorem refuse_forgetStart (s : State) (reason : RefuseReason) :
    (s.forgetStart.refuse reason).forgetStart = (s.refuse reason).forgetStart :=
  congrArg (State.refuse · reason) s.forgetStart_forgetStart

theorem quiet_forgetStart_eq {s t : State} (h : s.forgetStart = t.forgetStart) :
    s.quiet.forgetStart = t.quiet.forgetStart := congrArg State.quiet h

theorem execVolumeSet_forgetStart (c : Chan) (v : BitVec 64) (s : State) :
    forgetStartOfOutcome (execVolumeSet c v s.forgetStart) = forgetStartOfOutcome (execVolumeSet c v s) := by
  unfold execVolumeSet
  rw [State.chan_forgetStart]
  split
  · exact forgetStart_next_eq (quiet_forgetStart_eq (State.setChan_forgetStart_eq
      (Channel.forgetStart_forgetStart { s.chan c with cvol := .ofBits v })))
  · exact forgetStart_next_eq (refuse_forgetStart s _)

theorem execSongVolumeSet_forgetStart (v : BitVec 64) (s : State) :
    forgetStartOfOutcome (execSongVolumeSet v s.forgetStart) = forgetStartOfOutcome (execSongVolumeSet v s) := by
  unfold execSongVolumeSet
  split
  · exact forgetStart_next_eq (quiet_forgetStart_eq (congrArg (State.setSongVol · _) s.forgetStart_forgetStart))
  · exact forgetStart_next_eq (refuse_forgetStart s _)

/-- A new oscillator, on a channel whose note has its `start` wiped. -/
theorem setOsc_forgetStart (c : Chan) (s : State) (o : Osc) :
    (s.forgetStart.setChan c { s.forgetStart.chan c with osc := o }).quiet.forgetStart =
      (s.setChan c { s.chan c with osc := o }).quiet.forgetStart := by
  rw [State.chan_forgetStart]
  exact quiet_forgetStart_eq (State.setChan_forgetStart_eq (Channel.forgetStart_forgetStart { s.chan c with osc := o }))

theorem oscNoteSetWith_forgetStart (c : Chan) (n : BitVec 7) (s : State) :
    (oscNoteSetWith cfg c n s.forgetStart).forgetStart = (oscNoteSetWith cfg c n s).forgetStart := by
  unfold oscNoteSetWith
  rw [State.osc_forgetStart]
  split
  · exact setOsc_forgetStart c s _
  · exact refuse_forgetStart s _

theorem execOscSetFrequency_forgetStart (c : Chan) (f : BitVec 64) (s : State) :
    forgetStartOfOutcome (execOscSetFrequency c f s.forgetStart) =
      forgetStartOfOutcome (execOscSetFrequency c f s) := by
  unfold execOscSetFrequency
  rw [State.osc_forgetStart]
  split
  · exact forgetStart_next_eq (refuse_forgetStart s _)
  · split
    · exact forgetStart_next_eq (setOsc_forgetStart c s _)
    · exact forgetStart_next_eq (refuse_forgetStart s _)

theorem oscSetDutyWith_forgetStart (c : Chan) (d : BitVec 64) (s : State) :
    (oscSetDutyWith cfg c d s.forgetStart).forgetStart = (oscSetDutyWith cfg c d s).forgetStart := by
  unfold oscSetDutyWith
  rw [State.osc_forgetStart]
  split
  · split
    · exact setOsc_forgetStart c s _
    · exact refuse_forgetStart s _
  · exact refuse_forgetStart s _

theorem anyNote_forgetStart (s : State) : s.forgetStart.anyNote = s.anyNote := by
  have hsome (c : Chan) : (s.forgetStart.chan c).env.isSome = (s.chan c).env.isSome := by
    rw [State.chan_forgetStart]; exact Option.isSome_map
  simp only [State.anyNote, hsome]

theorem instrLoadWith_forgetStart (table : List Instrument) (s : State) :
    (instrLoadWith cfg table s.forgetStart).forgetStart = (instrLoadWith cfg table s).forgetStart := by
  unfold instrLoadWith
  rw [anyNote_forgetStart]
  split
  · exact refuse_forgetStart s _
  · split
    · exact quiet_forgetStart_eq (congrArg (State.loadInstruments · table) s.forgetStart_forgetStart)
    · exact refuse_forgetStart s _

/-- No instruction observes `start`. -/
theorem exec_forgetStart (i : Instr) (s : State) :
    forgetStartOfOutcome (exec i s.forgetStart) = forgetStartOfOutcome (exec i s) := by
  cases i with
  | sample => exact forgetStart_finish_eq (sampleWith_blind _ _ s.forgetStart_forgetStart)
  | tick t => exact forgetStart_finish_eq (tickWith_blind t _ _ s.forgetStart_forgetStart)
  | notePlay c n k => exact forgetStart_finish_eq (notePlayWith_blind c n k _ _ s.forgetStart_forgetStart)
  | noteEnd c =>
    refine forgetStart_next_eq (quiet_forgetStart_eq ?_)
    rw [State.chan_forgetStart, noteEnd_forgetStart]
    exact State.setChan_forgetStart_eq (Channel.forgetStart_forgetStart _)
  | channelReset c =>
    refine forgetStart_next_eq (quiet_forgetStart_eq ?_)
    rw [State.chan_forgetStart]
    exact State.setChan_forgetStart_eq rfl
  | volumeSet c v => exact execVolumeSet_forgetStart c v s
  | songVolumeSet v => exact execSongVolumeSet_forgetStart v s
  | oscNoteSet c n => exact forgetStart_next_eq (oscNoteSetWith_forgetStart c n s)
  | oscSetFrequency c f => exact execOscSetFrequency_forgetStart c f s
  | oscSetDuty c d => exact forgetStart_next_eq (oscSetDutyWith_forgetStart c d s)
  | reservedCmd => exact forgetStart_next_eq (refuse_forgetStart s _)
  | instrLoad table => exact forgetStart_next_eq (instrLoadWith_forgetStart table s)
  | cellEmpty => exact forgetStart_next_eq (congrArg (State.driveReq · .none) s.forgetStart_forgetStart)
  | cell => exact cellApply_forgetStart _ _ s _
  | cellVolume => rw [exec_cellVolume, exec_cellVolume]; exact cellApply_forgetStart _ _ s _
  | cellNoteStop => rw [exec_cellNoteStop, exec_cellNoteStop]; exact cellApply_forgetStart _ _ s _
  | cellNoteOn => rw [exec_cellNoteOn, exec_cellNoteOn]; exact cellApply_forgetStart _ _ s _
  | cellEffect => rw [exec_cellEffect, exec_cellEffect]; exact cellApply_forgetStart _ _ s _
  | effect | fxArpeggio | fxLoopSet | fxLoopRepeat | fxPatternJump | fxRowJump | fxRetrigger | fxDelay
  | fxSongVolume | fxSongBps | fxSongTpb | fxReserved9 | fxReserved10 | fxReserved11 | fxReserved12
  | fxReserved13 | fxReserved14 | fxReserved15 => exact runEffect_forgetStart _ _ _ s

end

/-- Settles O58: each outcome is, `start` apart, that of the one state with every `start` wiped. -/
theorem startIsNeverObserved : Obligations.StartIsNeverObserved := by
  intro i s s' h
  have hout : forgetStartOfOutcome (exec i s) = forgetStartOfOutcome (exec i s') := by
    rw [← exec_forgetStart, h, exec_forgetStart]
  generalize exec i s = x at hout
  generalize exec i s' = y at hout
  cases x <;> cases y
  case next.next t t' =>
    have ht := Host.Outcome.next.inj hout
    exact ⟨ht, show t.forgetStart.ports = t'.forgetStart.ports by rw [ht]⟩
  case fault.fault => exact Host.Outcome.fault.inj hout
  case refused.refused => exact Host.Outcome.refused.inj hout
  all_goals cases hout

end Sys2Proof.Machine
end

section
/-!
The bare actions of a cell and the bare effects (43_cell_effects.md R202 to R206; that one can be issued alone is
log 4): each is one action of a cell, or one row of the effect table. With them the statements CellActionsComplete (O20) and
BareActionsAgreeWithTheirCommand (O21).
-/

namespace Sys2Proof.Machine

section
variable {c : Chan} {r : BitVec 32} {s : State} {ch : Channel}

theorem exec_cellNoteOn_of_noteOn {n : BitVec 6} {k : BitVec 4} (hn : n.toNat < 63)
    (h : noteOn Config.hw s.mem ⟨n.toNat, hn⟩ k (s.chan c) = .ok ch) :
    exec (.cellNoteOn c n k) s = .next ((s.setChan c ch).driveReq .none) := by
  rw [exec_cellNoteOn]
  exact cellApply_eq_next.mpr ⟨_, cellRun_noteOn hn h, rfl⟩

theorem exec_cellNoteStop_eq (c : Chan) (s : State) :
    exec (.cellNoteStop c) s = .next ((s.setChan c (noteEnd (s.chan c))).driveReq .none) := rfl

theorem exec_encodeCell (c : Chan) (f : CellFields) (r : BitVec 32) (s : State) :
    exec (.cell c (encodeCell f) r) s = cellApply Config.hw c r s (cellActions f) := by
  rw [exec_cell, decodeCell_encodeCell]

end

/-- Settles O20: each action is a run of one; a note-on of a state in range resolves or does nothing. -/
theorem cellActionsComplete : Obligations.CellActionsComplete := by
  refine ⟨fun _ _ => rfl, fun _ _ _ => rfl, fun c s => ⟨fun e he => ?_, fun he => ?_⟩,
    fun c n k s hinv hn => ⟨fun hk => ?_, fun hk => ?_⟩, fun _ _ _ _ => rfl⟩
  · rw [exec_cellNoteStop_eq, noteEnd_some he]; rfl
  · rw [exec_cellNoteStop_eq, noteEnd_none he, State.setChan_chan]
  · rw [exec_cellNoteOn_of_noteOn hn (noteOn_unresolved hk _), State.setChan_chan]
  · obtain ⟨ch, hplay, -⟩ := noteOn_ok (cfg := Config.hw) hinv.mem ⟨n.toNat, hn⟩ k (hinv.chan c)
    exact ⟨ch, (if_pos hk).mp (noteOn_eq_ok_iff.mp hplay), exec_cellNoteOn_of_noteOn hn hplay⟩

/-- A row of the effect table does what its effect does. -/
theorem exec_decodeEffectCode (e : BitVec 12) (c : Chan) (r : BitVec 32) (s : State) :
    exec (decodeEffectCode e c r) s = runEffect c r (decodeEffect e) s := by
  unfold decodeEffectCode
  cases decodeEffect e with
  | reserved kind a b => dsimp only; split_ifs <;> rfl
  | arpeggio | loopSet | loopRepeat | patternJump | rowJump | retrigger | delay | songVolume | songBps
  | songTpb => rfl

/-- Settles O21: a word that selects one action decodes to that action, and a code to the effect of its row. -/
theorem bareActionsAgreeWithTheirCommand : Obligations.BareActionsAgreeWithTheirCommand := by
  intro c r s
  simp only [exec_encodeCell]
  refine ⟨rfl, fun v => rfl, fun inst => rfl, fun n k hn => ?_, fun e => rfl, fun e => exec_decodeEffectCode e c r s⟩
  rw [cellActions, noteActions_noteOn hn]
  rfl

end Sys2Proof.Machine
end

section
/-!
The memory port (20_memory.md R50 to R53): a table is refused while a note is on, and else loaded if every record is
admitted. With it the statement InstrLoadReplacesTheMemory (O18).
-/

namespace Sys2Proof.Machine

theorem exec_instrLoad (table : List Instrument) (s : State) :
    exec (.instrLoad table) s = .next (instrLoadWith Config.hw table s) := rfl

theorem instrLoadWith_inUse {cfg : Config} {table : List Instrument} {s : State} (h : ∃ c, (s.chan c).env ≠ none) :
    instrLoadWith cfg table s = s.refuse .instrInUse := by
  obtain ⟨c, hc⟩ := h
  have hnote : s.anyNote = true := Bool.eq_true_of_not_eq_false fun hno => hc (State.anyNote_eq_false_iff.mp hno c)
  rw [instrLoadWith, if_pos hnote]

theorem instrLoadWith_of_no_note {cfg : Config} {table : List Instrument} {s : State}
    (h : ∀ c, (s.chan c).env = none) :
    instrLoadWith cfg table s =
      if Memory.wf cfg table = true then (s.loadInstruments table).quiet else s.refuse .instrInvalid := by
  rw [instrLoadWith, State.anyNote_eq_false_iff.mpr h, if_neg Bool.false_ne_true]

/-- Settles O18: a note on some channel, and else whether the table is canonical. -/
theorem instrLoadReplacesTheMemory : Obligations.InstrLoadReplacesTheMemory := by
  intro table s
  have hadmit (hlen : table.length ≤ 16) :
      Memory.wf Config.hw table = true ↔ ∀ ins ∈ table, instrumentValid Config.hw ins = true :=
    Memory.wf_iff.trans (and_iff_right hlen)
  refine ⟨rfl, fun hnote => ?_, fun hlen hnone hbad => ?_, fun hlen hnone hgood => ?_⟩
  · rw [exec_instrLoad, instrLoadWith_inUse hnote]
  · rw [exec_instrLoad, instrLoadWith_of_no_note hnone, if_neg]
    exact fun hwf => hbad fun ins hi => instrumentValid_iff.mp ((hadmit hlen).mp hwf ins hi)
  · have hwf := (hadmit hlen).mpr fun ins hi => instrumentValid_iff.mpr (hgood ins hi)
    rw [exec_instrLoad, instrLoadWith_of_no_note hnone, if_pos hwf]
    rfl

end Sys2Proof.Machine
end

section
/-!
Runs of several instructions (20_memory.md R62): a loop end again and again (43_cell_effects.md R209), SAMPLE over five
silent channels (70_reset_and_hazards.md R264) and LOAD_SONG (R265). With them the statements LoopEndRepeatsExactly
(O26), SilentBlockDrivesZero (O59) and LoadSongCompletes (O60).
-/

namespace Sys2Proof

/-- +0 times a finite value of positive sign (R12). -/
theorem Binary64.zero_mul_fin (m : Fin infMag) : mul zero (.fin false m) = zero := by
  unfold mul zero
  dsimp only
  rw [units_zero, Nat.zero_mul, roundMag_zero]
  rfl

namespace Machine

section
variable {c : Chan} {s t : State} {ch : Channel}

/-! ## Instructions in sequence (20_memory.md R62) -/

theorem execAll_cons {i : Instr} {l : List Instr} (h : exec i s = .next t) : execAll (i :: l) s = execAll l t := by
  rw [execAll, h]

theorem execAll_append {l l' : List Instr} (h : execAll l s = .next t) : execAll (l ++ l') s = execAll l' t := by
  induction l generalizing s with
  | nil => cases h; rfl
  | cons i rest ih =>
    rw [execAll] at h
    cases hi : exec i s with
    | next u => rw [hi] at h; rw [List.cons_append, execAll_cons hi, ih h]
    | fault f => rw [hi] at h; cases h
    | refused r => rw [hi] at h; cases h

theorem execAll_singleton (i : Instr) (s : State) : execAll [i] s = exec i s := by
  rw [execAll]
  cases exec i s <;> rfl

/-! ## A loop end, again and again (R209) -/

/-- After j repeats the bookmark has counted them. -/
theorem loopRepeat_counts {a b : BitVec 4} {row : BitVec 32} (hb : b ≠ 0)
    (hs : (s.chan c).bookmark = some ⟨row, 0⟩) {j : Nat} (hj : j ≤ b.toNat) :
    ∃ t, execAll (List.replicate j (.fxLoopRepeat c a b)) s = .next t ∧ (t.chan c).bookmark = some ⟨row, j⟩ ∧
      (1 ≤ j → t.ports.req = some (.loopJump row)) := by
  induction j with
  | zero => exact ⟨s, rfl, hs, nofun⟩
  | succ j ih =>
    obtain ⟨t, ht, hmark, -⟩ := ih (by omega)
    have hstep := (loopRepeatCountsAndJumps c a b t ⟨row, j⟩ hb (.inl hmark)).1 hj
    rw [List.replicate_succ', execAll_append ht, execAll_singleton, hstep]
    exact ⟨_, rfl, by simp, fun _ => rfl⟩

/-- Settles O26: the count after j repeats, then the two cases of the loop end. -/
theorem loopEndRepeatsExactly : Obligations.LoopEndRepeatsExactly := by
  intro c a b s row hb hs
  refine ⟨fun j h1 hj => ?_, ?_⟩
  · obtain ⟨t, ht, -, hreq⟩ := loopRepeat_counts hb hs hj
    exact ⟨t, ht, hreq h1⟩
  · obtain ⟨t, ht, hmark, -⟩ := loopRepeat_counts (a := a) hb hs le_rfl
    have hstep := (loopRepeatCountsAndJumps c a b t ⟨row, b.toNat⟩ hb (.inl hmark)).2 le_rfl
    rw [List.replicate_succ', execAll_append ht, execAll_singleton, hstep]
    exact ⟨_, rfl, rfl, by simp⟩

end

/-! ## The silent block (R185) -/

/-- Settles O59: each silent channel gives +0 and stays, so the sum is +0. -/
theorem silentBlockDrivesZero : Obligations.SilentBlockDrivesZero := by
  intro s hnone
  have hzero : Binary64.add .zero .zero = .zero := by decide +kernel
  have hsum : Chan.all.foldl (fun acc _ => Binary64.add acc .zero) .zero = .zero := by
    simp only [Chan.all, List.foldl_cons, List.foldl_nil, hzero]
  have hchans : Chan.all.foldl (fun cs c => cs.set c (s.chan c)) s.chans = s.chans := rfl
  have hmix : mixFrom Config.hw s.mem Chan.all .zero s.chans = .ok (.zero, s.chans) := by
    rw [mixFrom_eq_foldl (o := fun _ => .zero) Chan.all_nodup .zero fun c _ => chSample_none (hnone c)]
    exact congrArg Except.ok (Prod.ext hsum hchans)
  have hout : exec .sample s = .next (s.driveOut (Binary64.mul .zero s.songVol)) :=
    finish_eq_next.mpr (by rw [sampleWith, hmix]; rfl)
  refine ⟨hout, fun m hm => ?_⟩
  rw [hout, hm, Binary64.zero_mul_fin]

/-! ## LOAD_SONG (R265) -/

theorem execAll_hardReset (s : State) :
    ∃ t, execAll hardReset s = .next t ∧ t.refused = s.refused ∧ ∀ c, t.chan c = channelReset (s.chan c) :=
  ⟨_, rfl, rfl, fun c => by cases c <;> rfl⟩

theorem defaultVolume_eq : Binary64.ofBits defaultVolume = .one := by decide +kernel

/-- Settles O60: after the hard reset no channel has a note, so the table loads, and then the volume is set. -/
theorem loadSongCompletes : Obligations.LoadSongCompletes := by
  intro s table v hwf hv
  obtain ⟨t, ht, hmark, hchan⟩ := execAll_hardReset s
  have hload : exec (.instrLoad table) t = .next (t.loadInstruments table).quiet :=
    by rw [exec_instrLoad, instrLoadWith_of_no_note (fun c => by rw [hchan]; rfl), if_pos hwf]
  have hvol : (Binary64.ofBits (v.getD defaultVolume)).inUnit = true := by
    cases v with
    | none => decide +kernel
    | some x => exact hv x rfl
  rw [loadSong, execAll_append ht, execAll_cons hload, execAll_singleton, exec_songVolumeSet, if_pos hvol]
  refine ⟨_, rfl, rfl, ?_, ?_, hmark, fun c => ?_⟩
  · rintro x rfl; rfl
  · rintro rfl; exact defaultVolume_eq
  · simp [hchan, channelReset]

end Machine
end Sys2Proof
end

section
/-!
The end of an envelope (41_envelope.md R145, R152, R157): a live note loops before past-end, and a released one runs through
its later nodes in the events they hold. With it the statement OnlyReleasedNotesReachPastEnd (O41).
-/

namespace Sys2Proof.Machine

section
variable {cfg : Config} {m : Memory} {e : EnvelopeNote} {ins : Instrument} {d : Nat}

/-- The note after its last event at a node: the countdown has run out. -/
def EnvelopeNote.spent (e : EnvelopeNote) (d : Nat) : EnvelopeNote :=
  { e with dur := .count ((d : Int) - (max 1 d : Nat)) }

/-- A live note's next node is at or below loopEnd (R145). -/
theorem nextIdx_le_loopEnd (hv : instrumentValid cfg ins = true) (hlive : e.live = true) :
    nextIdx ins e ≤ ins.loopEnd := by
  obtain ⟨-, -, hloop, -⟩ := instrumentValid_iff.mp hv
  rw [nextIdx_eq]
  split
  · exact hloop
  next h =>
    have hidx : ¬ins.loopEnd < e.idx + 1 := fun hlt => h ⟨hlive, hlt⟩
    omega

theorem nextIdx_released (hrel : e.live = false) : nextIdx ins e = e.idx + 1 := by
  rw [nextIdx_eq, if_neg (by simp [hrel])]

/-- Events in sequence, taken apart after the first ones. -/
theorem countdowns_add {j : Nat} {e' : EnvelopeNote} (h : countdowns m j e = .ok e') (k : Nat) :
    countdowns m (j + k) e = countdowns m k e' := by
  induction j generalizing e with
  | zero => cases h; rw [Nat.zero_add]
  | succ j ih =>
    rw [countdowns] at h
    rw [Nat.add_right_comm, countdowns]
    cases hc : envCountdown m e with
    | ok e₁ => rw [hc] at h; exact ih h
    | error f => rw [hc] at h; cases h

/-- Before its last event there a released note stays at its node. -/
theorem released_stays (hi : m[e.inst.toNat]? = some ins) (hrel : e.live = false) (hlt : e.idx < ins.nodes)
    (hd : e.dur = .count d) {k : Nat} (hk : k < max 1 d) :
    ∃ e', countdowns m k e = .ok e' ∧ pastEnd ins e' = false :=
  ⟨_, countdowns_before_last hi hlt (by simp [hrel]) hd hk, pastEnd_eq_false_iff.mpr hlt⟩

/-- A released note leaves a node that is not the last for the next one. -/
theorem released_enters (hi : m[e.inst.toNat]? = some ins) (hv : instrumentValid cfg ins = true)
    (hrel : e.live = false) (hlt : e.idx + 1 < ins.nodes) (hd : e.dur = .count d) :
    ∃ (e₁ : EnvelopeNote) (d₁ : Nat), countdowns m (max 1 d) e = .ok e₁ ∧ e₁.inst = e.inst ∧ e₁.live = false ∧
      e₁.idx = e.idx + 1 ∧ e₁.dur = .count d₁ ∧
      remainingEvents ins e d = max 1 d + remainingEvents ins e₁ d₁ := by
  have hheld : ¬(e.live = true ∧ e.idx = ins.sustain) := by simp [hrel]
  have hnext : nextIdx ins (e.spent d) = e.idx + 1 := nextIdx_released hrel
  obtain ⟨d₁, g, hd₁, -, he₁⟩ := envTransition_enter (e := e.spent d) hv (by rwa [hnext])
  rw [hnext] at hd₁ he₁
  refine ⟨_, d₁, (countdowns_last hi (by omega) hheld hd).trans he₁, rfl, hrel, rfl, rfl, ?_⟩
  have hdrop : ins.dur.drop (e.idx + 1) = d₁ :: ins.dur.drop (e.idx + 1 + 1) := by
    obtain ⟨hlen, rfl⟩ := List.getElem?_eq_some_iff.mp hd₁
    exact List.drop_eq_getElem_cons hlen
  simp only [remainingEvents, hdrop, List.map_cons, List.sum_cons]

/-- A released note leaves the last node for past-end. -/
theorem released_ends (hi : m[e.inst.toNat]? = some ins) (hv : instrumentValid cfg ins = true)
    (hrel : e.live = false) (hlast : e.idx + 1 = ins.nodes) (hd : e.dur = .count d) :
    ∃ e₁ : EnvelopeNote, countdowns m (max 1 d) e = .ok e₁ ∧ pastEnd ins e₁ = true ∧ e₁.vol = .zero ∧
      remainingEvents ins e d = max 1 d := by
  have hheld : ¬(e.live = true ∧ e.idx = ins.sustain) := by simp [hrel]
  have hnext : nextIdx ins (e.spent d) = e.idx + 1 := nextIdx_released hrel
  have hdrop : ins.dur.drop (e.idx + 1) = [] :=
    List.drop_eq_nil_of_le (by rw [(instrumentValid_iff.mp hv).1, hlast]; exact le_rfl)
  have hpast := envTransition_past (ins := ins) (e := e.spent d) (by omega)
  refine ⟨_, (countdowns_last hi (by omega) hheld hd).trans hpast, pastEnd_iff.mpr le_rfl, rfl, ?_⟩
  rw [remainingEvents, hdrop]
  rfl

/-- By induction on the nodes left: each is left after its events, and not before. -/
theorem released_reaches_pastEnd (hv : instrumentValid cfg ins = true) {n : Nat}
    (hi : m[e.inst.toNat]? = some ins) (hrel : e.live = false) (hn : e.idx + 1 + n = ins.nodes)
    (hd : e.dur = .count d) :
    (∃ e', countdowns m (remainingEvents ins e d) e = .ok e' ∧ pastEnd ins e' = true ∧ e'.vol = .zero) ∧
      ∀ k, k < remainingEvents ins e d → ∃ e', countdowns m k e = .ok e' ∧ pastEnd ins e' = false := by
  induction n generalizing e d with
  | zero =>
    obtain ⟨e₁, he₁, hpast, hvol, hrem⟩ := released_ends hi hv hrel hn hd
    rw [hrem]
    exact ⟨⟨e₁, he₁, hpast, hvol⟩, fun k hk => released_stays hi hrel (by omega) hd hk⟩
  | succ n ih =>
    obtain ⟨e₁, d₁, he₁, hinst, hrel₁, hidx, hd₁, hrem⟩ := released_enters hi hv hrel (by omega) hd
    obtain ⟨hend, hbefore⟩ := ih (e := e₁) (d := d₁) (hinst ▸ hi) hrel₁ (by omega) hd₁
    rw [hrem]
    refine ⟨by rw [countdowns_add he₁]; exact hend, fun k hk => ?_⟩
    by_cases hk' : k < max 1 d
    · exact released_stays hi hrel (by omega) hd hk'
    · obtain ⟨j, rfl⟩ := Nat.exists_eq_add_of_le (not_lt.mp hk')
      rw [countdowns_add he₁]
      exact hbefore j (by omega)

end

/-- Settles O41: where the next index of a live note lies, and the induction on a released note's nodes. -/
theorem onlyReleasedNotesReachPastEnd : Obligations.OnlyReleasedNotesReachPastEnd := by
  refine ⟨fun cfg ins e hv hlive => ?_, fun cfg m e ins d hi hv hrel hlt hd => ?_⟩
  · have hle := nextIdx_le_loopEnd hv hlive
    have hnode : nextIdx ins e < ins.nodes := hle.trans_lt (instrumentValid_iff.mp hv).2.2.2.1
    obtain ⟨d, g, -, -, he'⟩ := envTransition_enter hv hnode
    exact ⟨_, he', hle, pastEnd_eq_false_iff.mpr hnode⟩
  · exact released_reaches_pastEnd hv (n := ins.nodes - (e.idx + 1)) hi hrel (by omega) hd

end Sys2Proof.Machine
end

section
/-!
One sample of a phase accumulator (40_oscillators.md R104 to R108): the statement PhaseSampleReadsThenAdvances (O42).
-/

namespace Sys2Proof

theorem Binary64.ofNat_two_eq : ofNat 2 = two := by decide +kernel

theorem Binary64.ofNat_four_eq : ofNat 4 = four := by decide +kernel

namespace Machine

/-- Settles O42: `Osc.sample` on each shape, with the constants 2 and 4 of the waveforms. -/
theorem phaseSampleReadsThenAdvances : Obligations.PhaseSampleReadsThenAdvances := by
  rintro cfg a p s b rfl rfl rfl
  rw [Binary64.ofNat_two_eq, Binary64.ofNat_four_eq]
  exact ⟨fun _ => rfl, rfl, rfl, rfl⟩

end Machine
end Sys2Proof
end

section
/-!
The period of the noise register (40_oscillators.md R121, R126). The step is linear over the bits, and fifteen steps add
a register to its successor; doubling that relation gives 2^15 steps = one step, so the period of 1 divides 32767. With
it the statement LfsrHasFullPeriod (O44).
-/

namespace Sys2Proof.Machine

/-! ## The register as a linear recurrence (R121) -/

theorem lfsrAfter_eq_iterate (k : Nat) (r : BitVec 15) : lfsrAfter k r = lfsrStep^[k] r := by
  induction k with
  | zero => rfl
  | succ k ih => rw [lfsrAfter, ih, Function.iterate_succ_apply']

theorem lfsrAfter_add (m n : Nat) (r : BitVec 15) :
    lfsrAfter (m + n) r = lfsrAfter m (lfsrAfter n r) := by
  simp only [lfsrAfter_eq_iterate, Function.iterate_add_apply]

theorem lfsrStep_xor (a b : BitVec 15) : lfsrStep (a ^^^ b) = lfsrStep a ^^^ lfsrStep b := by
  refine BitVec.eq_of_getLsbD_eq fun j hj => ?_
  simp only [lfsrStep_getLsbD, BitVec.getLsbD_xor]
  rcases Nat.lt_or_eq_of_le (Nat.le_of_lt_succ hj) with h | rfl
  · simp [h.ne]
  · simp only [BitVec.getLsbD_of_ge _ 15 le_rfl]
    cases a.getLsbD 0 <;> cases a.getLsbD 1 <;> cases b.getLsbD 0 <;> cases b.getLsbD 1 <;> rfl

theorem lfsrAfter_xor (n : Nat) (a b : BitVec 15) :
    lfsrAfter n (a ^^^ b) = lfsrAfter n a ^^^ lfsrAfter n b := by
  induction n with
  | zero => rfl
  | succ n ih => rw [lfsrAfter, ih, lfsrStep_xor]; rfl

/-- Bit j of the register is bit 0 of the register j steps later. -/
theorem lfsrAfter_getLsbD (n : Nat) (r : BitVec 15) {j : Nat} (hj : j < 15) :
    (lfsrAfter n r).getLsbD j = (lfsrAfter (n + j) r).getLsbD 0 := by
  induction j generalizing n with
  | zero => rfl
  | succ j ih =>
    have hdown : (lfsrAfter (n + 1) r).getLsbD j = (lfsrAfter n r).getLsbD (j + 1) := by
      rw [lfsrAfter, lfsrStep_getLsbD, decide_eq_false (by omega)]; simp
    rw [← hdown, ih _ (by omega), Nat.add_right_comm, Nat.add_assoc]

/-- The feedback: fifteen steps later stands the sum of a register and its successor. -/
theorem lfsrAfter_fifteen (r : BitVec 15) : lfsrAfter 15 r = r ^^^ lfsrStep r := by
  refine BitVec.eq_of_getLsbD_eq fun j hj => ?_
  have hfeed :
      (lfsrAfter (j + 1) r).getLsbD 14 = ((lfsrAfter j r).getLsbD 0 ^^ (lfsrAfter j r).getLsbD 1) := by
    rw [lfsrAfter, lfsrStep_getLsbD, BitVec.getLsbD_of_ge _ 15 le_rfl]; simp
  have h0 := lfsrAfter_getLsbD 0 r hj
  have h1 := lfsrAfter_getLsbD 1 r hj
  rw [Nat.zero_add] at h0
  rw [lfsrAfter_getLsbD 15 r hj, BitVec.getLsbD_xor]
  show _ = ((lfsrAfter 0 r).getLsbD j ^^ (lfsrAfter 1 r).getLsbD j)
  rw [h0, h1, show 15 + j = j + 1 + 14 by omega, ← lfsrAfter_getLsbD _ _ (by decide), hfeed,
    lfsrAfter_getLsbD j r (j := 1) (by decide), Nat.add_comm 1 j]

/-- In a sum of two registers twice, the shared one cancels. -/
theorem xor_xor_cancel (x y z : BitVec 15) : x ^^^ y ^^^ (y ^^^ z) = x ^^^ z := by
  rw [BitVec.xor_assoc, ← BitVec.xor_assoc y, BitVec.xor_self, BitVec.zero_xor]

/-- A count of steps that acts as a sum of two counts still does when all three are doubled: the mixed terms
cancel. -/
theorem lfsrAfter_double {n a b : Nat} (h : ∀ r, lfsrAfter n r = lfsrAfter a r ^^^ lfsrAfter b r)
    (r : BitVec 15) : lfsrAfter (2 * n) r = lfsrAfter (2 * a) r ^^^ lfsrAfter (2 * b) r := by
  have hcomm : lfsrAfter a (lfsrAfter b r) = lfsrAfter b (lfsrAfter a r) := by
    rw [← lfsrAfter_add, Nat.add_comm, lfsrAfter_add]
  simp only [Nat.two_mul, lfsrAfter_add]
  rw [h, h, lfsrAfter_xor, lfsrAfter_xor, hcomm, xor_xor_cancel]

theorem lfsrAfter_two_pow (k : Nat) (r : BitVec 15) :
    lfsrAfter (2 ^ (k + 4)) r = lfsrAfter (2 ^ k) r ^^^ lfsrAfter (2 ^ (k + 1)) r := by
  induction k generalizing r with
  | zero =>
    show lfsrAfter (15 + 1) r = lfsrStep r ^^^ lfsrStep (lfsrStep r)
    rw [lfsrAfter_add, lfsrAfter_fifteen]
    rfl
  | succ k ih =>
    have hdouble := lfsrAfter_double ih r
    rwa [← pow_succ', ← pow_succ', ← pow_succ'] at hdouble

/-- So 2^15 steps are one step. -/
theorem lfsrAfter_two_pow_fifteen (r : BitVec 15) : lfsrAfter (2 ^ 15) r = lfsrStep r := by
  have h15 : lfsrAfter (2 ^ 15) r = lfsrAfter (2 ^ 7) r ^^^ lfsrAfter (2 ^ 9) r := by
    rw [lfsrAfter_two_pow 11, lfsrAfter_two_pow 7, lfsrAfter_two_pow 8, xor_xor_cancel]
  have h45 : lfsrAfter (2 ^ 4) r ^^^ lfsrAfter (2 ^ 5) r = lfsrAfter (2 ^ 0) r ^^^ lfsrAfter (2 ^ 2) r := by
    rw [lfsrAfter_two_pow 0, lfsrAfter_two_pow 1, xor_xor_cancel]
  calc lfsrAfter (2 ^ 15) r
      = lfsrAfter (2 ^ 3) r ^^^ lfsrAfter (2 ^ 4) r ^^^ (lfsrAfter (2 ^ 5) r ^^^ lfsrAfter (2 ^ 6) r) := by
        rw [h15, lfsrAfter_two_pow 3, lfsrAfter_two_pow 5]
    _ = lfsrAfter (2 ^ 3) r ^^^ (lfsrAfter (2 ^ 0) r ^^^ lfsrAfter (2 ^ 2) r) ^^^ lfsrAfter (2 ^ 6) r := by
        rw [← h45]; simp only [BitVec.xor_assoc]
    _ = lfsrAfter (2 ^ 0) r ^^^ (lfsrAfter (2 ^ 2) r ^^^ lfsrAfter (2 ^ 3) r) ^^^ lfsrAfter (2 ^ 6) r := by ac_rfl
    _ = lfsrStep r := by
        rw [lfsrAfter_two_pow 2, BitVec.xor_assoc, BitVec.xor_self, BitVec.xor_zero]; rfl

/-! ## The orbit of 1 (R126) -/

theorem lfsrAfter_lfsrStep (n : Nat) (r : BitVec 15) : lfsrAfter n (lfsrStep r) = lfsrAfter (n + 1) r :=
  (lfsrAfter_add n 1 r).symm

/-- 1 is the step of 3, and 2^15 steps of 3 are one step of it. -/
theorem lfsrAfter_period : lfsrAfter 32767 1 = 1 := by
  have hone : lfsrStep 3 = 1 := by decide
  have hcount : 32767 + 1 = 2 ^ 15 := by norm_num
  rw [← hone, lfsrAfter_lfsrStep, hcount, lfsrAfter_two_pow_fifteen]

theorem lfsrAfter_ne_zero (k : Nat) : lfsrAfter k 1 ≠ 0 := by
  induction k with
  | zero => decide
  | succ k ih => exact lfsrStep_ne_zero ih

/-- 32767 = 7 · 31 · 151, and none of the three counts it gives on division by a prime returns to 1. -/
theorem lfsrAfter_prime_quotient_ne :
    lfsrAfter 4681 1 ≠ 1 ∧ lfsrAfter 1057 1 ≠ 1 ∧ lfsrAfter 217 1 ≠ 1 := by
  decide +kernel

theorem isPeriodicPt_lfsrStep {k : Nat} : Function.IsPeriodicPt lfsrStep k 1 ↔ lfsrAfter k 1 = 1 := by
  rw [lfsrAfter_eq_iterate]; rfl

theorem prime_dvd_32767 {p : Nat} (hp : p.Prime) (h : p ∣ 32767) : p = 7 ∨ p = 31 ∨ p = 151 := by
  rw [show 32767 = 7 * 31 * 151 from rfl, hp.dvd_mul, hp.dvd_mul] at h
  rcases h with (h | h) | h
  · exact .inl ((Nat.prime_dvd_prime_iff_eq hp (by norm_num)).1 h)
  · exact .inr (.inl ((Nat.prime_dvd_prime_iff_eq hp (by norm_num)).1 h))
  · exact .inr (.inr ((Nat.prime_dvd_prime_iff_eq hp (by norm_num)).1 h))

theorem minimalPeriod_lfsrStep : Function.minimalPeriod lfsrStep 1 = 32767 := by
  obtain ⟨c, hc⟩ := (isPeriodicPt_lfsrStep.2 lfsrAfter_period).minimalPeriod_dvd
  have hdvd {n : Nat} (h : n ∣ c) {q : Nat} (hq : n * q = 32767) (hn : 0 < n) : lfsrAfter q 1 = 1 := by
    obtain ⟨b, rfl⟩ := h
    refine isPeriodicPt_lfsrStep.1 (Function.isPeriodicPt_iff_minimalPeriod_dvd.2 ⟨b, ?_⟩)
    refine Nat.eq_of_mul_eq_mul_left hn ?_
    rw [hq, hc, Nat.mul_left_comm]
  obtain ⟨h7, h31, h151⟩ := lfsrAfter_prime_quotient_ne
  by_cases hc1 : c = 1
  · rw [hc, hc1, Nat.mul_one]
  · obtain ⟨p, hp, hpc⟩ := Nat.exists_prime_and_dvd hc1
    rcases prime_dvd_32767 hp (hc ▸ Dvd.dvd.mul_left hpc _) with rfl | rfl | rfl
    · exact absurd (hdvd hpc (q := 4681) rfl (by decide)) h7
    · exact absurd (hdvd hpc (q := 1057) rfl (by decide)) h31
    · exact absurd (hdvd hpc (q := 217) rfl (by decide)) h151

/-! ## The registers with bit 0 set -/

theorem lfsrOnes_eq_card (k : Nat) :
    lfsrOnes k 1 = ((Finset.range k).filter fun i => (lfsrAfter i 1).toNat % 2 = 1).card := by
  induction k with
  | zero => rfl
  | succ k ih =>
    have hbit : (lfsrAfter k 1).getLsbD 0 = decide ((lfsrAfter k 1).toNat % 2 = 1) := by
      simp [BitVec.getLsbD, Nat.testBit_zero]
    rw [lfsrOnes, ih, Finset.card_filter, Finset.card_filter, Finset.sum_range_succ, hbit]
    simp only [decide_eq_true_eq]

theorem lfsrAfter_injOn : Set.InjOn (fun i => (lfsrAfter i 1).toNat) (Finset.range 32767) := by
  intro i hi j hj h
  have hperiod {i : Nat} (hi : i ∈ (Finset.range 32767 : Set Nat)) :
      i ∈ Set.Iio (Function.minimalPeriod lfsrStep 1) := by
    rw [minimalPeriod_lfsrStep]; exact Finset.mem_range.1 hi
  refine Function.iterate_injOn_Iio_minimalPeriod (hperiod hi) (hperiod hj) ?_
  simpa only [lfsrAfter_eq_iterate] using BitVec.eq_of_toNat_eq h

/-- The orbit of 1 is every register but 0: 32767 different values, none of them 0. -/
theorem image_lfsrAfter :
    (Finset.range 32767).image (fun i => (lfsrAfter i 1).toNat) = Finset.Ico 1 32768 := by
  refine Finset.eq_of_subset_of_card_le (fun v hv => ?_) ?_
  · obtain ⟨i, -, rfl⟩ := Finset.mem_image.1 hv
    have hne : (lfsrAfter i 1).toNat ≠ 0 := fun h => lfsrAfter_ne_zero i (BitVec.eq_of_toNat_eq h)
    exact Finset.mem_Ico.2 ⟨Nat.one_le_iff_ne_zero.2 hne, (lfsrAfter i 1).isLt⟩
  · rw [Finset.card_image_of_injOn lfsrAfter_injOn, Finset.card_range, Nat.card_Ico]

/-- So the registers with bit 0 set are as many as the odd numbers below 32768. -/
theorem lfsrOnes_period : lfsrOnes 32767 1 = 16384 := by
  have hodd : ((Finset.Ico 0 32768).filter fun v => v % 2 = 1).card = 16384 := by
    rw [Nat.Ico_zero_eq_range, ← Nat.count_eq_card_filter_range]
    exact Nat.count_modEq_card 32768 (by decide) 1
  have hzero :
      (Finset.Ico 1 32768).filter (fun v => v % 2 = 1) = (Finset.Ico 0 32768).filter fun v => v % 2 = 1 := by
    ext v
    simp only [Finset.mem_filter, Finset.mem_Ico]
    omega
  rw [lfsrOnes_eq_card, ← hodd, ← hzero, ← image_lfsrAfter, Finset.filter_image,
    Finset.card_image_of_injOn (lfsrAfter_injOn.mono (Finset.coe_subset.2 (Finset.filter_subset _ _)))]

/-- Settles O44: the period divides 32767 and is no proper divisor of it; the orbit is then every register but 0, and
the ones are the odd numbers among them. -/
theorem lfsrHasFullPeriod : Obligations.LfsrHasFullPeriod := by
  refine ⟨lfsrAfter_period, fun k h0 hk h => ?_, lfsrAfter_ne_zero, lfsrOnes_period⟩
  have hle := (isPeriodicPt_lfsrStep.2 h).minimalPeriod_le h0
  rw [minimalPeriod_lfsrStep] at hle
  omega

end Sys2Proof.Machine
end

section
/-!
SUPPORT. Rounded sums and products keep the order of their operands (00_scope.md R12). Where a sum stands on the number
line is a monotone function of its exact value (`roundKey`), so a bound on an operand gives a bound that the kernel
evaluates at one datum.
-/

namespace Sys2Proof.Binary64

/-! ## The order -/

theorem le_trans {x y z : Binary64} (h₁ : le x y = true) (h₂ : le y z = true) : le x z = true := by
  obtain ⟨a, b, ha, hb, hab⟩ := le_iff_key.1 h₁
  obtain ⟨b', c, hb', hc, hbc⟩ := le_iff_key.1 h₂
  obtain rfl := Option.some.inj (hb.symm.trans hb')
  exact le_iff_key.2 ⟨a, c, ha, hc, hab.trans hbc⟩

theorem lt_of_le_of_lt {x y z : Binary64} (h₁ : le x y = true) (h₂ : lt y z = true) : lt x z = true := by
  obtain ⟨a, b, ha, hb, hab⟩ := le_iff_key.1 h₁
  obtain ⟨b', c, hb', hc, hbc⟩ := lt_iff_key.1 h₂
  obtain rfl := Option.some.inj (hb.symm.trans hb')
  exact lt_iff_key.2 ⟨a, c, ha, hc, hab.trans_lt hbc⟩

theorem not_le_of_lt {x y : Binary64} (h : lt x y = true) : ¬ le y x = true := by
  obtain ⟨a, b, ha, hb, hab⟩ := lt_iff_key.1 h
  rintro h'
  obtain ⟨b', a', hb', ha', hba⟩ := le_iff_key.1 h'
  obtain rfl := Option.some.inj (hb.symm.trans hb')
  obtain rfl := Option.some.inj (ha.symm.trans ha')
  omega

/-- What lies below a positive magnitude lies at or below the magnitude before it. -/
theorem fin_le_pred {x : Binary64} {n : Nat} (hn : n + 1 < infMag)
    (h : lt x (.fin false ⟨n + 1, hn⟩) = true) : le x (.fin false ⟨n, by omega⟩) = true := by
  obtain ⟨a, b, ha, hb, hab⟩ := lt_iff_key.1 h
  rw [key_fin_false, Option.some.injEq] at hb
  refine le_iff_key.2 ⟨a, n, ha, key_fin_false _, ?_⟩
  simp only at hb
  omega

theorem signedUnits_le_iff {s t : Bool} {m n : Fin infMag} :
    signedUnits s m ≤ signedUnits t n ↔ le (.fin s m) (.fin t n) = true := by
  have hm := units_le_iff (m := m) (n := n)
  have hn := units_le_iff (m := n) (n := m)
  have hm0 := units_le_iff (m := m) (n := 0)
  have hn0 := units_le_iff (m := n) (n := 0)
  rw [units_zero] at hm0 hn0
  cases s <;> cases t <;> simp [signedUnits, le, key] <;> omega

/-! ## Sums -/

/-- Where the rounding of `z` units stands on the number line. -/
def roundKey (z : Int) : Int :=
  if z < 0 then -(min (roundMag z.natAbs 1) infMag : Nat) else (min (roundMag z.natAbs 1) infMag : Nat)

theorem key_pack_true (m : Nat) : key (pack true m) = some (-((min m infMag : Nat) : Int)) := by
  unfold pack
  split
  · rename_i h; simp [min_eq_left (le_of_lt h)]
  · rename_i h; rw [min_eq_right (not_lt.1 h)]; rfl

theorem key_roundInt (s : Bool) (z : Int) : key (roundInt s z) = some (roundKey z) := by
  unfold roundInt roundKey
  split
  · rename_i h
    subst h
    rw [Int.natAbs_zero, roundMag_zero]
    cases s <;> rfl
  · by_cases h : z < 0
    · rw [decide_eq_true h, key_pack_true, if_pos h]
    · rw [decide_eq_false h, key_pack_false, if_neg h]

theorem roundKey_mono {z w : Int} (h : z ≤ w) : roundKey z ≤ roundKey w := by
  have hpos (h : z.natAbs ≤ w.natAbs) : roundMag z.natAbs 1 ≤ roundMag w.natAbs 1 :=
    roundMag_mono one_pos one_pos (by omega)
  have hneg (h : w.natAbs ≤ z.natAbs) : roundMag w.natAbs 1 ≤ roundMag z.natAbs 1 :=
    roundMag_mono one_pos one_pos (by omega)
  unfold roundKey
  split <;> split <;> omega

theorem roundKey_units (m : Nat) : roundKey (units m) = (min m infMag : Nat) := by
  rw [roundKey, if_neg (by omega), Int.natAbs_natCast, roundMag_units]

theorem roundKey_range (z : Int) : -(infMag : Nat) ≤ roundKey z ∧ roundKey z ≤ (infMag : Nat) := by
  have hmin := min_le_right (roundMag z.natAbs 1) infMag
  unfold roundKey
  split <;> omega

theorem key_fin_range {s : Bool} {m : Fin infMag} {k : Int} (h : key (.fin s m) = some k) :
    -(infMag : Nat) < k ∧ k < (infMag : Nat) := by
  have hm := m.isLt
  simp only [key, Option.some.injEq] at h
  split at h <;> omega

theorem inf_not_le_fin (s : Bool) (m : Fin infMag) : ¬ le (.inf false) (.fin s m) = true := by
  intro h
  obtain ⟨a, b, ha, hb, hab⟩ := le_iff_key.1 h
  obtain rfl : (infMag : Nat) = a := Option.some.inj ha
  exact absurd (key_fin_range hb).2 (by omega)

theorem fin_not_le_neg_inf (s : Bool) (m : Fin infMag) : ¬ le (.fin s m) (.inf true) = true := by
  intro h
  obtain ⟨a, b, ha, hb, hab⟩ := le_iff_key.1 h
  obtain rfl : -((infMag : Nat) : Int) = b := Option.some.inj hb
  exact absurd (key_fin_range ha).1 (by omega)

theorem key_add_fin (s t : Bool) (m n : Fin infMag) :
    key (add (.fin s m) (.fin t n)) = some (roundKey (signedUnits s m + signedUnits t n)) := by
  unfold add
  exact key_roundInt _ _

theorem add_inf_fin (s t : Bool) (n : Fin infMag) : add (.inf s) (.fin t n) = .inf s := by unfold add; rfl

/-- A sum with a finite datum grows with the other operand. -/
theorem add_le_add_right {x y : Binary64} (t : Bool) (n : Fin infMag) (h : le x y = true) :
    le (add x (.fin t n)) (add y (.fin t n)) = true := by
  match x, y with
  | .fin s m, .fin s' m' =>
    refine le_iff_key.2 ⟨_, _, key_add_fin .., key_add_fin .., roundKey_mono ?_⟩
    exact Int.add_le_add_right (signedUnits_le_iff.2 h) _
  | .inf s, .inf s' => rwa [add_inf_fin, add_inf_fin]
  | .fin s m, .inf true => exact absurd h (fin_not_le_neg_inf s m)
  | .fin s m, .inf false =>
    rw [add_inf_fin]
    exact le_iff_key.2 ⟨_, _, key_add_fin .., rfl, (roundKey_range _).2⟩
  | .inf true, .fin s m =>
    rw [add_inf_fin]
    exact le_iff_key.2 ⟨_, _, rfl, key_add_fin .., (roundKey_range _).1⟩
  | .inf false, .fin s m => exact absurd h (inf_not_le_fin s m)
  | .nan, _ => simp [le] at h
  | .fin .., .nan => simp [le] at h
  | .inf .., .nan => simp [le] at h

theorem sub_le_sub_right {x y : Binary64} (n : Fin infMag) (h : le x y = true) :
    le (sub x (.fin false n)) (sub y (.fin false n)) = true := add_le_add_right _ _ h

/-! ## Products and magnitudes -/

/-- The product of a finite datum that is not negative and a positive one. -/
theorem key_mul_fin {s : Bool} {m : Fin infMag} (n : Fin infMag) (h : le zero (.fin s m) = true) :
    key (mul (.fin s m) (.fin false n)) = some (min (roundMag (units m * units n) oneUnits) infMag : Nat) := by
  unfold mul
  rcases nonneg_cases h with ⟨m', hm⟩ | hm | ⟨m', hm, h0⟩
  · cases hm; exact key_pack_false _
  · cases hm
  · cases hm
    simp only [h0, units_zero, Nat.zero_mul, roundMag_zero]
    rfl

/-- A product with a positive datum grows with the other operand, where that is not negative. -/
theorem mul_le_mul_right {s t : Bool} {m m' : Fin infMag} (n : Fin infMag) (h0 : le zero (.fin s m) = true)
    (h : le (.fin s m) (.fin t m') = true) :
    le (mul (.fin s m) (.fin false n)) (mul (.fin t m') (.fin false n)) = true := by
  have h0' := le_trans h0 h
  have hu := signedUnits_le_iff.2 h
  rw [signedUnits_nonneg h0, signedUnits_nonneg h0'] at hu
  refine le_iff_key.2 ⟨_, _, key_mul_fin n h0, key_mul_fin n h0', ?_⟩
  have hmag := roundMag_mono oneUnits_pos oneUnits_pos
    (Nat.mul_le_mul_right oneUnits (Nat.mul_le_mul_right (units n) (Int.ofNat_le.1 hu)))
  omega

/-- The magnitude of a datum in [−n, n] lies in [0, n]. -/
theorem abs_range {x : Binary64} {n : Fin infMag} (h₁ : le (.fin true n) x = true)
    (h₂ : le x (.fin false n) = true) :
    le zero (abs x) = true ∧ le (abs x) (.fin false n) = true := by
  obtain ⟨a, b, ha, hb, hab⟩ := le_iff_key.1 h₁
  obtain ⟨b', c, hb', hc, hbc⟩ := le_iff_key.1 h₂
  obtain rfl := Option.some.inj (hb.symm.trans hb')
  rw [key_fin_true, Option.some.injEq] at ha
  rw [key_fin_false, Option.some.injEq] at hc
  have hn : n.val < 9218868437227405312 := n.isLt
  match x, hb with
  | .fin s m, hb =>
    simp only [key, Option.some.injEq] at hb
    have hmn : (m.val : Int) ≤ n.val := by split at hb <;> omega
    exact ⟨le_iff_key.2 ⟨0, m.val, key_fin_false _, key_fin_false _, by omega⟩,
      le_iff_key.2 ⟨_, _, key_fin_false m, key_fin_false n, hmn⟩⟩
  | .inf false, hb => simp at hb; omega
  | .inf true, hb => simp at hb; omega

/-- One binade up, a magnitude is doubled. -/
theorem units_double {m : Nat} (h : 2 ^ 52 ≤ m) : units (m + 2 ^ 52) = 2 * units m := by
  obtain ⟨q, hq⟩ : ∃ q, m / 2 ^ 52 = q + 1 := ⟨m / 2 ^ 52 - 1, by omega⟩
  have hq' : (m + 2 ^ 52) / 2 ^ 52 = q + 2 := by omega
  have hr : (m + 2 ^ 52) % 2 ^ 52 = m % 2 ^ 52 := by omega
  unfold units
  rw [hq, hq', hr, if_neg (by omega), if_neg (by omega), Nat.add_sub_cancel, show q + 2 - 1 = q + 1 from rfl,
    pow_succ]
  ring

end Sys2Proof.Binary64
end

section
/-!
The ranges of the waveforms and of the phase offset (40_oscillators.md R104 to R111, 10_state.md R23): sums and products
are monotone, so each range is read off at the two ends of its operand's. With them the statements WaveformsStayInRange
(O45) and PhaseOffsetStaysBelowLength (O46).
-/

namespace Sys2Proof.Machine
open Binary64

/-- The largest datum below 1, 1 − 2^-53. -/
def onePred : Binary64 := .fin false ⟨4607182418800017407, by decide⟩

/-- The largest finite datum. -/
def maxFinite : Binary64 := .fin false ⟨9218868437227405311, by decide⟩

/-- A normalised phase is a finite datum between 0 and the largest below 1. -/
theorem inPhase_fin {p : Binary64} (hp : p.inPhase = true) :
    ∃ s m, p = .fin s m ∧ le .zero p = true ∧ le p onePred = true := by
  simp only [Binary64.inPhase, Bool.and_eq_true] at hp
  obtain ⟨h0, h1⟩ := hp
  have hle : le p onePred = true := fin_le_pred (by decide) h1
  cases p with
  | fin s m => exact ⟨s, m, rfl, h0, hle⟩
  | inf s => cases s <;> revert h0 h1 <;> decide
  | nan => revert h0; decide

/-- A normalised phase scaled by a finite magnitude lies between the scaled ends of [0, 1). -/
theorem inPhase_mul {p : Binary64} (hp : p.inPhase = true) (n : Fin infMag) :
    le (mul .zero (.fin false n)) (mul p (.fin false n)) = true ∧
      le (mul p (.fin false n)) (mul onePred (.fin false n)) = true := by
  obtain ⟨s, m, rfl, h0, h1⟩ := inPhase_fin hp
  exact ⟨mul_le_mul_right n (by decide) h0, mul_le_mul_right n h0 h1⟩

theorem square_wave_range (cfg : Config) (duty p : Binary64) :
    (Shape.square duty).wave cfg p = .one ∨ (Shape.square duty).wave cfg p = Binary64.neg .one := by
  unfold Shape.wave
  dsimp only
  split
  · exact .inl rfl
  · exact .inr rfl

theorem saw_wave_range (cfg : Config) {p : Binary64} (hp : p.inPhase = true) :
    le (neg .one) (Shape.saw.wave cfg p) = true ∧ lt (Shape.saw.wave cfg p) .one = true := by
  obtain ⟨hlo, hhi⟩ := inPhase_mul hp ⟨4611686018427387904, by decide⟩
  constructor
  · exact le_trans (by decide +kernel) (sub_le_sub_right _ hlo)
  · exact lt_of_le_of_lt (sub_le_sub_right _ hhi) (by decide +kernel)

theorem triangle_wave_range (cfg : Config) {p : Binary64} (hp : p.inPhase = true) :
    le (neg .one) (Shape.triangle.wave cfg p) = true ∧ le (Shape.triangle.wave cfg p) .one = true := by
  obtain ⟨hlo, hhi⟩ := inPhase_mul hp ⟨4616189618054758400, by decide⟩
  have hlo' : le (neg .two) (sub (mul p .four) .two) = true :=
    le_trans (by decide +kernel) (sub_le_sub_right _ hlo)
  have hhi' : le (sub (mul p .four) .two) .two = true :=
    le_trans (sub_le_sub_right _ hhi) (by decide +kernel)
  obtain ⟨habs0, habs2⟩ := abs_range hlo' hhi'
  constructor
  · exact le_trans (by decide +kernel) (sub_le_sub_right _ habs0)
  · exact le_trans (sub_le_sub_right _ habs2) (by decide +kernel)

/-- Settles O45, one waveform at a time. -/
theorem waveformsStayInRange : Obligations.WaveformsStayInRange := fun cfg _ hp =>
  ⟨fun duty => square_wave_range cfg duty _, saw_wave_range cfg hp, triangle_wave_range cfg hp⟩

/-! ## The advance (R104, log 19) -/

theorem maxFinite_add_one_le : le (add maxFinite .one) maxFinite = true := by decide +kernel

/-- What is at most a finite datum is still finite one sample later. -/
theorem add_one_le_max {x : Binary64} (h : le x maxFinite = true) : le (add x .one) maxFinite = true :=
  le_trans (add_le_add_right false _ h) maxFinite_add_one_le

theorem fin_le_max (s : Bool) (m : Fin infMag) : le (.fin s m) maxFinite = true := by
  have hlt := (key_fin_range (s := s) (m := m) rfl).2
  exact le_iff_key.2 ⟨_, 9218868437227405311, rfl, key_fin_false _, Int.le_sub_one_of_lt hlt⟩

/-- One sample later than a magnitude that is at least 1 lies no further than one binade up, and is finite: 1 is at
most the magnitude, so the exact sum is at most twice it. -/
theorem add_one_le_binade {P : Fin infMag} (hP : 4607182418800017408 ≤ P.val) :
    ∃ Y : Fin infMag, Y.val ≤ P.val + 2 ^ 52 ∧ le (add (.fin false P) .one) (.fin false Y) = true := by
  have hmax := add_one_le_max (fin_le_max false P)
  have hkey := key_add_fin false false P ⟨4607182418800017408, by decide⟩
  have hone := units_le_iff.2 hP
  have hdouble := units_double (m := P.val) (by omega)
  have hbinade : roundKey (signedUnits false P + signedUnits false 4607182418800017408) ≤
      (min (P.val + 2 ^ 52) infMag : Nat) := by
    rw [← roundKey_units, hdouble]
    refine roundKey_mono ?_
    show (units P.val : Int) + (units 4607182418800017408 : Nat) ≤ _
    omega
  by_cases hfit : P.val + 2 ^ 52 < infMag
  · refine ⟨⟨_, hfit⟩, le_rfl, le_iff_key.2 ⟨_, _, hkey, key_fin_false _, ?_⟩⟩
    exact hbinade.trans (Int.ofNat_le.2 (min_le_left _ _))
  · exact ⟨⟨9218868437227405311, by decide⟩, (Nat.le_succ _).trans (Nat.le_of_not_lt hfit), hmax⟩

/-- Past a length above 1, one subtraction brings the offset back below it. -/
theorem sub_lt_len {P L : Fin infMag} (hP : 4607182418800017408 ≤ P.val) (hL : P.val + 1 = L.val) :
    lt (sub (add (.fin false P) .one) (.fin false L)) (.fin false L) = true := by
  obtain ⟨Y, hY, hle⟩ := add_one_le_binade hP
  refine lt_of_le_of_lt (sub_le_sub_right L hle) ?_
  refine lt_iff_key.2 ⟨_, _, key_add_fin .., key_fin_false _, ?_⟩
  have hYu := units_le_iff.2 hY
  rw [units_double (by omega)] at hYu
  have hLu := units_le_iff.2 (Nat.le_of_succ_le hL.le)
  have hround : roundKey (signedUnits false Y + signedUnits true L) ≤ (min P.val infMag : Nat) := by
    rw [← roundKey_units]
    refine roundKey_mono ?_
    show (units Y.val : Int) + -(units L.val : Int) ≤ (units P.val : Nat)
    omega
  exact (hround.trans (Int.ofNat_le.2 (min_le_left _ _))).trans_lt (Int.ofNat_lt.2 (by omega))

/-- With the length 1 it does so from every offset but the largest. -/
theorem sub_lt_one {x : Binary64} (h : le x (.fin false ⟨4607182418800017406, by decide⟩) = true) :
    lt (sub (add x .one) .one) .one = true := by
  refine lt_of_le_of_lt (sub_le_sub_right _ (add_le_add_right false _ h)) ?_
  decide +kernel

/-- Among the data that are not negative a positive magnitude stands alone at its place. -/
theorem lt_fin_of_ne {x : Binary64} {n : Fin infMag} (hn : 0 < n.val) (h0 : le .zero x = true)
    (hle : le x (.fin false n) = true) (hne : x ≠ .fin false n) : lt x (.fin false n) = true := by
  obtain ⟨a, b, ha, hb, hab⟩ := le_iff_key.1 hle
  refine lt_iff_key.2 ⟨a, b, ha, hb, lt_of_le_of_ne hab fun heq => ?_⟩
  rw [key_fin_false, Option.some.injEq] at hb
  rcases nonneg_cases h0 with ⟨m, rfl⟩ | rfl | ⟨m, rfl, hm⟩
  · rw [key_fin_false, Option.some.injEq] at ha
    exact hne (by rw [Fin.ext (a := m) (b := n) (by omega)])
  · exact inf_not_le_fin _ _ hle
  · rw [key_fin_true, Option.some.injEq] at ha
    omega

/-- Off the one operand of log 19, a subtraction of the length brings the offset below it. -/
theorem sub_advance_lt_len {x : Binary64} {L : Fin infMag} (h0 : le .zero x = true)
    (hx : lt x (.fin false L) = true) (hL : le .one (.fin false L) = true)
    (hguard : ¬ (Binary64.fin false L = .one ∧ x = .ofBits 0x3FEFFFFFFFFFFFFF)) :
    lt (sub (add x .one) (.fin false L)) (.fin false L) = true := by
  obtain ⟨a, b, ha, hb, hab⟩ := le_iff_key.1 hL
  simp only [one, key_fin_false, Option.some.injEq] at ha hb
  obtain ⟨L, hLt⟩ := L
  obtain ⟨P, rfl⟩ : ∃ P, L = P + 1 := ⟨L - 1, by simp only at hb; omega⟩
  have hxP : le x (.fin false ⟨P, by omega⟩) = true := fin_le_pred hLt hx
  by_cases hone : P + 1 = 4607182418800017408
  · obtain rfl : P = 4607182418800017407 := by omega
    have hbits : Binary64.ofBits 0x3FEFFFFFFFFFFFFF = onePred := by decide +kernel
    have hne : x ≠ onePred := fun h => hguard ⟨rfl, h.trans hbits.symm⟩
    exact sub_lt_one (fin_le_pred (by decide) (lt_fin_of_ne (by decide) h0 hxP hne))
  · refine lt_of_le_of_lt (sub_le_sub_right _ (add_le_add_right false _ hxP)) (sub_lt_len ?_ rfl)
    simp only at hb ⊢
    omega

theorem add_one_nonneg {s : Bool} {m : Fin infMag} (h : le .zero (.fin s m) = true) :
    le .zero (add (.fin s m) .one) = true := add_nonneg h (by decide)

theorem lt_inf_of_le_max {x : Binary64} (h : le x maxFinite = true) : lt x (.inf false) = true :=
  lt_of_le_of_lt h (by decide)

/-- Nothing lies above the infinity of positive sign. -/
theorem not_inf_lt (y : Binary64) : ¬ lt (.inf false) y = true := by
  intro h
  obtain ⟨a, b, ha, hb, hab⟩ := lt_iff_key.1 h
  obtain rfl : (infMag : Nat) = a := Option.some.inj ha
  cases y with
  | fin s m => exact absurd (key_fin_range hb).2 (by omega)
  | inf s => cases s <;> cases hb <;> revert hab <;> decide
  | nan => cases hb

theorem fin_of_nonneg_lt {x y : Binary64} (h0 : le .zero x = true) (h : lt x y = true) :
    ∃ s m, x = .fin s m := by
  rcases nonneg_cases h0 with ⟨m, rfl⟩ | rfl | ⟨m, rfl, -⟩
  · exact ⟨_, m, rfl⟩
  · exact absurd h (not_inf_lt y)
  · exact ⟨_, m, rfl⟩

theorem eq_inf_of_one_le {x : Binary64} (h1 : le .one x = true) (hfin : x.isFinite = false) : x = .inf false := by
  cases x with
  | fin s m => cases hfin
  | inf s =>
    cases s with
    | false => rfl
    | true => revert h1; decide
  | nan => revert h1; decide

/-- An infinite length is never reached. -/
theorem advance_range_of_inf {a : PhaseAcc} (h0 : le .zero a.off = true) (hlt : lt a.off a.len = true)
    (hinf : a.len = .inf false) : le .zero a.advance.off = true ∧ lt a.advance.off a.advance.len = true := by
  obtain ⟨s, m, hoff⟩ := fin_of_nonneg_lt h0 hlt
  rw [hoff] at h0
  have hs := lt_inf_of_le_max (add_one_le_max (fin_le_max s m))
  unfold PhaseAcc.advance
  simp only [hoff, hinf, if_neg (not_le_of_lt hs)]
  exact ⟨add_one_nonneg h0, hs⟩

theorem advance_range {a : PhaseAcc} (h0 : le .zero a.off = true) (hlt : lt a.off a.len = true)
    (h1 : le .one a.len = true) : le .zero a.advance.off = true ∧ lt a.advance.off a.advance.len = true := by
  cases hfin : a.len.isFinite with
  | true =>
    have hok := PhaseAcc.advance_ok (a := a) ⟨h0, hlt, h1, hfin⟩
    exact ⟨hok.off_nonneg, hok.off_lt⟩
  | false => exact advance_range_of_inf h0 hlt (eq_inf_of_one_le h1 hfin)

/-- Settles O46: the range by the kind of length; off the one operand of log 19 the guard has nothing to do. -/
theorem phaseOffsetStaysBelowLength : Obligations.PhaseOffsetStaysBelowLength := by
  intro a h0 hlt h1
  refine ⟨advance_range h0 hlt h1, fun hfin hguard s hs => ?_⟩
  obtain ⟨L, hL, -⟩ := len_fin h1 hfin
  have hsub := sub_advance_lt_len h0 (hL ▸ hlt) (hL ▸ h1) (hL ▸ hguard)
  rw [← hs, ← hL] at hsub
  unfold PhaseAcc.advance wrapOff
  simp only [← hs, if_neg (not_le_of_lt hsub)]

end Sys2Proof.Machine
end
